-- ==== Sys2Proof/Word.lean ====
section
/-! DEFINITION. The words of the LG4520 (bytes of the register window, raw values, cell numbers, job
descriptors, condition sets) and the two names that commands carry as operands: the queue and the
source of a hard reset. -/

namespace Sys2Proof

/-- One byte of the register window (00_scope.md, Byte order). -/
abbrev Byte := BitVec 8

/-- An address of the register window, 0x00 to 0x7F (R161). -/
abbrev WindowAddr := BitVec 7

/-- A raw value: a 32-bit two's-complement integer (R23). -/
abbrev Raw := BitVec 32

/-- A cell number; every computation of one is modulo 256 (R5). -/
abbrev CellNo := BitVec 8

/-- A job descriptor, the eight staged bytes as one 64-bit word (R38, R67). -/
abbrev Desc := BitVec 64

/-- A set of the seven conditions, in the shared condition order (R175). -/
abbrev CondSet := BitVec 7

/-- The two submission queues (R66). -/
inductive QueueId where
  /-- Q0. -/
  | q0
  /-- Q1. -/
  | q1
  deriving DecidableEq, Repr

/-- "The other queue" of 00_scope.md. -/
def QueueId.other : QueueId → QueueId
  | .q0 => .q1
  | .q1 => .q0

/-- The queue a queue bit names: 0 for Q0 and 1 for Q1 (R166). -/
def QueueId.ofBit (b : Bool) : QueueId := if b then .q1 else .q0

/-- The queue bit of a queue. -/
def QueueId.bit : QueueId → Bool
  | .q0 => false
  | .q1 => true

/-- What can hold the part reset (R170): the internal power-on reset, or the RESET# pin. -/
inductive ResetSource where
  /-- The internal power-on reset. -/
  | powerOn
  /-- The RESET# pin. -/
  | pin
  deriving DecidableEq, Repr

end Sys2Proof
end

