-- ==== Sys2Proof/Syntax.lean ====
section
/-! DEFINITION. The commands of the part: one constructor for each row of spec/opcode_table.json, in
the table's order. A command is one happening that reaches the part: an edge of a reset, a tick
boundary, a host access of the register window, the examination of a queue head by the issue
logic, or the end of a job in its unit. -/

namespace Sys2Proof

/-- The part's commands. -/
inductive Instr where
  /-- POWER_ON (R170): power comes on. -/
  | powerOn
  /-- RESET_ASSERT (R170): RESET# is asserted. -/
  | resetAssert
  /-- RESET_RELEASE (R170): RESET# is released (`pin`), or the power-on reset ends (`powerOn`). -/
  | resetRelease (src : ResetSource)
  /-- SCRUB_END (R171): the scrub writes its last cell. -/
  | scrubEnd
  /-- TICK_BOUNDARY (R165): a tick boundary passes. -/
  | tickBoundary
  /-- WAIT_TIMEOUT (R15): the wait count of the held access reaches WAIT_LIMIT. -/
  | waitTimeout
  /-- COALESCING_TIMER_EXPIRY (R142): the running timer reaches its loaded length. -/
  | coalescingTimerExpiry
  /-- CELL_ADDR_WRITE (R6): host write of `b` to CELL_ADDR. -/
  | cellAddrWrite (b : Byte)
  /-- CELL_DATA_READ (R8): host read of CELL_DATA byte 0. -/
  | cellDataRead
  /-- CELL_READ_COMPLETE (R8): host read of CELL_DATA byte 3. -/
  | cellReadComplete
  /-- CELL_WRITE (R10): host write of `b` to CELL_DATA byte 3. -/
  | cellWrite (b : Byte)
  /-- COMMIT (R68): host write of `b` to COMMIT_Qn. -/
  | commit (q : QueueId) (b : Byte)
  /-- HALT_MASK_WRITE (R83): host write of `b` to HALT_MASK of queue `q`. -/
  | haltMaskWrite (q : QueueId) (b : Byte)
  /-- ARB_CTRL_WRITE (R106): host write of `b` to ARB_CTRL. -/
  | arbCtrlWrite (b : Byte)
  /-- CQ_HEAD_READ (R138): host read of CQ_HEAD byte 0. -/
  | cqHeadRead
  /-- CQ_POP (R139): host write of `b` to CQ_POP. -/
  | cqPop (b : Byte)
  /-- CQ_THRESHOLD_WRITE (R141): host write of `b` to CQ_THRESHOLD. -/
  | cqThresholdWrite (b : Byte)
  /-- EVENT_CODE_READ (R158): host read of EVENT_CODE. -/
  | eventCodeRead
  /-- EVT_ACK (R159): host write of `b` to EVT_ACK. -/
  | evtAck (b : Byte)
  /-- FAULT_CLEAR (R169): host write of `b` to FAULT_CLEAR. -/
  | faultClear (b : Byte)
  /-- REGISTER_WRITE (R162): host write of `b` to a window address that no other row writes. -/
  | registerWrite (a : WindowAddr) (b : Byte)
  /-- RESUME_PLAIN (R75): RESUME of queue `q` written to CMD, CMD_ARG holding 0. -/
  | resumePlain (q : QueueId)
  /-- RESUME_RETRY (R122): RESUME of queue `q` written to CMD, CMD_ARG holding 1. -/
  | resumeRetry (q : QueueId)
  /-- RESUME_SKIP (R124): RESUME of queue `q` written to CMD, CMD_ARG holding 2. -/
  | resumeSkip (q : QueueId)
  /-- RESUME_SUBSTITUTE (R126): RESUME of queue `q` written to CMD, CMD_ARG holding 3. -/
  | resumeSubstitute (q : QueueId)
  /-- PAUSE (R74): PAUSE of queue `q` written to CMD. -/
  | pause (q : QueueId)
  /-- FLUSH (R76): FLUSH of queue `q` written to CMD. -/
  | flush (q : QueueId)
  /-- CLEAR_STICKY (R77): CLEAR_STICKY of queue `q` written to CMD. -/
  | clearSticky (q : QueueId)
  /-- CELL_EMPTY (R18): CELL_EMPTY written to CMD, the cell number standing in CMD_ARG. -/
  | cellEmpty
  /-- CELL_POISON (R18): CELL_POISON written to CMD, the cell number standing in CMD_ARG. -/
  | cellPoison
  /-- SOFT_RESET (R172): SOFT_RESET written to CMD. -/
  | softReset
  /-- UNKNOWN_COMMAND (R166): a byte `b` with an undefined command code written to CMD. -/
  | unknownCommand (b : Byte)
  /-- ISSUE (R94): the issue logic examines the head of queue `q` and issues it when it can. -/
  | issue (q : QueueId)
  /-- JOB_COMPLETION (R102): a unit finishes the `n`-th oldest of the jobs in flight. -/
  | jobCompletion (n : Fin 4)
  /-- RESUME_OTHER_ARGUMENT (R75): RESUME of queue `q` written to CMD, CMD_ARG holding 4 to 255. -/
  | resumeOtherArgument (q : QueueId)
  deriving DecidableEq, Repr

end Sys2Proof
end

