-- ==== Sys2Proof/WellFormed.lean ====
section
/-! DEFINITION. Which commands are well formed: the operands for which the command is the table's row
and no other. Only two rows share an address with other rows. -/

namespace Sys2Proof

/-- The window addresses whose host write has a row of its own in the table: CMD, ARB_CTRL,
CELL_ADDR, CELL_DATA byte 3, both HALT_MASKs, both COMMITs, CQ_THRESHOLD, CQ_POP, EVT_ACK and
FAULT_CLEAR (offsets of R174). -/
def ownRowAddrs : List WindowAddr :=
  [0x04#7, 0x0E#7, 0x10#7, 0x17#7, 0x24#7, 0x34#7, 0x2F#7, 0x3F#7, 0x4A#7, 0x4C#7, 0x55#7, 0x5B#7]

/-- The seven defined command codes (R166). -/
def knownCodes : List (BitVec 4) := [0x1#4, 0x2#4, 0x3#4, 0x4#4, 0x8#4, 0x9#4, 0xF#4]

/-- The command code of a byte written to CMD: bits 7:4 (R166). -/
def cmdCode (b : Byte) : BitVec 4 := b.extractLsb' 4 4

/-- The queue of a byte written to CMD: bit 0 (R166). -/
def cmdQueue (b : Byte) : QueueId := .ofBit (b.getLsbD 0)

/-- A command is well formed when its operands belong to its own row: REGISTER_WRITE names a
register with no row of its own, and UNKNOWN_COMMAND carries an undefined code. -/
def Instr.wellFormed : Instr → Bool
  | .registerWrite a _ => !ownRowAddrs.contains a
  | .unknownCommand b => !knownCodes.contains (cmdCode b)
  | .powerOn | .resetAssert | .resetRelease _ | .scrubEnd | .tickBoundary | .waitTimeout
  | .coalescingTimerExpiry | .cellAddrWrite _ | .cellDataRead | .cellReadComplete | .cellWrite _
  | .commit _ _ | .haltMaskWrite _ _ | .arbCtrlWrite _ | .cqHeadRead | .cqPop _
  | .cqThresholdWrite _ | .eventCodeRead | .evtAck _ | .faultClear _ | .resumePlain _
  | .resumeRetry _ | .resumeSkip _ | .resumeSubstitute _ | .pause _ | .flush _ | .clearSticky _
  | .cellEmpty | .cellPoison | .softReset | .issue _ | .jobCompletion _
  | .resumeOtherArgument _ => true

end Sys2Proof
end

