-- ==== Sys2Proof/Decode.lean ====
section
/-! DEFINITION. The decoder of table words. No row of spec/opcode_table.json gives a bit (every row's
"fields" is empty and none has "fixed"), because a command is a happening and not a stored word. So
no word spells a command (DESIGN CHOICE, notes/assumptions/14.md). -/

namespace Sys2Proof

/-- The command that the `nbits`-bit table word `w` spells: none, for every word. -/
def decodeTableWord (_nbits _w : Nat) : Option Instr := none

end Sys2Proof
end

