-- ==== Sys2Proof/Config.lean ====
section
/-! DEFINITION. The fixed numbers of the part (00_scope.md, Capacities and ranges). The manual leaves
no value open that a command reads, so there is no opaque constant here (DEDUCED,
notes/assumptions/13.md). -/

namespace Sys2Proof.Config

/-- PART_ID (R162, R174). -/
def partId : Byte := 0x6B#8

/-- REVISION (R162, R174). -/
def revision : Byte := 0x10#8

/-- Descriptors in a queue's ring (R68). -/
def ringCapacity : Nat := 16

/-- Slots of the completion queue, filled and reserved together (R131). -/
def cqCapacity : Nat := 32

/-- Cells of the cell store (R5). -/
def cellCount : Nat := 256

/-- Greatest raw value (R23). -/
def rawMax : Int := 2147483647

/-- Least raw value (R23). -/
def rawMin : Int := -2147483648

end Sys2Proof.Config
end

