-- ==== Sys2Proof/Machine/State.lean ====
section
/-! DEFINITION. The state of the LG4520: for each of its blocks a record of everything the manual
gives it, the queue of commands that wait, and the state right after a power-on reset. -/

namespace Sys2Proof.Machine

/-! ## Cells -/

/-- The tag of a cell (R1). -/
inductive Tag where
  /-- The cell holds no operand. -/
  | empty
  /-- The cell holds an operand. -/
  | valid
  /-- The cell holds the result of an invalid operation. -/
  | poison
  deriving DecidableEq, Repr

/-- One cell: its raw value and its tag (R1). -/
structure Cell where
  value : Raw
  tag : Tag
  deriving DecidableEq, Repr

/-- Value 0 with tag EMPTY: what the scrub leaves in every cell (R20). -/
def emptyCell : Cell := ⟨0#32, .empty⟩

/-- The 256 cells, as a list of (cell number, cell) pairs in one canonical form: numbers strictly
rising, and no pair whose cell is `emptyCell`. An unlisted cell holds `emptyCell`. -/
abbrev Cells := List (Nat × Cell)

/-- What a held access is (R13): a read of CELL_DATA byte 0, or a write of byte 3 with the byte that
the host drove. -/
inductive AccessKind where
  /-- A read of CELL_DATA byte 0. -/
  | read
  /-- A write of `b` to CELL_DATA byte 3. -/
  | write (b : Byte)
  deriving DecidableEq, Repr

/-- A held access: its kind, the cell CELL_ADDR named when it arrived, and its wait count (R13). -/
structure HeldAccess where
  kind : AccessKind
  cell : CellNo
  count : Nat
  deriving DecidableEq, Repr

/-- The cell store (01_the_cell_store.md). -/
structure CellStore where
  /-- Values and tags (R1). -/
  cells : Cells
  /-- CELL_ADDR (R6). -/
  addr : CellNo
  /-- CELL_MODE bit 0, auto-increment (R7). -/
  autoInc : Bool
  /-- Write staging, bytes 0 to 2 (R9). -/
  staging : BitVec 24
  /-- Read latch (R8). -/
  latch : Raw
  /-- A read is open (R8). -/
  readOpen : Bool
  /-- The access stretched on RDY, if any (R13). -/
  held : Option HeldAccess
  deriving DecidableEq, Repr

/-! ## Jobs -/

/-- The nineteen operations (R38, R177). -/
inductive Op where
  | setframe | fence | move | loadk | clear | add | sub | neg | abs | min | max | cmp | rescale
  | sumv | mul | mac | div | sqrt | dot
  deriving DecidableEq, Repr

/-- The four rounding modes (R25). -/
inductive RoundMode where
  | nearestEven | towardZero | towardMinusInf | towardPlusInf
  deriving DecidableEq, Repr

/-- The capacity of the execution units that a job claims (R91). -/
inductive Claim where
  /-- The transfer unit. -/
  | tu
  /-- The sum unit. -/
  | su
  /-- One scalar place of the product unit. -/
  | puScalar
  /-- The whole product unit. -/
  | puWhole
  /-- The whole product unit and the sum unit (DIV and SQRT). -/
  | puAndSu
  deriving DecidableEq, Repr

/-- A committed job: its descriptor, unchanged since the commit, and its sequence number (R39, R70). -/
structure Job where
  desc : Desc
  seq : Byte
  deriving DecidableEq, Repr

/-- What the held-job slot keeps (R79): the job, its condition set, and whether it halted at issue. -/
structure HeldJob where
  job : Job
  conds : CondSet
  atIssue : Bool
  deriving DecidableEq, Repr

/-- The state of a queue (R73) together with its held-job slot, which is occupied exactly in
DRAINING and HALTED (R79): those two carry the held job, and the other three have none. -/
inductive QState where
  /-- PAUSED, 0. -/
  | paused
  /-- ACTIVE, 1. -/
  | active
  /-- PAUSING, 2. -/
  | pausing
  /-- DRAINING, 3, with the held job. -/
  | draining (h : HeldJob)
  /-- HALTED, 4, with the held job. -/
  | halted (h : HeldJob)
  deriving DecidableEq, Repr

/-- A submission queue (R66), with the frame pointers shown in its register block. -/
structure Queue where
  /-- The ring, head first (R68). Its length is DEPTH. -/
  ring : List Job
  /-- The retry position (R79). -/
  retry : Option Job
  /-- Queue state and held-job slot (R73, R79). -/
  state : QState
  /-- Next sequence number (R70). -/
  nextSeq : Byte
  /-- In-flight count (R72). -/
  inflight : Nat
  /-- The five writable bits of the halt mask (R83). -/
  haltMask : BitVec 5
  /-- Sticky flags (R112). -/
  sticky : BitVec 5
  /-- HALT_COND (R118). -/
  haltCond : CondSet
  /-- HALT_TAG (R118). -/
  haltTag : Byte
  /-- HALT_SEQ (R118). -/
  haltSeq : Byte
  /-- FLUSH_COUNT (R76). -/
  flushCount : Nat
  /-- Frame pointer A, owned by the issue logic (R85). -/
  frameA : BitVec 5
  /-- Frame pointer B, owned by the issue logic (R85). -/
  frameB : BitVec 5
  deriving DecidableEq, Repr

/-! ## Issue logic -/

/-- Transfer unit occupancy (R85). -/
inductive TuOcc where
  | free | busy
  deriving DecidableEq, Repr

/-- Sum unit occupancy (R85). -/
inductive SuOcc where
  | free | busy | lent
  deriving DecidableEq, Repr

/-- Product unit occupancy (R85). -/
inductive PuOcc where
  | idle | oneScalar | twoScalar | whole
  deriving DecidableEq, Repr

/-- An in-flight entry (R85): one job between its issue and its completion or abort. -/
structure InFlight where
  queue : QueueId
  job : Job
  /-- The halt mask captured at issue (R110). -/
  mask : CondSet
  /-- Whether the job issued guarded (R93). -/
  guarded : Bool
  /-- Whether POISON_IN was raised at issue and carried on (R34, R96). -/
  poisonIn : Bool
  /-- Destination cells in element order (R44). -/
  dests : List CellNo
  /-- Source A as captured (R95). -/
  srcA : List Cell
  /-- Source B as captured; one cell under BCAST (R43, R95). -/
  srcB : List Cell
  /-- The accumulator of a MAC as captured (R60, R95). -/
  srcD : List Cell
  /-- The unit capacity held (R91). -/
  claim : Claim
  deriving DecidableEq, Repr

/-- The issue logic (R85), without the frame pointers, which stand in `Queue`. -/
structure IssueLogic where
  /-- One pending mark per cell: bit n is the mark of cell n (R86). -/
  marks : BitVec 256
  tu : TuOcc
  su : SuOcc
  pu : PuOcc
  /-- In-flight entries, oldest issue first (R85). -/
  inflight : List InFlight
  /-- Starvation counter (R106). -/
  starvation : Nat
  /-- Preferred queue, ARB_CTRL bit 7 (R105). -/
  preferred : QueueId
  /-- Guard K, ARB_CTRL bits 3:0 (R105). -/
  guardK : BitVec 4
  deriving DecidableEq, Repr

/-! ## Completion queue -/

/-- The status of a posted record (R134). -/
inductive Status where
  | done | halted | skipped | substituted
  deriving DecidableEq, Repr

/-- A completion record (R134). -/
structure Record where
  status : Status
  queue : QueueId
  echoValid : Bool
  haltedAtIssue : Bool
  seq : Byte
  hostTag : Byte
  conds : CondSet
  echo : Raw
  deriving DecidableEq, Repr

/-- The coalescing timer (R131, R142): IDLE, or RUNNING with a count and its loaded length. -/
inductive Timer where
  | idle
  | running (count length : Nat)
  deriving DecidableEq, Repr

/-- The completion queue (R131). The filled count is the ring's length. -/
structure CompletionQueue where
  /-- Filled records, oldest first. -/
  ring : List Record
  /-- Reservation count, CQ_RESERVED (R132). -/
  reserved : Nat
  /-- CQ_THRESHOLD (R141). -/
  threshold : Byte
  /-- COALESCE_TIME (R143). -/
  coalesceTime : Byte
  timer : Timer
  /-- Expiry flag (R142). -/
  expired : Bool
  /-- Head read latch, byte 0 in bits 7:0 (R138). -/
  headLatch : BitVec 64
  deriving DecidableEq, Repr

/-! ## Event unit and host port -/

/-- The event unit (R148): the four latched sources, the enables, levels and global enable. The four
level sources are their owners' conditions and are not stored (R150). -/
structure EventUnit where
  startDone : Bool
  paused : Bool
  signal : Bool
  starved : Bool
  /-- EVT_ENABLE (R154). -/
  enable : Byte
  /-- EVT_LEVEL at 0x52, sources 0 to 3 (R155). -/
  level0 : Byte
  /-- EVT_LEVEL at 0x53, sources 4 to 7 (R155). -/
  level1 : Byte
  /-- EVT_GLOBAL bit 0 (R154). -/
  global : Bool
  deriving DecidableEq, Repr

/-- CMD_RESULT (R167). -/
inductive CmdResult where
  | accepted | refusedState | refusedArg | refusedBusy | refusedStarting | unknownCommand
  deriving DecidableEq, Repr

/-- FAULT_CODE (R168). -/
inductive PortFault where
  | none | notReady | cellBusy | waitTimeout | queueFull | cqEmptyPop
  deriving DecidableEq, Repr

/-- RESET_CAUSE (R173). -/
inductive ResetCause where
  | powerOn | pin | soft
  deriving DecidableEq, Repr

/-- The host port's registers (R161 to R173). -/
structure HostPort where
  /-- CMD_ARG (R167). -/
  cmdArg : Byte
  cmdResult : CmdResult
  /-- TIMEBASE (R165). -/
  timebase : Byte
  /-- WAIT_LIMIT (R164). -/
  waitLimit : Byte
  faultCode : PortFault
  /-- FAULT_ADDR (R168). -/
  faultAddr : Byte
  /-- FAULT_COUNT (R168). -/
  faultCount : Byte
  /-- The count of the tick divider, in clock periods (R165). -/
  divider : Nat
  /-- The length of the tick in progress: TIMEBASE as it was when that tick began (R165). -/
  tickLength : Nat
  resetCause : ResetCause
  deriving DecidableEq, Repr

/-- Engine state (R170, R171). -/
inductive EngineState where
  | starting | ready
  deriving DecidableEq, Repr

/-- The engine, and what holds the part reset (R170). -/
structure Engine where
  /-- ENGINE_STATE. -/
  state : EngineState
  /-- The internal power-on reset holds the part. -/
  por : Bool
  /-- RESET# is asserted (low). -/
  pin : Bool
  /-- The RESET_CAUSE that the end of the hard reset in progress will set (R170). -/
  holdCause : ResetCause
  /-- The cell the scrub writes next (R20). -/
  scrubNext : Nat
  deriving DecidableEq, Repr

/-! ## The whole machine -/

/-- The state of the part. -/
structure State where
  cell : CellStore
  q0 : Queue
  q1 : Queue
  issue : IssueLogic
  cq : CompletionQueue
  event : EventUnit
  port : HostPort
  engine : Engine
  /-- JOB_STAGE bytes 0 to 7, shared by the queues (R67). -/
  jobStage : Desc
  /-- SUBSTITUTE (R127). -/
  substitute : Raw
  /-- The byte the part gave on D7 to D0 for the last read taken; none before the first, while that
  read is held, and from a hard reset on. The model's own field (DESIGN CHOICE,
  notes/assumptions/5.md). -/
  readData : Option Byte
  /-- The commands that wait, first in first out. The model's own field. -/
  pending : List Instr
  deriving DecidableEq, Repr

/-- The cell store after hard reset (R21, table "State of the store after each reset"). -/
def CellStore.reset : CellStore :=
  { cells := [], addr := 0#8, autoInc := false, staging := 0#24, latch := 0#32, readOpen := false,
    held := none }

/-- A queue after hard reset (R84). -/
def Queue.reset : Queue :=
  { ring := [], retry := none, state := .paused, nextSeq := 0#8, inflight := 0, haltMask := 0#5,
    sticky := 0#5, haltCond := 0#7, haltTag := 0#8, haltSeq := 0#8, flushCount := 0,
    frameA := 0#5, frameB := 2#5 }

/-- The issue logic after hard reset (R85, R109). -/
def IssueLogic.reset : IssueLogic :=
  { marks := 0#256, tu := .free, su := .free, pu := .idle, inflight := [], starvation := 0,
    preferred := .q0, guardK := 0#4 }

/-- The completion queue after hard reset (R147). -/
def CompletionQueue.reset : CompletionQueue :=
  { ring := [], reserved := 0, threshold := 1#8, coalesceTime := 0#8, timer := .idle,
    expired := false, headLatch := 0#64 }

/-- The event unit after hard reset (R160). -/
def EventUnit.reset : EventUnit :=
  { startDone := false, paused := false, signal := false, starved := false, enable := 0#8,
    level0 := 0#8, level1 := 0#8, global := false }

/-- The host port after a power-on reset (table "Port state after each reset"). -/
def HostPort.reset : HostPort :=
  { cmdArg := 0#8, cmdResult := .accepted, timebase := 16#8, waitLimit := 32#8, faultCode := .none,
    faultAddr := 0#8, faultCount := 0#8, divider := 0, tickLength := 16, resetCause := .powerOn }

/-- The engine at the end of a power-on reset: STARTING, the scrub at cell 0 (R170). -/
def Engine.reset : Engine :=
  { state := .starting, por := false, pin := false, holdCause := .powerOn, scrubNext := 0 }

/-- The part right after the power-on reset has ended: STARTING, the scrub about to begin
(R170; that it is the power-on reset and not a pin reset is a DESIGN CHOICE, notes/assumptions/1.md). -/
def State.reset : State :=
  { cell := CellStore.reset, q0 := Queue.reset, q1 := Queue.reset, issue := IssueLogic.reset,
    cq := CompletionQueue.reset, event := EventUnit.reset, port := HostPort.reset,
    engine := Engine.reset, jobStage := 0#64, substitute := 0#32, readData := none, pending := [] }

/-- The faults of a step: none. The manual ends no command with a stop of the part (a port fault is an
effect on the port fault record, R168), so this type has no constructor, and no step faults. -/
inductive Fault where
  deriving DecidableEq, Repr

/-- The refusals of a step. -/
inductive Refusal where
  /-- A command that has no meaning in this model. Raised by an arm of `exec` only; no arm raises it
  now. Safe: it stops where the part would go on. -/
  | notModelled (mnemonic : String)
  deriving DecidableEq, Repr

end Sys2Proof.Machine
end

