-- ==== Sys2Proof/Machine/Flags.lean ====
section
/-! DEFINITION. The seven conditions, and the exact evaluation, single rounding and saturation from
which INEXACT and OVERFLOW follow (02_number_format_and_arithmetic_conditions.md). -/

namespace Sys2Proof.Machine

/-! ## The condition order (R175) -/

def inexactBit : CondSet := 0x01#7
def overflowBit : CondSet := 0x02#7
def zeroDivideBit : CondSet := 0x04#7
def invalidBit : CondSet := 0x08#7
def poisonInBit : CondSet := 0x10#7
def emptySourceBit : CondSet := 0x20#7
def badJobBit : CondSet := 0x40#7

/-- The halt mask with its two fixed conditions, EMPTY_SOURCE and BAD_JOB (R83, R110). -/
def fullMask (m : BitVec 5) : CondSet := 0x60#7 ||| m.setWidth 7

/-- The sticky flags of a condition set: bits 4:0 (R112). -/
def stickyBits (c : CondSet) : BitVec 5 := c.setWidth 5

/-- The execution conditions an operation can raise (R30). RESCALE counts with its whole set. -/
def execConds : Op → CondSet
  | .setframe | .fence | .move | .loadk | .clear | .min | .max | .cmp => 0#7
  | .add | .sub | .neg | .abs | .rescale | .sumv | .mul | .mac | .dot => overflowBit ||| inexactBit
  | .div => overflowBit ||| zeroDivideBit ||| invalidBit ||| inexactBit
  | .sqrt => invalidBit ||| inexactBit

/-! ## Element results -/

/-- What a unit hands over for one element: the cell it writes and the conditions it raised (R31). -/
structure ElemResult where
  cell : Cell
  conds : CondSet
  deriving DecidableEq, Repr

/-- A cell written with the tag `t`: an EMPTY or POISON cell always has value 0 (R1). -/
def taggedCell (v : Raw) (t : Tag) : Cell :=
  match t with
  | .valid => ⟨v, .valid⟩
  | .empty => ⟨0#32, .empty⟩
  | .poison => ⟨0#32, .poison⟩

/-- A POISON element with the conditions `c` (R29, R35). -/
def poisonResult (c : CondSet) : ElemResult := ⟨taggedCell 0#32 .poison, c⟩

/-- The quotient `num / den` (`den` positive) rounded to an integer in mode `m` (R25). -/
def roundQuot (m : RoundMode) (num den : Int) : Int :=
  let low := num / den
  let rest := num % den
  if rest = 0 then low
  else match m with
    | .nearestEven =>
      if 2 * rest < den then low
      else if den < 2 * rest then low + 1
      else if low % 2 = 0 then low else low + 1
    | .towardZero => if num < 0 then low + 1 else low
    | .towardMinusInf => low
    | .towardPlusInf => low + 1

/-- The greatest number below `2 ^ bits` whose square is at most `n`, built from its high bit down. -/
def rootBits (n : Nat) : Nat → Nat → Nat
  | 0, acc => acc
  | k + 1, acc =>
    if (acc + 2 ^ k) * (acc + 2 ^ k) ≤ n then rootBits n k (acc + 2 ^ k) else rootBits n k acc

/-- The integer part of the square root of `n`, for `n` below 2 ^ 64. -/
def isqrt (n : Nat) : Nat := rootBits n 32 0

/-- The square root of `n` rounded to an integer in mode `m` (R25, R62). The root is an integer, or
irrational, so nearest-even meets no halfway case: above the halfway point means `n` exceeds
`low * low + low`. -/
def roundRoot (m : RoundMode) (n : Nat) : Int :=
  let low := isqrt n
  if low * low = n then low
  else match m with
    | .nearestEven => if low * low + low < n then low + 1 else low
    | .towardZero => low
    | .towardMinusInf => low
    | .towardPlusInf => low + 1

/-- Saturation and the conditions of a rounded result (R26, R27): `exact` says that the rounding left
the exact result as it was. -/
def settleResult (rounded : Int) (exact : Bool) : ElemResult :=
  if Config.rawMax < rounded then
    ⟨⟨BitVec.ofInt 32 Config.rawMax, .valid⟩, overflowBit ||| inexactBit⟩
  else if rounded < Config.rawMin then
    ⟨⟨BitVec.ofInt 32 Config.rawMin, .valid⟩, overflowBit ||| inexactBit⟩
  else ⟨⟨BitVec.ofInt 32 rounded, .valid⟩, if exact then 0#7 else inexactBit⟩

/-- The element result of the exact quotient `num / den`, `den` positive (R24). -/
def quotResult (m : RoundMode) (num den : Int) : ElemResult :=
  settleResult (roundQuot m num den) (num % den = 0)

/-- The element result of an exact result that is an integer (R24). -/
def intResult (x : Int) : ElemResult := settleResult x true

/-- The element result of the exact square root of `n` (R62). -/
def rootResult (m : RoundMode) (n : Nat) : ElemResult :=
  settleResult (roundRoot m n) (isqrt n * isqrt n = n)

end Sys2Proof.Machine
end

