-- ==== Sys2Proof/Machine/Operands.lean ====
section
/-! DEFINITION. The job descriptor's fields and what each operation does with them: malformed
descriptors, operand resolution, source and destination cells, unit claims (03_jobs.md,
10_register_and_record_layouts.md). -/

namespace Sys2Proof.Machine

/-! ## Descriptor fields (R177) -/

def codeField (d : Desc) : BitVec 6 := d.extractLsb' 0 6
def dstField (d : Desc) : BitVec 5 := d.extractLsb' 6 5
def srcAField (d : Desc) : BitVec 5 := d.extractLsb' 11 5
def srcBField (d : Desc) : BitVec 5 := d.extractLsb' 16 5
def fracField (d : Desc) : BitVec 5 := d.extractLsb' 21 5
def roundField (d : Desc) : BitVec 2 := d.extractLsb' 26 2
def countField (d : Desc) : BitVec 4 := d.extractLsb' 28 4
def reportField (d : Desc) : BitVec 2 := d.extractLsb' 32 2
def bcastField (d : Desc) : Bool := d.getLsbD 34
def flagField (d : Desc) : Bool := d.getLsbD 35
def signalField (d : Desc) : Bool := d.getLsbD 36
def reservedField (d : Desc) : BitVec 3 := d.extractLsb' 37 3
def hostTag (d : Desc) : Byte := d.extractLsb' 40 8
def immField (d : Desc) : BitVec 16 := d.extractLsb' 48 16

/-- The operation codes (R177); every other code is undefined. -/
def opOfCode (c : BitVec 6) : Option Op :=
  match c with
  | 0x01#6 => some .setframe
  | 0x02#6 => some .fence
  | 0x08#6 => some .move
  | 0x09#6 => some .loadk
  | 0x0A#6 => some .clear
  | 0x10#6 => some .add
  | 0x11#6 => some .sub
  | 0x12#6 => some .neg
  | 0x13#6 => some .abs
  | 0x14#6 => some .min
  | 0x15#6 => some .max
  | 0x16#6 => some .cmp
  | 0x17#6 => some .rescale
  | 0x18#6 => some .sumv
  | 0x20#6 => some .mul
  | 0x21#6 => some .mac
  | 0x22#6 => some .div
  | 0x23#6 => some .sqrt
  | 0x24#6 => some .dot
  | _ => none

/-- The code of an operation (R177). -/
def opCode : Op → BitVec 6
  | .setframe => 0x01#6
  | .fence => 0x02#6
  | .move => 0x08#6
  | .loadk => 0x09#6
  | .clear => 0x0A#6
  | .add => 0x10#6
  | .sub => 0x11#6
  | .neg => 0x12#6
  | .abs => 0x13#6
  | .min => 0x14#6
  | .max => 0x15#6
  | .cmp => 0x16#6
  | .rescale => 0x17#6
  | .sumv => 0x18#6
  | .mul => 0x20#6
  | .mac => 0x21#6
  | .div => 0x22#6
  | .sqrt => 0x23#6
  | .dot => 0x24#6

/-- A descriptor put together from its fields, the immediate in the highest bits (R177). -/
def packDesc (imm : BitVec 16) (tag : Byte) (reserved : BitVec 3) (signal flag bcast : Bool)
    (report : BitVec 2) (count : BitVec 4) (round : BitVec 2) (frac srcB srcA dst : BitVec 5)
    (code : BitVec 6) : Desc :=
  imm ++ tag ++ reserved ++ BitVec.ofBool signal ++ BitVec.ofBool flag ++ BitVec.ofBool bcast ++
    report ++ count ++ round ++ frac ++ srcB ++ srcA ++ dst ++ code

/-- The operation a descriptor's code field names, well formed or not. -/
def opField (d : Desc) : Option Op := opOfCode (codeField d)

/-- The element count, 1 to 16 (R42). -/
def countOf (d : Desc) : Nat := (countField d).toNat + 1

/-- The fraction count q (R23). -/
def fracOf (d : Desc) : Nat := (fracField d).toNat

/-- The rounding mode (R25). -/
def roundOf (d : Desc) : RoundMode :=
  match roundField d with
  | 0#2 => .nearestEven
  | 1#2 => .towardZero
  | 2#2 => .towardMinusInf
  | _ => .towardPlusInf

/-- The shift of RESCALE: immediate bits 5:0 as a signed six-bit value (R57). -/
def shiftOf (d : Desc) : Int := ((immField d).setWidth 6).toInt

/-- The constant of LOADK: the immediate sign-extended, or as the upper half (R51). -/
def constantOf (d : Desc) : Raw :=
  if flagField d then (immField d ++ 0#16 : BitVec 32) else (immField d).signExtend 32

/-! ## What each operation reads and writes (R40, R44) -/

/-- The operation reads source A. -/
def readsA : Op → Bool
  | .setframe | .fence | .loadk | .clear => false
  | .move | .add | .sub | .neg | .abs | .min | .max | .cmp | .rescale | .sumv | .mul | .mac | .div
  | .sqrt | .dot => true

/-- The operation reads source B, and so allows BCAST (R43). -/
def readsB : Op → Bool
  | .add | .sub | .min | .max | .cmp | .mul | .mac | .div | .dot => true
  | .setframe | .fence | .move | .loadk | .clear | .neg | .abs | .rescale | .sumv | .sqrt => false

/-- The operation reads its destination as an accumulator (R60). -/
def readsDst (o : Op) : Bool := o = .mac

/-- The operation is a control job: it names no cell and needs no unit (R48, R49). -/
def isControl (o : Op) : Bool := o = .setframe || o = .fence

/-- The operation is a reduction: one result whatever the count (R42). -/
def isReduction (o : Op) : Bool := o = .sumv || o = .dot

/-- The tags of the source cells are inspected at issue: for every operation but MOVE (R32). -/
def inspects (o : Op) : Bool := o != .move

/-- What is malformed in a descriptor of the operation `o` beyond the causes that concern any
descriptor (R64). -/
def malformedFor (o : Op) (d : Desc) : Bool :=
  (isControl o && countField d != 0#4) ||
  (!readsB o && bcastField d) ||
  (o == .setframe && (immField d).extractLsb' 5 11 != 0#11) ||
  (o == .rescale && ((immField d).extractLsb' 6 10 != 0#10 || (immField d).setWidth 6 == 0x20#6))

/-- The descriptor is malformed, and its job raises BAD_JOB at issue (R64). -/
def malformed (d : Desc) : Bool :=
  match opField d with
  | none => true
  | some o =>
    reservedField d != 0#3 || fracField d == 31#5 || reportField d == 3#2 || malformedFor o d

/-- The operation of a well-formed descriptor, and none for a malformed one: what the issue logic
treats the head as (R65). -/
def jobOp (d : Desc) : Option Op := if malformed d then none else opField d

/-! ## Resolution (R5, R41) -/

/-- The first cell of an operand field: pointer select in bit 4, index in bits 3:0 (R5). -/
def resolve (Q : Queue) (f : BitVec 5) : CellNo :=
  let fp := if f.getLsbD 4 then Q.frameB else Q.frameA
  8#8 * fp.setWidth 8 + (f.setWidth 4).setWidth 8

/-- A run of `n` cells from `base`, modulo 256 (R5). -/
def cellRun (base : CellNo) (n : Nat) : List CellNo :=
  (List.range n).map fun e => base + BitVec.ofNat 8 e

/-- Source A cells, in element order (R44). -/
def aCells (Q : Queue) (d : Desc) : List CellNo :=
  match jobOp d with
  | none => []
  | some o => if readsA o then cellRun (resolve Q (srcAField d)) (countOf d) else []

/-- Source B cells: the run, or its first cell under BCAST (R43, R44). -/
def bCells (Q : Queue) (d : Desc) : List CellNo :=
  match jobOp d with
  | none => []
  | some o =>
    if readsB o then
      cellRun (resolve Q (srcBField d)) (if bcastField d then 1 else countOf d)
    else []

/-- Destination cells: the run, one cell for a reduction, none for a control job (R42, R44). -/
def destCells (Q : Queue) (d : Desc) : List CellNo :=
  match jobOp d with
  | none => []
  | some o =>
    if isControl o then []
    else cellRun (resolve Q (dstField d)) (if isReduction o then 1 else countOf d)

/-- The accumulator cells of a MAC (R44, R60). -/
def dCells (Q : Queue) (d : Desc) : List CellNo :=
  match jobOp d with
  | none => []
  | some o => if readsDst o then destCells Q d else []

/-- The source cells of a job (R44). -/
def sourceCells (Q : Queue) (d : Desc) : List CellNo := aCells Q d ++ bCells Q d ++ dCells Q d

/-- The cells whose tags are inspected at issue: the source cells, but none for MOVE (R32). -/
def inspectedCells (Q : Queue) (d : Desc) : List CellNo :=
  match jobOp d with
  | none => []
  | some o => if inspects o then sourceCells Q d else []

/-! ## Units and guarding -/

/-- The unit capacity that an operation of a given count claims; none for a control job (R91). -/
def claimFor (o : Op) (count : Nat) : Option Claim :=
  match o with
  | .setframe | .fence => none
  | .move | .loadk | .clear => some .tu
  | .add | .sub | .neg | .abs | .min | .max | .cmp | .rescale | .sumv => some .su
  | .mul | .mac => some (if count = 1 then .puScalar else .puWhole)
  | .dot => some .puWhole
  | .div | .sqrt => some .puAndSu

/-- The unit capacity a job needs; none for a control or malformed job (R65, R91). -/
def claimOf (d : Desc) : Option Claim :=
  match jobOp d with
  | none => none
  | some o => claimFor o (countOf d)

/-- The job is guarded under the halt mask `m`: its operation can raise a condition of `m` (R93).
POISON_IN, EMPTY_SOURCE and BAD_JOB guard nothing, since no operation's set holds them. -/
def guardedUnder (m : CondSet) (d : Desc) : Bool :=
  match jobOp d with
  | none => false
  | some o => execConds o &&& m != 0#7

/-- The descriptor is a well-formed FENCE (R88, condition 6). -/
def isFence (d : Desc) : Bool := jobOp d == some .fence

/-- The descriptor is a well-formed FENCE of scope BOTH (R100). -/
def isBothFence (d : Desc) : Bool := isFence d && flagField d

/-- The report mode's decision at a completion with the condition set `c`: true to post a DONE
record, false to release the reservation (R45, R136). -/
def postsDone (d : Desc) (c : CondSet) : Bool :=
  match reportField d with
  | 0#2 => true
  | 1#2 => c != 0#7
  | _ => false

/-- The held job can take a substitute result, as far as the job itself decides (R125, the first three
requirements). -/
def substitutable (h : HeldJob) : Bool :=
  countOf h.job.desc == 1 && h.conds != badJobBit &&
  match opField h.job.desc with
  | none | some .setframe | some .fence | some .clear => false
  | some _ => true

end Sys2Proof.Machine
end

