-- ==== Sys2Proof/Machine/Results.lean ====
section
/-! DEFINITION. The result of each operation: for every element the value, tag and conditions that its
unit hands over (03_jobs.md, R50 to R63; poison propagation, R35). -/

namespace Sys2Proof.Machine

/-- The element result of an element-wise arithmetic operation on unpoisoned inputs: `a` and `b` from
the sources, `acc` from the destination of a MAC (R53 to R57, R59 to R62). Operations that are not
element-wise arithmetic have their own definitions below. -/
def laneResult (d : Desc) (o : Op) (a b acc : Int) : ElemResult :=
  let m := roundOf d
  let scale : Int := 2 ^ fracOf d
  match o with
  | .add => intResult (a + b)
  | .sub => intResult (a - b)
  | .neg => intResult (-a)
  | .abs => intResult (if a < 0 then -a else a)
  | .min => intResult (if a ≤ b then a else b)
  | .max => intResult (if a ≤ b then b else a)
  | .cmp => intResult (if a < b then -1 else if a = b then 0 else 1)
  | .rescale =>
    if 0 ≤ shiftOf d then intResult (a * 2 ^ (shiftOf d).toNat)
    else quotResult m a (2 ^ (-(shiftOf d)).toNat)
  | .mul => quotResult m (a * b) scale
  | .mac => quotResult m (a * b + acc * scale) scale
  | .div =>
    if b = 0 then
      if a = 0 then poisonResult invalidBit
      else ⟨⟨BitVec.ofInt 32 (if 0 < a then Config.rawMax else Config.rawMin), .valid⟩, zeroDivideBit⟩
    else if 0 < b then quotResult m (a * scale) b
    else quotResult m (-(a * scale)) (-b)
  | .sqrt => if a < 0 then poisonResult invalidBit else rootResult m (a * scale).toNat
  | .setframe | .fence | .move | .loadk | .clear | .sumv | .dot => intResult 0

/-- The value of a captured cell as an integer. -/
def cellInt (c : Cell) : Int := c.value.toInt

/-- A captured cell is POISON. -/
def isPoison (c : Cell) : Bool := c.tag == .poison

/-- Element `e` of a captured source; under BCAST element 0 of B serves every lane (R43). -/
def laneOf (cs : List Cell) (e : Nat) : Cell := cs.getD e emptyCell

/-- The captured B element of lane `e` (R43). -/
def laneB (j : InFlight) (e : Nat) : Cell := laneOf j.srcB (if bcastField j.job.desc then 0 else e)

/-- The inputs that lane `e` of an element-wise operation reads (R32, R35). -/
def laneInputs (j : InFlight) (o : Op) (e : Nat) : List Cell :=
  laneOf j.srcA e :: (if readsB o then [laneB j e] else []) ++
    (if readsDst o then [laneOf j.srcD e] else [])

/-- Lane `e` of an element-wise arithmetic job: POISON when an input of the lane is POISON, and
otherwise the operation's result (R35). -/
def elementResult (j : InFlight) (o : Op) (e : Nat) : ElemResult :=
  if (laneInputs j o e).any isPoison then poisonResult 0#7
  else laneResult j.job.desc o (cellInt (laneOf j.srcA e)) (cellInt (laneB j e))
    (cellInt (laneOf j.srcD e))

/-- The exact sum of the elements of source A (R58). -/
def sumOf (j : InFlight) : Int := (j.srcA.map cellInt).sum

/-- The exact sum of the products of DOT, over the elements of source A (R63). -/
def dotOf (j : InFlight) : Int :=
  ((List.range j.srcA.length).map fun e => cellInt (laneOf j.srcA e) * cellInt (laneB j e)).sum

/-- The one result of a reduction: POISON when any input is POISON (R35, R58, R63). -/
def reductionResult (j : InFlight) (o : Op) : ElemResult :=
  if (j.srcA ++ j.srcB).any isPoison then poisonResult 0#7
  else if o = .sumv then intResult (sumOf j)
  else quotResult (roundOf j.job.desc) (dotOf j) (2 ^ fracOf j.job.desc)

/-- The element results of a job, one for each destination cell, in element order (R37). -/
def jobResults (j : InFlight) : List ElemResult :=
  let d := j.job.desc
  match jobOp d with
  | none | some .setframe | some .fence => []
  | some .move => j.srcA.map fun c => ⟨taggedCell c.value c.tag, 0#7⟩
  | some .loadk => List.replicate (countOf d) ⟨⟨constantOf d, .valid⟩, 0#7⟩
  | some .clear => List.replicate (countOf d) ⟨emptyCell, 0#7⟩
  | some .sumv => [reductionResult j .sumv]
  | some .dot => [reductionResult j .dot]
  | some o => (List.range (countOf d)).map (elementResult j o)

/-- The union of the conditions of element results (R31). -/
def unionConds (rs : List ElemResult) : CondSet := rs.foldl (fun c r => c ||| r.conds) 0#7

/-- The job's condition set at its completion: its elements' conditions, and POISON_IN when it was
raised at issue (R31, R34). -/
def jobConds (j : InFlight) : CondSet :=
  unionConds (jobResults j) ||| (if j.poisonIn then poisonInBit else 0#7)

/-- The job halts at its completion: it issued guarded, and its condition set meets its captured
mask (R101). -/
def haltsAtCompletion (j : InFlight) : Bool := j.guarded && jobConds j &&& j.mask != 0#7

/-- The echo of a DONE record: the value written to destination element 0, when it was written
VALID (R135). -/
def echoOf (rs : List ElemResult) : Option Raw :=
  match rs with
  | r :: _ => if r.cell.tag = .valid then some r.cell.value else none
  | [] => none

end Sys2Proof.Machine
end

