-- ==== Sys2Proof/Machine/Ops.lean ====
section
/-! DEFINITION. The named operations over the blocks of the part: the cell store and its marks, the
queues, the completion queue, the events, the port fault record, and what the resets do. -/

namespace Sys2Proof.Machine

/-! ## The cells -/

/-- The cell number `n` holds in `m`. -/
def readCells : Cells → Nat → Cell
  | [], _ => emptyCell
  | (k, c) :: m, n => if k = n then c else readCells m n

/-- `m` with `c` in the cell number `n`, kept canonical: a cell that holds `emptyCell` is not listed. -/
def writeCells : Cells → Nat → Cell → Cells
  | [], n, c => if c = emptyCell then [] else [(n, c)]
  | (k, d) :: m, n, c =>
    if n < k then (if c = emptyCell then (k, d) :: m else (n, c) :: (k, d) :: m)
    else if n = k then (if c = emptyCell then m else (n, c) :: m)
    else (k, d) :: writeCells m n c

/-- Every key of `m` is above `n`. -/
def Memory.keysAbove (n : Nat) (m : Cells) : Bool := m.all fun p => decide (n < p.1)

/-- The canonical form of the cells, with R1: numbers below 256 strictly rising, nothing listed that
holds `emptyCell`, and value 0 in every POISON or EMPTY cell. -/
def Memory.wf : Cells → Bool
  | [] => true
  | (k, c) :: m =>
    decide (k < Config.cellCount) && c != emptyCell && c == taggedCell c.value c.tag &&
      Memory.keysAbove k m && Memory.wf m

/-- The cell `n` as the state holds it (R1). -/
def State.cellAt (s : State) (n : CellNo) : Cell := readCells s.cell.cells n.toNat

/-- One write of the cell store: value and tag as one happening (R2), the value made 0 when the tag is
EMPTY or POISON (R1). -/
def putCell (n : CellNo) (c : Cell) (s : State) : State :=
  { s with cell := { s.cell with cells := writeCells s.cell.cells n.toNat (taggedCell c.value c.tag) } }

/-- The writes of a completing job: each destination cell takes its element result (R102, step 1). -/
def putResults : List CellNo → List ElemResult → State → State
  | n :: ns, r :: rs, s => putResults ns rs (putCell n r.cell s)
  | _, _, s => s

/-! ## Pending marks (R86) -/

/-- The cell carries a pending mark. -/
def isMarked (marks : BitVec 256) (n : CellNo) : Bool := marks.getLsbD n.toNat

/-- The mark of one cell. -/
def markOf (n : CellNo) : BitVec 256 := 1#256 <<< n.toNat

def setMarks (ns : List CellNo) (marks : BitVec 256) : BitVec 256 :=
  ns.foldl (fun m n => m ||| markOf n) marks

def clearMarks (ns : List CellNo) (marks : BitVec 256) : BitVec 256 :=
  ns.foldl (fun m n => m &&& ~~~(markOf n)) marks

/-! ## Queues -/

def State.queue (s : State) : QueueId → Queue
  | .q0 => s.q0
  | .q1 => s.q1

/-- `s` with the record of queue `q` replaced by `Q`. -/
def State.setQueue (s : State) (q : QueueId) (Q : Queue) : State :=
  match q with
  | .q0 => { s with q0 := Q }
  | .q1 => { s with q1 := Q }

/-- The head of a queue: the retry position, else the ring's head (R71). -/
def headJob (Q : Queue) : Option Job := Q.retry.or Q.ring.head?

/-- The queue gives up its head (R71). -/
def dropHead (Q : Queue) : Queue :=
  match Q.retry with
  | some _ => { Q with retry := none }
  | none => { Q with ring := Q.ring.tail }

/-- The held-job slot (R79). -/
def heldJob (Q : Queue) : Option HeldJob :=
  match Q.state with
  | .draining h | .halted h => some h
  | .paused | .active | .pausing => none

/-- The queue is HALTED (R80). -/
def isHalted (Q : Queue) : Bool :=
  match Q.state with
  | .halted _ => true
  | .paused | .active | .pausing | .draining _ => false

/-- The queue is DRAINING. -/
def isDraining (Q : Queue) : Bool :=
  match Q.state with
  | .draining _ => true
  | .paused | .active | .pausing | .halted _ => false

/-! ## Completion queue -/

/-- The coalescing timer at a post: it starts when it is IDLE, the expiry flag is clear and the
coalescing time is not 0 (R142). -/
def timerAtPost (c : CompletionQueue) : Timer :=
  match c.timer with
  | .idle => if !c.expired && c.coalesceTime != 0#8 then .running 0 c.coalesceTime.toNat else .idle
  | .running n l => .running n l

/-- A record placed at the tail of the ring (R133). -/
def postRecord (r : Record) (c : CompletionQueue) : CompletionQueue :=
  { c with ring := c.ring ++ [r], timer := timerAtPost c }

/-- A reservation taken at issue (R132). -/
def takeSlot (c : CompletionQueue) : CompletionQueue := { c with reserved := c.reserved + 1 }

/-- A reservation given back with no record (R132). -/
def releaseSlot (c : CompletionQueue) : CompletionQueue := { c with reserved := c.reserved - 1 }

/-- A reservation filled with a record (R133). -/
def fillSlot (r : Record) (c : CompletionQueue) : CompletionQueue := postRecord r (releaseSlot c)

/-- Slots in use: filled records and reservations together (R88, condition 2). -/
def slotsUsed (c : CompletionQueue) : Nat := c.ring.length + c.reserved

/-- A completion slot is free (R88, condition 2). -/
def slotFree (c : CompletionQueue) : Bool := slotsUsed c < Config.cqCapacity

/-- CQ_READY's condition (R144). -/
def cqReady (c : CompletionQueue) : Bool :=
  decide (c.threshold.toNat ≤ c.ring.length) || (c.expired && decide (1 ≤ c.ring.length))

/-- The record of a held job with the given status and echo (R116, R124, R126). -/
def heldRecord (st : Status) (q : QueueId) (h : HeldJob) (echo : Option Raw) : Record :=
  { status := st, queue := q, echoValid := echo.isSome, haltedAtIssue := h.atIssue, seq := h.job.seq,
    hostTag := hostTag h.job.desc, conds := h.conds, echo := echo.getD 0#32 }

/-- The DONE record of a job (R134, R135). -/
def doneRecord (q : QueueId) (j : Job) (c : CondSet) (echo : Option Raw) : Record :=
  { status := .done, queue := q, echoValid := echo.isSome, haltedAtIssue := false, seq := j.seq,
    hostTag := hostTag j.desc, conds := c, echo := echo.getD 0#32 }

/-- The end of the reservation of a job that did not halt: filled with a DONE record, or released, by
report mode and condition set (R136). -/
def endReservation (q : QueueId) (j : Job) (c : CondSet) (echo : Option Raw) (s : State) : State :=
  { s with cq := if postsDone j.desc c then fillSlot (doneRecord q j c echo) s.cq
                 else releaseSlot s.cq }

/-- The queue becomes HALTED with `h` held: its HALTED record fills the job's reservation, and the halt
information is written (R78, R116, R118). -/
def haltQueue (q : QueueId) (h : HeldJob) (s : State) : State :=
  ({ s with cq := fillSlot (heldRecord .halted q h none) s.cq }).setQueue q
    { s.queue q with state := .halted h, haltCond := h.conds, haltTag := hostTag h.job.desc,
                     haltSeq := h.job.seq }

/-! ## Events -/

/-- The pending state of source `n`: four latched sources, and four conditions of their owners (R151). -/
def sourcePending (s : State) : Nat → Bool
  | 0 => s.event.startDone
  | 1 => s.port.faultCode != .none
  | 2 => isHalted s.q0
  | 3 => isHalted s.q1
  | 4 => s.event.paused
  | 5 => cqReady s.cq
  | 6 => s.event.signal
  | 7 => s.event.starved
  | _ => false

/-- The level of source `n` (R155). -/
def sourceLevel (e : EventUnit) (n : Nat) : Nat :=
  (if n < 4 then e.level0.extractLsb' (2 * n) 2 else e.level1.extractLsb' (2 * (n - 4)) 2).toNat

/-- Source `n` is both pending and enabled (R157). -/
def sourceCalls (s : State) (n : Nat) : Bool := sourcePending s n && s.event.enable.getLsbD n

/-- EVT# is asserted (driven low): the global enable, and a source pending and enabled (R156). -/
def evtAsserted (s : State) : Bool := s.event.global && (List.range 8).any (sourceCalls s)

/-- RDY is driven low: an access is held (R163). -/
def rdyLow (s : State) : Bool := s.cell.held.isSome

/-- The better of the best source so far and source `n`: the higher level, and the lower number among
equals (R157). -/
def betterSource (s : State) (best : Option Nat) (n : Nat) : Option Nat :=
  if sourceCalls s n then
    match best with
    | none => some n
    | some m => if sourceLevel s.event m < sourceLevel s.event n then some n else some m
  else best

/-- The source a read of EVENT_CODE returns (R157). -/
def topSource (s : State) : Option Nat := (List.range 8).foldl (betterSource s) none

/-- The value of EVENT_CODE (R157). -/
def eventCode (s : State) : Byte :=
  match topSource s with
  | none => 0#8
  | some n => BitVec.ofNat 8 (0x80 + 16 * sourceLevel s.event n + n)

/-- The event unit with source `n` cleared when it is latched; a level source is not stored and stays
as its owner has it (R150, R158, R159). -/
def clearSource (n : Nat) (e : EventUnit) : EventUnit :=
  match n with
  | 0 => { e with startDone := false }
  | 4 => { e with paused := false }
  | 6 => { e with signal := false }
  | 7 => { e with starved := false }
  | _ => e

/-- EVT_PENDING: bit n for source n (R153). -/
def evtPending (s : State) : Byte :=
  (List.range 8).foldl (fun b n => if sourcePending s n then b ||| (1#8 <<< n) else b) 0#8

/-! ## Host port -/

/-- The code of FAULT_CODE (R168). -/
def faultCodeByte : PortFault → Byte
  | .none => 0#8
  | .notReady => 1#8
  | .cellBusy => 2#8
  | .waitTimeout => 3#8
  | .queueFull => 4#8
  | .cqEmptyPop => 5#8

/-- A fault entered in the port fault record: the first is kept, and the rest are counted, up to 255
(R168). -/
def enterFault (f : PortFault) (addr : Byte) (s : State) : State :=
  { s with port :=
      if s.port.faultCode = .none then { s.port with faultCode := f, faultAddr := addr }
      else { s.port with faultCount :=
              if s.port.faultCount = 255#8 then 255#8 else s.port.faultCount + 1#8 } }

/-- The part is held reset, by the power-on reset or by RESET# (R170). -/
def inReset (s : State) : Bool := s.engine.por || s.engine.pin

/-- The port takes host accesses: not while the part is held reset (R170), and not while an access is
held (R163). -/
def takesAccess (s : State) : Bool := !inReset s && !rdyLow s

/-- A host access with the effect `f`: nothing happens when the port takes no access (R161, R163,
R170). -/
def hostAccess (f : State → State) (s : State) : State := if takesAccess s then f s else s

/-- The byte a read answers with, driven on the data lines (R161). -/
def answer (b : Byte) (s : State) : State := { s with readData := some b }

/-- The outcome of a command in CMD_RESULT (R167). -/
def setResult (r : CmdResult) (s : State) : State := { s with port := { s.port with cmdResult := r } }

/-- Byte `i` of a little-endian register (R174). -/
def byteOf {w : Nat} (v : BitVec w) (i : Nat) : Byte := v.extractLsb' (8 * i) 8

/-- A little-endian register with byte `i` replaced by `b`. -/
def withByte {w : Nat} (v : BitVec w) (i : Nat) (b : Byte) : BitVec w :=
  (v &&& ~~~((0xFF#8).setWidth w <<< (8 * i))) ||| (b.setWidth w <<< (8 * i))

/-! ## The cell access path -/

/-- The advance of CELL_DATA's last byte under auto-increment (R7). -/
def advanceAddr (c : CellStore) : CellStore :=
  if c.autoInc then { c with addr := c.addr + 1#8 } else c

/-- A cell read carried out: the cell's value goes into the latch, bits 7:0 are the answer, and a read
is open (R8). -/
def doCellRead (n : CellNo) (s : State) : State :=
  let v := (s.cellAt n).value
  answer (byteOf v 0) { s with cell := { s.cell with latch := v, readOpen := true } }

/-- A cell write carried out: staging and the byte written become the value, tag VALID, and CELL_ADDR
advances under auto-increment (R10). -/
def doCellWrite (n : CellNo) (b : Byte) (s : State) : State :=
  let s' := putCell n ⟨b ++ s.cell.staging, .valid⟩ s
  { s' with cell := advanceAddr s'.cell }

/-- A cell access carried out (R8, R10). -/
def doAccess (k : AccessKind) (n : CellNo) (s : State) : State :=
  match k with
  | .read => doCellRead n s
  | .write b => doCellWrite n b s

/-- A cell access that ends as the fault `f`: a read answers 0x00 and closes any open read, a write is
dropped (R16); the fault is entered at 0x14 or 0x17. -/
def faultAccess (k : AccessKind) (f : PortFault) (s : State) : State :=
  match k with
  | .read =>
    enterFault f 0x14#8 (answer 0#8 { s with cell := { s.cell with readOpen := false } })
  | .write _ => enterFault f 0x17#8 s

/-- A cell access becomes held, its wait count 0 (R13). The data lines carry nothing until it ends. -/
def holdAccess (k : AccessKind) (s : State) : State :=
  { s with cell := { s.cell with held := some ⟨k, s.cell.addr, 0⟩ },
           readData := if k = .read then none else s.readData }

/-- A host cell access, taken by the port: NOT_READY in STARTING (R17), CELL_BUSY or held on a marked
cell (R12, R13), carried out otherwise (R8, R10). -/
def cellAccess (k : AccessKind) (s : State) : State :=
  if s.engine.state = .starting then faultAccess k .notReady s
  else if isMarked s.issue.marks s.cell.addr then
    if s.port.waitLimit = 0#8 then faultAccess k .cellBusy s else holdAccess k s
  else doAccess k s.cell.addr s

/-- The held access carried out when the mark on its cell has cleared, as part of the same happening
(R14). -/
def settleHeld (s : State) : State :=
  match s.cell.held with
  | none => s
  | some h =>
    if isMarked s.issue.marks h.cell then s
    else doAccess h.kind h.cell { s with cell := { s.cell with held := none } }

/-! ## Resets -/

/-- Every register at its hard-reset value (R109, R130, R147, R160, R170). Kept: the cells, which the
scrub will clear (R21); what holds the part reset and the cause to come, RESET_CAUSE, which the end of
the reset sets (R173); and the waiting commands. -/
def hardReset (s : State) : State :=
  { State.reset with
    cell := { CellStore.reset with cells := s.cell.cells }
    port := { HostPort.reset with resetCause := s.port.resetCause }
    engine := { s.engine with state := .starting, scrubNext := 0 }
    pending := s.pending }

/-- The end of a hard reset, once nothing holds the part: STARTING, the divider at 0, the scrub at cell
0, and RESET_CAUSE set (R170). -/
def leaveReset (s : State) : State :=
  if inReset s then s
  else { s with
    engine := { s.engine with state := .starting, scrubNext := 0 }
    port := { s.port with divider := 0, tickLength := s.port.timebase.toNat,
                          resetCause := s.engine.holdCause } }

/-- The end of the scrub: every cell value 0 and EMPTY, READY, START_DONE pending (R20, R171). -/
def endScrub (s : State) : State :=
  { s with
    cell := { s.cell with cells := [] }
    engine := { s.engine with state := .ready, scrubNext := 0 }
    event := { s.event with startDone := true } }

/-- The soft reset of one queue: everything but HALT_MASK (R84). -/
def softResetQueue (Q : Queue) : Queue := { Queue.reset with haltMask := Q.haltMask }

/-- An accepted SOFT_RESET (R172): jobs aborted with nothing written (R108), queues and completion queue
emptied (R84, R147), latched sources cleared (R160), the configuration and the cells kept (R22). -/
def softReset (s : State) : State :=
  { s with
    q0 := softResetQueue s.q0
    q1 := softResetQueue s.q1
    issue := { IssueLogic.reset with preferred := s.issue.preferred, guardK := s.issue.guardK }
    cq := { s.cq with ring := [], reserved := 0, timer := .idle, expired := false }
    event := { s.event with startDone := false, paused := false, signal := false, starved := false }
    port := { s.port with resetCause := .soft, cmdResult := .accepted } }

end Sys2Proof.Machine
end

