-- ==== Sys2Proof/Machine/CellAccess.lean ====
section
/-! DEFINITION. The host's accesses of the cell store (01_the_cell_store.md). The rows CELL_ADDR_WRITE,
CELL_DATA_READ, CELL_READ_COMPLETE and CELL_WRITE. -/

namespace Sys2Proof.Machine

/-- A write of CELL_ADDR: the cell is selected, and an open read is closed (R6). -/
def writeCellAddr (b : Byte) (s : State) : State :=
  { s with cell := { s.cell with addr := b, readOpen := false } }

/-- A read of CELL_DATA byte 3: the latch's byte, and an open read is completed (R8). -/
def completeRead (s : State) : State :=
  answer (byteOf s.cell.latch 3)
    (if s.cell.readOpen then { s with cell := advanceAddr { s.cell with readOpen := false } } else s)

/-- CELL_ADDR_WRITE. -/
def execCellAddrWrite (b : Byte) (s : State) : Host.Outcome State Fault Refusal :=
  .next (hostAccess (writeCellAddr b) s)

/-- CELL_DATA_READ. -/
def execCellDataRead (s : State) : Host.Outcome State Fault Refusal :=
  .next (hostAccess (cellAccess .read) s)

/-- CELL_READ_COMPLETE. -/
def execCellReadComplete (s : State) : Host.Outcome State Fault Refusal :=
  .next (hostAccess completeRead s)

/-- CELL_WRITE. -/
def execCellWrite (b : Byte) (s : State) : Host.Outcome State Fault Refusal :=
  .next (hostAccess (cellAccess (.write b)) s)

end Sys2Proof.Machine
end

