-- ==== Sys2Proof/Machine/Issue.lean ====
section
/-! DEFINITION. When a queue head may issue, the arbiter between the heads, the happening of an issue,
and the report of a stall (05_issue_and_execution.md). The row ISSUE. -/

namespace Sys2Proof.Machine

/-! ## Unit capacity (R91) -/

/-- The capacity a job needs is free. -/
def claimFits (il : IssueLogic) : Option Claim → Bool
  | none => true
  | some .tu => il.tu = .free
  | some .su => il.su = .free
  | some .puScalar => il.pu = .idle || il.pu = .oneScalar
  | some .puWhole => il.pu = .idle
  | some .puAndSu => il.pu = .idle && il.su = .free

/-- The occupancy after the capacity is claimed. -/
def claimUnits (il : IssueLogic) : Option Claim → IssueLogic
  | none => il
  | some .tu => { il with tu := .busy }
  | some .su => { il with su := .busy }
  | some .puScalar => { il with pu := if il.pu = .oneScalar then .twoScalar else .oneScalar }
  | some .puWhole => { il with pu := .whole }
  | some .puAndSu => { il with pu := .whole, su := .lent }

/-- The occupancy after a job's capacity is released. -/
def releaseUnits (il : IssueLogic) : Claim → IssueLogic
  | .tu => { il with tu := .free }
  | .su => { il with su := .free }
  | .puScalar => { il with pu := if il.pu = .twoScalar then .oneScalar else .idle }
  | .puWhole => { il with pu := .idle }
  | .puAndSu => { il with pu := .idle, su := .free }

/-! ## Issuability (R88) -/

/-- Some of the cells carry a pending mark. -/
def anyMarked (s : State) (ns : List CellNo) : Bool := ns.any (isMarked s.issue.marks)

/-- A guarded job of queue `q` is in flight (R88, condition 8). -/
def guardedInFlight (s : State) (q : QueueId) : Bool :=
  s.issue.inflight.any fun e => e.queue == q && e.guarded

/-- The queue's head is a holding BOTH fence: well formed, at the head of an ACTIVE queue (R100). -/
def holdsBothFence (Q : Queue) : Bool :=
  Q.state == .active &&
  match headJob Q with
  | none => false
  | some j => isBothFence j.desc

/-- The drain condition of a well-formed FENCE; true for every other head (R88, condition 6). -/
def drained (s : State) (q : QueueId) (d : Desc) : Bool :=
  if isFence d then
    (s.queue q).inflight == 0 && (!flagField d || (s.queue q.other).inflight == 0)
  else true

/-- The head of `q` meets every condition of R88 except condition 2. -/
def meetsAllButSlot (s : State) (q : QueueId) : Bool :=
  let Q := s.queue q
  match headJob Q with
  | none => false
  | some j =>
    let d := j.desc
    Q.state == .active &&
    claimFits s.issue (claimOf d) &&
    !anyMarked s (sourceCells Q d ++ destCells Q d) &&
    (!guardedUnder (fullMask Q.haltMask) d || Q.inflight == 0) &&
    drained s q d &&
    (!holdsBothFence (s.queue q.other) || isBothFence d) &&
    !guardedInFlight s q

/-- The head of `q` is issuable (R88). -/
def issuable (s : State) (q : QueueId) : Bool := meetsAllButSlot s q && slotFree s.cq

/-! ## The arbiter -/

/-- The two heads, with descriptors `d` of queue `q` and `d'` of the other queue, conflict when both
are issuable: over a unit, the last completion slot, a cell, or as BOTH fences (R104). -/
def headsConflict (s : State) (q : QueueId) (d d' : Desc) : Bool :=
  let Q := s.queue q
  let Q' := s.queue q.other
  !claimFits (claimUnits s.issue (claimOf d)) (claimOf d') ||
  slotsUsed s.cq + 1 == Config.cqCapacity ||
  (destCells Q d).any (fun n => (sourceCells Q' d' ++ destCells Q' d').contains n) ||
  (destCells Q' d').any (fun n => (sourceCells Q d ++ destCells Q d).contains n) ||
  isBothFence d || isBothFence d'

/-- Both heads are issuable and conflict (R104). -/
def inConflict (s : State) (q : QueueId) : Bool :=
  issuable s q && issuable s q.other &&
  match headJob (s.queue q), headJob (s.queue q.other) with
  | some j, some j' => headsConflict s q j.desc j'.desc
  | _, _ => false

/-- The arbiter's decision: the winner and the starvation counter afterwards (R105). -/
def arbitrate (il : IssueLogic) : QueueId × Nat :=
  if il.guardK = 0#4 then (il.preferred, 0)
  else if il.starvation < il.guardK.toNat then (il.preferred, il.starvation + 1)
  else (il.preferred.other, 0)

/-! ## The stall report (R145) -/

/-- A head is stalled on the completion queue alone: it meets every condition but condition 2. -/
def stalled (s : State) : Bool :=
  !slotFree s.cq && (meetsAllButSlot s .q0 || meetsAllButSlot s .q1)

/-- The end of a happening that led from `s` to `t`: CQ_STARVED becomes pending when a head is stalled
after it and none was before (R90, R145). -/
def reportStall (s t : State) : State :=
  if stalled t && !stalled s then { t with event := { t.event with starved := true } } else t

/-! ## The issue happening (R94) -/

/-- The issue-time check that stops the job, in the order BAD_JOB, EMPTY_SOURCE, POISON_IN (R36, R65),
with the captured mask `m`. -/
def issueCheck (s : State) (Q : Queue) (d : Desc) (m : CondSet) : Option CondSet :=
  let tags := (inspectedCells Q d).map fun n => (s.cellAt n).tag
  if malformed d then some badJobBit
  else if tags.contains .empty then some emptySourceBit
  else if tags.contains .poison && m &&& poisonInBit != 0#7 then some poisonInBit
  else none

/-- POISON_IN is raised at issue: an inspected element is POISON (R34). -/
def poisonFound (s : State) (Q : Queue) (d : Desc) : Bool :=
  ((inspectedCells Q d).map fun n => (s.cellAt n).tag).contains .poison

/-- The in-flight entry of a job of queue `q` issued under the captured mask `m`, its sources captured
as they stand, before any mark is set (R95, R96). -/
def captureEntry (s : State) (q : QueueId) (j : Job) (m : CondSet) (c : Claim) : InFlight :=
  let Q := s.queue q
  { queue := q, job := j, mask := m, guarded := guardedUnder m j.desc,
    poisonIn := poisonFound s Q j.desc, dests := destCells Q j.desc,
    srcA := (aCells Q j.desc).map s.cellAt, srcB := (bCells Q j.desc).map s.cellAt,
    srcD := (dCells Q j.desc).map s.cellAt, claim := c }

/-- The start of a job in a unit: marks set, capacity claimed, the entry made, the queue's in-flight
count one higher (R96). -/
def startJob (e : InFlight) (s : State) : State :=
  let il := claimUnits s.issue (some e.claim)
  let Q := s.queue e.queue
  { s with issue := { il with marks := setMarks e.dests s.issue.marks,
                              inflight := s.issue.inflight ++ [e] } }.setQueue e.queue
    { Q with inflight := Q.inflight + 1 }

/-- An issue-time halt with the condition `c`: the job goes into the held-job slot, and the queue to
HALTED when it has nothing in flight, else to DRAINING (R78, R97, R113). -/
def haltAtIssue (q : QueueId) (j : Job) (c : CondSet) (s : State) : State :=
  let h : HeldJob := { job := j, conds := c, atIssue := true }
  if (s.queue q).inflight = 0 then haltQueue q h s
  else s.setQueue q { s.queue q with state := .draining h }

/-- A SETFRAME's effect: the pointer FLAG selects takes immediate bits 4:0 (R48, R98). -/
def setFrame (q : QueueId) (d : Desc) (s : State) : State :=
  let v := (immField d).setWidth 5
  let Q := s.queue q
  s.setQueue q (if flagField d then { Q with frameB := v } else { Q with frameA := v })

/-- A FENCE's effect: SIGNAL becomes pending when its SIGNAL field is 1 (R49, R99). -/
def signalFence (d : Desc) (s : State) : State :=
  { s with event := { s.event with signal := s.event.signal || signalField d } }

/-- The issue of the head `j` of queue `q`: a slot reserved, the mask captured, the checks made, and
then a halt, a control job completed, or a start in a unit (R94). -/
def issueJob (q : QueueId) (j : Job) (s : State) : State :=
  let d := j.desc
  let m := fullMask (s.queue q).haltMask
  let s' := { s with cq := takeSlot s.cq }.setQueue q (dropHead (s.queue q))
  match issueCheck s (s.queue q) d m with
  | some c => haltAtIssue q j c s'
  | none =>
    match claimOf d with
    | some c => startJob (captureEntry s q j m c) s'
    | none =>
      let t := if isFence d then signalFence d s' else setFrame q d s'
      endReservation q j 0#7 none t

/-- The head of queue `q`, if any, issues (R94). -/
def issueHead (q : QueueId) (s : State) : State :=
  match headJob (s.queue q) with
  | none => s
  | some j => issueJob q j s

/-- The issue logic examines the head of `q`. A head that is not issuable stays where it is (R90). An
issuable head issues, unless it conflicts with the other head: then the arbiter's winner issues
(R104, R105). -/
def examineHead (q : QueueId) (s : State) : State :=
  if inConflict s q then
    let w := arbitrate s.issue
    issueHead w.1 { s with issue := { s.issue with starvation := w.2 } }
  else if issuable s q then issueHead q s
  else s

/-- ISSUE. -/
def execIssue (q : QueueId) (s : State) : Host.Outcome State Fault Refusal :=
  .next (reportStall s (examineHead q s))

end Sys2Proof.Machine
end

