-- ==== Sys2Proof/Machine/Commands.lean ====
section
/-! DEFINITION. The commands written to CMD (R166): RESUME and its forms, PAUSE, FLUSH, CLEAR_STICKY,
CELL_EMPTY, CELL_POISON, SOFT_RESET, and unknown codes. Each row is the host's write of CMD; the
argument is what CMD_ARG holds then, so the five RESUME rows are one write and the state of CMD_ARG
tells them apart (DEDUCED, notes/assumptions/7.md). -/

namespace Sys2Proof.Machine

/-- Queue `q` in the state `st`. -/
def setQState (q : QueueId) (st : QState) (s : State) : State :=
  s.setQueue q { s.queue q with state := st }

/-- RETRY of the held job `h`: it moves to the retry position, and the queue is ACTIVE (R121, R122). -/
def retryHeld (q : QueueId) (h : HeldJob) (s : State) : State :=
  setResult .accepted (s.setQueue q { s.queue q with retry := some h.job, state := .active })

/-- SKIP of the held job `h` (R124). -/
def skipHeld (q : QueueId) (h : HeldJob) (s : State) : State :=
  if slotFree s.cq then
    setResult .accepted
      (setQState q .active { s with cq := postRecord (heldRecord .skipped q h none) s.cq })
  else setResult .refusedBusy s

/-- The destination cell of the held job, through the queue's frame pointers as they stand (R125). -/
def heldDest (Q : Queue) (h : HeldJob) : CellNo := resolve Q (dstField h.job.desc)

/-- SUBSTITUTE for the held job `h` (R125, R126). -/
def substituteHeld (q : QueueId) (h : HeldJob) (s : State) : State :=
  let n := heldDest (s.queue q) h
  if !substitutable h then setResult .refusedArg s
  else if !slotFree s.cq || isMarked s.issue.marks n then setResult .refusedBusy s
  else
    let r := heldRecord .substituted q h (some s.substitute)
    setResult .accepted
      (setQState q .active { putCell n ⟨s.substitute, .valid⟩ s with cq := postRecord r s.cq })

/-- RESUME of queue `q` with the argument in CMD_ARG (R75, R119). -/
def resumeCommand (q : QueueId) (s : State) : State :=
  let arg := s.port.cmdArg.toNat
  if 4 ≤ arg then setResult .refusedArg s
  else match (s.queue q).state with
    | .paused =>
      if arg = 0 then setResult .accepted (setQState q .active s) else setResult .refusedArg s
    | .active | .pausing | .draining _ => setResult .refusedState s
    | .halted h =>
      if arg = 1 then retryHeld q h s
      else if arg = 2 then skipHeld q h s
      else if arg = 3 then substituteHeld q h s
      else setResult .refusedArg s

/-- PAUSE of queue `q` (R74). -/
def pauseCommand (q : QueueId) (s : State) : State :=
  match (s.queue q).state with
  | .active =>
    if (s.queue q).inflight = 0 then
      setResult .accepted (setQState q .paused { s with event := { s.event with paused := true } })
    else setResult .accepted (setQState q .pausing s)
  | .paused | .pausing | .draining _ => setResult .accepted s
  | .halted _ => setResult .refusedState s

/-- The jobs a FLUSH discards: the ring, and the job in the retry position or the held-job slot (R76). -/
def flushable (Q : Queue) : Nat :=
  Q.ring.length + (if Q.retry.isSome then 1 else 0) + (if (heldJob Q).isSome then 1 else 0)

/-- FLUSH of queue `q` (R76). -/
def flushCommand (q : QueueId) (s : State) : State :=
  match (s.queue q).state with
  | .paused | .halted _ =>
    setResult .accepted (s.setQueue q
      { s.queue q with ring := [], retry := none, state := .paused,
                       flushCount := flushable (s.queue q) })
  | .active | .pausing | .draining _ => setResult .refusedState s

/-- CLEAR_STICKY of queue `q` (R77). -/
def clearStickyCommand (q : QueueId) (s : State) : State :=
  setResult .accepted (s.setQueue q { s.queue q with sticky := 0#5 })

/-- CELL_EMPTY or CELL_POISON of the cell in CMD_ARG, as the tag `t` says (R18). -/
def cellCommand (t : Tag) (s : State) : State :=
  if isMarked s.issue.marks s.port.cmdArg then setResult .refusedBusy s
  else setResult .accepted (putCell s.port.cmdArg ⟨0#32, t⟩ s)

/-- A known command, handed to its owner (R166, step 3). -/
def ownerCommand (code : BitVec 4) (q : QueueId) (s : State) : State :=
  if code = 0x1#4 then reportStall s (resumeCommand q s)
  else if code = 0x2#4 then reportStall s (pauseCommand q s)
  else if code = 0x3#4 then flushCommand q s
  else if code = 0x4#4 then clearStickyCommand q s
  else if code = 0x8#4 then cellCommand .empty s
  else if code = 0x9#4 then cellCommand .poison s
  else softReset s

/-- A write of CMD with the command code and queue it carries (R166): an unknown code first, then a
starting engine, then the owner. -/
def takeCommand (code : BitVec 4) (q : QueueId) (s : State) : State :=
  if !knownCodes.contains code then setResult .unknownCommand s
  else if s.engine.state = .starting then setResult .refusedStarting s
  else ownerCommand code q s

/-- A write of the byte `b` to CMD; bits 3:1 are ignored (R166). -/
def writeCmd (b : Byte) (s : State) : State := takeCommand (cmdCode b) (cmdQueue b) s

/-- RESUME_PLAIN: RESUME written to CMD; CMD_ARG holds 0. -/
def execResumePlain (q : QueueId) (s : State) : Host.Outcome State Fault Refusal :=
  .next (hostAccess (takeCommand 0x1#4 q) s)

/-- RESUME_RETRY: RESUME written to CMD; CMD_ARG holds 1. -/
def execResumeRetry (q : QueueId) (s : State) : Host.Outcome State Fault Refusal :=
  .next (hostAccess (takeCommand 0x1#4 q) s)

/-- RESUME_SKIP: RESUME written to CMD; CMD_ARG holds 2. -/
def execResumeSkip (q : QueueId) (s : State) : Host.Outcome State Fault Refusal :=
  .next (hostAccess (takeCommand 0x1#4 q) s)

/-- RESUME_SUBSTITUTE: RESUME written to CMD; CMD_ARG holds 3. -/
def execResumeSubstitute (q : QueueId) (s : State) : Host.Outcome State Fault Refusal :=
  .next (hostAccess (takeCommand 0x1#4 q) s)

/-- RESUME_OTHER_ARGUMENT: RESUME written to CMD; CMD_ARG holds 4 to 255. -/
def execResumeOtherArgument (q : QueueId) (s : State) : Host.Outcome State Fault Refusal :=
  .next (hostAccess (takeCommand 0x1#4 q) s)

/-- PAUSE. -/
def execPause (q : QueueId) (s : State) : Host.Outcome State Fault Refusal :=
  .next (hostAccess (takeCommand 0x2#4 q) s)

/-- FLUSH. -/
def execFlush (q : QueueId) (s : State) : Host.Outcome State Fault Refusal :=
  .next (hostAccess (takeCommand 0x3#4 q) s)

/-- CLEAR_STICKY. -/
def execClearSticky (q : QueueId) (s : State) : Host.Outcome State Fault Refusal :=
  .next (hostAccess (takeCommand 0x4#4 q) s)

/-- CELL_EMPTY. The queue bit is ignored. -/
def execCellEmpty (s : State) : Host.Outcome State Fault Refusal :=
  .next (hostAccess (takeCommand 0x8#4 .q0) s)

/-- CELL_POISON. The queue bit is ignored. -/
def execCellPoison (s : State) : Host.Outcome State Fault Refusal :=
  .next (hostAccess (takeCommand 0x9#4 .q0) s)

/-- SOFT_RESET. The queue bit is ignored. -/
def execSoftReset (s : State) : Host.Outcome State Fault Refusal :=
  .next (hostAccess (takeCommand 0xF#4 .q0) s)

/-- UNKNOWN_COMMAND: a byte written to CMD. -/
def execUnknownCommand (b : Byte) (s : State) : Host.Outcome State Fault Refusal :=
  .next (hostAccess (writeCmd b) s)

end Sys2Proof.Machine
end

