-- ==== Sys2Proof/Machine/Completion.lean ====
section
/-! DEFINITION. The completion of a job in its unit: writing or execution halt, and what ends with the
queue's last job in flight (05_issue_and_execution.md, 06_halts_and_recovery.md). The row
JOB_COMPLETION. -/

namespace Sys2Proof.Machine

/-- A job leaves flight, entry `n` of the in-flight list: marks cleared, capacity released, the entry
removed, its queue's in-flight count one lower (R86, R91, R72). -/
def retireJob (n : Nat) (e : InFlight) (s : State) : State :=
  let il := releaseUnits s.issue e.claim
  let Q := s.queue e.queue
  { s with issue := { il with marks := clearMarks e.dests s.issue.marks,
                              inflight := s.issue.inflight.eraseIdx n } }.setQueue e.queue
    { Q with inflight := Q.inflight - 1 }

/-- The sticky flags that a writing completion sets (R112). -/
def setSticky (q : QueueId) (c : CondSet) (s : State) : State :=
  s.setQueue q { s.queue q with sticky := (s.queue q).sticky ||| stickyBits c }

/-- What a writing completion that brings the in-flight count to 0 ends: PAUSING becomes PAUSED and
raises PAUSED (R75); DRAINING becomes HALTED, posting the held job's record (R78, R114). -/
def settleQueue (q : QueueId) (s : State) : State :=
  if (s.queue q).inflight = 0 then
    match (s.queue q).state with
    | .pausing =>
      { s with event := { s.event with paused := true } }.setQueue q
        { s.queue q with state := .paused }
    | .draining h => haltQueue q h s
    | .paused | .active | .halted _ => s
  else s

/-- The completion of a job that writes, in the order of R102. -/
def completeWriting (n : Nat) (e : InFlight) (s : State) : State :=
  let rs := jobResults e
  let c := jobConds e
  let s := settleHeld (retireJob n e (putResults e.dests rs s))
  let s := endReservation e.queue e.job c (echoOf rs) s
  settleQueue e.queue (setSticky e.queue c s)

/-- An execution halt: nothing is written, and the job returns to the held-job slot (R101, R115). -/
def completeHalting (n : Nat) (e : InFlight) (s : State) : State :=
  haltQueue e.queue { job := e.job, conds := jobConds e, atIssue := false }
    (settleHeld (retireJob n e s))

/-- The job at place `n` of the in-flight list, oldest issue first, completes: it halts or writes
(R101). With no job at that place nothing completes. -/
def completeJob (n : Nat) (s : State) : State :=
  match s.issue.inflight[n]? with
  | none => s
  | some e => if haltsAtCompletion e then completeHalting n e s else completeWriting n e s

/-- JOB_COMPLETION. -/
def execJobCompletion (n : Fin 4) (s : State) : Host.Outcome State Fault Refusal :=
  .next (reportStall s (completeJob n.val s))

end Sys2Proof.Machine
end

