-- ==== Sys2Proof/Machine/Resets.lean ====
section
/-! DEFINITION. The hard resets and the end of the scrub (09_host_port_commands_and_engine_state.md). The
rows POWER_ON, RESET_ASSERT, RESET_RELEASE and SCRUB_END. -/

namespace Sys2Proof.Machine

/-- POWER_ON: the internal power-on reset holds the part, and its end will set POWER_ON as the cause
(R170). -/
def execPowerOn (s : State) : Host.Outcome State Fault Refusal :=
  let t := hardReset s
  .next { t with engine := { t.engine with por := true, holdCause := .powerOn } }

/-- RESET_ASSERT: RESET# goes low. The cause to come is PIN, but a RESET# asserted while the power-on
reset still lasts keeps POWER_ON (R170). With RESET# low already there is no new assertion. -/
def execResetAssert (s : State) : Host.Outcome State Fault Refusal :=
  let t := hardReset s
  .next (if s.engine.pin then s
    else { t with engine := { t.engine with
            pin := true, holdCause := if inReset s then s.engine.holdCause else .pin } })

/-- RESET_RELEASE: RESET# is released, or the power-on reset ends. The part leaves the reset when nothing
holds it any more (R170). A release of what does not hold the part is no release. -/
def execResetRelease (src : ResetSource) (s : State) : Host.Outcome State Fault Refusal :=
  .next (match src with
    | .powerOn =>
      if s.engine.por then leaveReset { s with engine := { s.engine with por := false } } else s
    | .pin =>
      if s.engine.pin then leaveReset { s with engine := { s.engine with pin := false } } else s)

/-- The scrub is running: STARTING, and nothing holds the part reset (R20). -/
def scrubRuns (s : State) : Bool := s.engine.state == .starting && !inReset s

/-- SCRUB_END: the scrub writes its last cell (R20, R171). With no scrub running there is no end. -/
def execScrubEnd (s : State) : Host.Outcome State Fault Refusal :=
  .next (if scrubRuns s then endScrub s else s)

end Sys2Proof.Machine
end

