-- ==== Sys2Proof/Machine/Time.lean ====
section
/-! DEFINITION. Ticks and clock periods: the wait count, the coalescing timer, the tick divider and the
scrub's progress (R13, R15, R20, R142, R165). The rows TICK_BOUNDARY, WAIT_TIMEOUT and
COALESCING_TIMER_EXPIRY. -/

namespace Sys2Proof.Machine

/-- The next tick boundary brings the wait count of the held access to WAIT_LIMIT while its cell is
still marked (R15). -/
def waitReached (s : State) : Bool :=
  match s.cell.held with
  | none => false
  | some h => isMarked s.issue.marks h.cell && decide (s.port.waitLimit.toNat ≤ h.count + 1)

/-- The next tick boundary brings the running coalescing timer to its loaded length (R142). -/
def timerReached (c : CompletionQueue) : Bool :=
  match c.timer with
  | .idle => false
  | .running n l => decide (l ≤ n + 1)

/-- The wait count at a tick boundary: one higher (R13), and when it reaches WAIT_LIMIT the access ends
as WAIT_TIMEOUT in this same happening (R15, R168). -/
def advanceWait (s : State) : State :=
  match s.cell.held with
  | none => s
  | some h =>
    if waitReached s then
      faultAccess h.kind .waitTimeout { s with cell := { s.cell with held := none } }
    else { s with cell := { s.cell with held := some { h with count := h.count + 1 } } }

/-- The coalescing timer at a tick boundary: its count one higher, and when that reaches the loaded
length the timer expires in this same happening (R142). -/
def advanceTimer (c : CompletionQueue) : CompletionQueue :=
  match c.timer with
  | .idle => c
  | .running n l =>
    if timerReached c then { c with timer := .idle, expired := true }
    else { c with timer := .running (n + 1) l }

/-- A tick boundary: the divider's count returns to 0, the next tick takes TIMEBASE as its length, and
the timers rise (R165). No tick passes while the part is held reset. -/
def passTick (s : State) : State :=
  if inReset s then s
  else
    let s := { s with port := { s.port with divider := 0, tickLength := s.port.timebase.toNat } }
    advanceWait { s with cq := advanceTimer s.cq }

/-- One clock period, which has no row of its own: the scrub writes one cell (R20), and the divider
counts, passing a tick boundary when it reaches the tick's length (R165). -/
def clockPeriod (s : State) : State :=
  if inReset s then s
  else
    let s :=
      if scrubRuns s then
        if Config.cellCount ≤ s.engine.scrubNext + 1 then endScrub s
        else { s with
          cell := { s.cell with cells := writeCells s.cell.cells s.engine.scrubNext emptyCell }
          engine := { s.engine with scrubNext := s.engine.scrubNext + 1 } }
      else s
    if s.port.tickLength ≤ s.port.divider + 1 then passTick s
    else { s with port := { s.port with divider := s.port.divider + 1 } }

/-- TICK_BOUNDARY. -/
def execTickBoundary (s : State) : Host.Outcome State Fault Refusal := .next (passTick s)

/-- WAIT_TIMEOUT: the tick boundary at which the wait count reaches WAIT_LIMIT (R15, R168). Where the
next boundary does not bring the count there, no timeout happens. -/
def execWaitTimeout (s : State) : Host.Outcome State Fault Refusal :=
  .next (if waitReached s then passTick s else s)

/-- COALESCING_TIMER_EXPIRY: the tick boundary at which the timer reaches its loaded length (R142). Where
the next boundary does not bring it there, no expiry happens. -/
def execCoalescingTimerExpiry (s : State) : Host.Outcome State Fault Refusal :=
  .next (if timerReached s.cq then passTick s else s)

end Sys2Proof.Machine
end

