-- ==== Sys2Proof/Machine/Registers.lean ====
section
/-! DEFINITION. The register window: commits, halt masks, the arbiter's, completion queue's, event unit's
and port's registers, the write of any address, and what a read of any address returns. The rows COMMIT,
HALT_MASK_WRITE, ARB_CTRL_WRITE, CQ_HEAD_READ, CQ_POP, CQ_THRESHOLD_WRITE, EVENT_CODE_READ, EVT_ACK,
FAULT_CLEAR and REGISTER_WRITE. -/

namespace Sys2Proof.Machine

/-! ## Writes with a row of their own -/

/-- The fault address of a commit: 0x2F for Q0 and 0x3F for Q1 (R69). -/
def commitAddr : QueueId → Byte
  | .q0 => 0x2F#8
  | .q1 => 0x3F#8

/-- A commit to queue `q`: the staged descriptor joins the ring's tail with the next sequence number
(R68), or is dropped with NOT_READY or QUEUE_FULL (R69). -/
def commitJob (q : QueueId) (s : State) : State :=
  let Q := s.queue q
  if s.engine.state = .starting then enterFault .notReady (commitAddr q) s
  else if Config.ringCapacity ≤ Q.ring.length then enterFault .queueFull (commitAddr q) s
  else reportStall s (s.setQueue q
    { Q with ring := Q.ring ++ [⟨s.jobStage, Q.nextSeq⟩], nextSeq := Q.nextSeq + 1#8 })

/-- A write of HALT_MASK: bits 4:0 are stored (R83). -/
def writeHaltMask (q : QueueId) (b : Byte) (s : State) : State :=
  reportStall s (s.setQueue q { s.queue q with haltMask := b.setWidth 5 })

/-- A write of ARB_CTRL: bits 7 and 3:0 are stored, and the starvation counter returns to 0 (R106). -/
def writeArbCtrl (b : Byte) (s : State) : State :=
  { s with issue := { s.issue with
      preferred := .ofBit (b.getLsbD 7), guardK := b.setWidth 4, starvation := 0 } }

/-- A write of CQ_THRESHOLD: 0 stores 1, and a value above 32 stores 32 (R141). -/
def writeThreshold (b : Byte) (s : State) : State :=
  { s with cq := { s.cq with
      threshold := if b = 0#8 then 1#8 else if 32 < b.toNat then 32#8 else b } }

/-- The completion queue after a pop of its head: with the ring empty the timer stops and the expiry
flag is cleared (R139, R143). -/
def popRecord (c : CompletionQueue) : CompletionQueue :=
  match c.ring with
  | [] => c
  | [_] => { c with ring := [], timer := .idle, expired := false }
  | _ :: rs => { c with ring := rs }

/-- A write of CQ_POP: a pop, or the fault CQ_EMPTY_POP with the ring empty (R139). -/
def writeCqPop (s : State) : State :=
  match s.cq.ring with
  | [] => enterFault .cqEmptyPop 0x4C#8 s
  | _ :: _ => reportStall s { s with cq := popRecord s.cq }

/-- A write of EVT_ACK: 0 to 7 names a source, which is cleared when latched (R159). -/
def writeEvtAck (b : Byte) (s : State) : State :=
  { s with event := clearSource b.toNat s.event }

/-- A write of FAULT_CLEAR: the port fault record returns to 0 (R169). -/
def clearFault (s : State) : State :=
  { s with port := { s.port with faultCode := .none, faultAddr := 0#8, faultCount := 0#8 } }

/-! ## Reads that change something -/

/-- The code of a status (R179). -/
def statusByte : Status → Byte
  | .done => 1#8
  | .halted => 2#8
  | .skipped => 3#8
  | .substituted => 4#8

/-- The byte 0 of a record (R179): status, queue, echo valid, halted at issue. -/
def recordByte0 (r : Record) : Byte :=
  statusByte r.status |||
  (if r.queue.bit then 0x08#8 else 0#8) ||| (if r.echoValid then 0x10#8 else 0#8) |||
  (if r.haltedAtIssue then 0x20#8 else 0#8)

/-- The eight bytes of a record, byte 0 in bits 7:0 (R179). -/
def recordBytes (r : Record) : BitVec 64 :=
  r.echo ++ ((0#1 ++ r.conds : BitVec 8) ++ r.hostTag ++ r.seq ++ recordByte0 r : BitVec 32)

/-- The eight bytes a read of CQ_HEAD byte 0 latches: the head record, or zeros (R138). -/
def headBytes (c : CompletionQueue) : BitVec 64 :=
  match c.ring with
  | [] => 0#64
  | r :: _ => recordBytes r

/-- A read of CQ_HEAD byte 0 (R138). -/
def readCqHead (s : State) : State :=
  answer (byteOf (headBytes s.cq) 0) { s with cq := { s.cq with headLatch := headBytes s.cq } }

/-- The event unit after a read of EVENT_CODE that returned the source `best`, if any (R158). -/
def eventAfterRead (best : Option Nat) (e : EventUnit) : EventUnit :=
  match best with
  | none => e
  | some n => clearSource n e

/-- A read of EVENT_CODE: the top source is returned, and cleared when it is latched (R157, R158). -/
def readEventCode (s : State) : State :=
  answer (eventCode s) { s with event := eventAfterRead (topSource s) s.event }

/-! ## The write of any address (R162) -/

/-- A value brought into 1 to 64 for TIMEBASE (R165). -/
def clampTimebase (b : Byte) : Byte := if b = 0#8 then 1#8 else if 64 < b.toNat then 64#8 else b

/-- A write of a register that has no row of its own: it is stored by its owner, or ignored (R162, R176). -/
def writePlain (a : WindowAddr) (b : Byte) (s : State) : State :=
  let n := a.toNat
  if n = 0x05 then { s with port := { s.port with cmdArg := b } }
  else if 0x08 ≤ n ∧ n ≤ 0x0B then { s with substitute := withByte s.substitute (n - 0x08) b }
  else if n = 0x0C then { s with port := { s.port with timebase := clampTimebase b } }
  else if n = 0x0D then { s with port := { s.port with waitLimit := b } }
  else if n = 0x11 then { s with cell := { s.cell with autoInc := b.getLsbD 0 } }
  else if 0x14 ≤ n ∧ n ≤ 0x16 then
    { s with cell := { s.cell with staging := withByte s.cell.staging (n - 0x14) b } }
  else if 0x18 ≤ n ∧ n ≤ 0x1F then { s with jobStage := withByte s.jobStage (n - 0x18) b }
  else if n = 0x4B then { s with cq := { s.cq with coalesceTime := b } }
  else if n = 0x51 then { s with event := { s.event with enable := b } }
  else if n = 0x52 then { s with event := { s.event with level0 := b } }
  else if n = 0x53 then { s with event := { s.event with level1 := b } }
  else if n = 0x56 then { s with event := { s.event with global := b.getLsbD 0 } }
  else s

/-- A host write of `b` to the window address `a` (R162): the addresses whose write has a row of its own
act as that row does. -/
def writeWindow (a : WindowAddr) (b : Byte) (s : State) : State :=
  let n := a.toNat
  if n = 0x04 then writeCmd b s
  else if n = 0x0E then writeArbCtrl b s
  else if n = 0x10 then writeCellAddr b s
  else if n = 0x17 then cellAccess (.write b) s
  else if n = 0x24 then writeHaltMask .q0 b s
  else if n = 0x34 then writeHaltMask .q1 b s
  else if n = 0x2F then commitJob .q0 s
  else if n = 0x3F then commitJob .q1 s
  else if n = 0x4A then writeThreshold b s
  else if n = 0x4C then writeCqPop s
  else if n = 0x55 then writeEvtAck b s
  else if n = 0x5B then clearFault s
  else writePlain a b s

/-! ## The read of any address (R162, R174) -/

/-- The code of CMD_RESULT (R167). -/
def cmdResultByte : CmdResult → Byte
  | .accepted => 0#8
  | .refusedState => 1#8
  | .refusedArg => 2#8
  | .refusedBusy => 3#8
  | .refusedStarting => 4#8
  | .unknownCommand => 5#8

/-- The code of RESET_CAUSE (R173). -/
def resetCauseByte : ResetCause → Byte
  | .powerOn => 1#8
  | .pin => 2#8
  | .soft => 3#8

/-- The code of ENGINE_STATE (R171). -/
def engineByte : EngineState → Byte
  | .starting => 0#8
  | .ready => 1#8

/-- The code of STATE (R82). -/
def qstateByte : QState → Byte
  | .paused => 0#8
  | .active => 1#8
  | .pausing => 2#8
  | .draining _ => 3#8
  | .halted _ => 4#8

/-- The code of a tag in CELL_TAG (R11). -/
def tagByte : Tag → Byte
  | .empty => 0#8
  | .valid => 1#8
  | .poison => 2#8

/-- CELL_TAG: the selected cell's tag and mark; 0x00 in STARTING (R11). -/
def readCellTag (s : State) : Byte :=
  if s.engine.state = .starting then 0#8
  else tagByte (s.cellAt s.cell.addr).tag |||
    (if isMarked s.issue.marks s.cell.addr then 0x80#8 else 0#8)

/-- The byte that a read of CELL_DATA byte 0 returns when it is not held: the cell's bits 7:0, or 0x00
when it faults (R8, R16). -/
def readCellByte0 (s : State) : Byte :=
  if s.engine.state = .starting || isMarked s.issue.marks s.cell.addr then 0#8
  else byteOf (s.cellAt s.cell.addr).value 0

/-- ARB_CTRL as it reads (R106). -/
def readArbCtrl (il : IssueLogic) : Byte :=
  (if il.preferred.bit then 0x80#8 else 0#8) ||| il.guardK.setWidth 8

/-- HALT_MASK as it reads: bits 6 and 5 are 1 (R83). -/
def readHaltMask (Q : Queue) : Byte := (fullMask Q.haltMask).setWidth 8

/-- The register at offset `k` (0x0 to 0xB) of a queue's block (R82). -/
def readQueueBlock (Q : Queue) (k : Nat) : Byte :=
  if k = 0x0 then qstateByte Q.state
  else if k = 0x1 then BitVec.ofNat 8 Q.ring.length
  else if k = 0x2 then BitVec.ofNat 8 Q.inflight
  else if k = 0x3 then Q.nextSeq
  else if k = 0x4 then readHaltMask Q
  else if k = 0x5 then Q.sticky.setWidth 8
  else if k = 0x6 then Q.haltCond.setWidth 8
  else if k = 0x7 then Q.haltTag
  else if k = 0x8 then Q.haltSeq
  else if k = 0x9 then Q.frameA.setWidth 8
  else if k = 0xA then Q.frameB.setWidth 8
  else if k = 0xB then BitVec.ofNat 8 Q.flushCount
  else 0#8

/-- The byte a host read of the window address `a` returns as the state stands (R162, R174). The reads
that change something are rows of their own and answer with this byte. -/
def readWindow (s : State) (a : WindowAddr) : Byte :=
  let n := a.toNat
  if n = 0x00 then Config.partId
  else if n = 0x01 then Config.revision
  else if n = 0x02 then engineByte s.engine.state
  else if n = 0x03 then resetCauseByte s.port.resetCause
  else if n = 0x05 then s.port.cmdArg
  else if n = 0x06 then cmdResultByte s.port.cmdResult
  else if 0x08 ≤ n ∧ n ≤ 0x0B then byteOf s.substitute (n - 0x08)
  else if n = 0x0C then s.port.timebase
  else if n = 0x0D then s.port.waitLimit
  else if n = 0x0E then readArbCtrl s.issue
  else if n = 0x10 then s.cell.addr
  else if n = 0x11 then (if s.cell.autoInc then 1#8 else 0#8)
  else if n = 0x12 then readCellTag s
  else if n = 0x14 then readCellByte0 s
  else if 0x15 ≤ n ∧ n ≤ 0x17 then byteOf s.cell.latch (n - 0x14)
  else if 0x18 ≤ n ∧ n ≤ 0x1F then byteOf s.jobStage (n - 0x18)
  else if 0x20 ≤ n ∧ n ≤ 0x2B then readQueueBlock s.q0 (n - 0x20)
  else if 0x30 ≤ n ∧ n ≤ 0x3B then readQueueBlock s.q1 (n - 0x30)
  else if n = 0x40 then byteOf (headBytes s.cq) 0
  else if 0x41 ≤ n ∧ n ≤ 0x47 then byteOf s.cq.headLatch (n - 0x40)
  else if n = 0x48 then BitVec.ofNat 8 s.cq.ring.length
  else if n = 0x49 then BitVec.ofNat 8 s.cq.reserved
  else if n = 0x4A then s.cq.threshold
  else if n = 0x4B then s.cq.coalesceTime
  else if n = 0x50 then evtPending s
  else if n = 0x51 then s.event.enable
  else if n = 0x52 then s.event.level0
  else if n = 0x53 then s.event.level1
  else if n = 0x54 then eventCode s
  else if n = 0x56 then (if s.event.global then 1#8 else 0#8)
  else if n = 0x58 then faultCodeByte s.port.faultCode
  else if n = 0x59 then s.port.faultAddr
  else if n = 0x5A then s.port.faultCount
  else 0#8

/-! ## The rows -/

/-- COMMIT. The byte written does not matter. -/
def execCommit (q : QueueId) (_b : Byte) (s : State) : Host.Outcome State Fault Refusal :=
  .next (hostAccess (commitJob q) s)

/-- HALT_MASK_WRITE. -/
def execHaltMaskWrite (q : QueueId) (b : Byte) (s : State) : Host.Outcome State Fault Refusal :=
  .next (hostAccess (writeHaltMask q b) s)

/-- ARB_CTRL_WRITE. -/
def execArbCtrlWrite (b : Byte) (s : State) : Host.Outcome State Fault Refusal :=
  .next (hostAccess (writeArbCtrl b) s)

/-- CQ_HEAD_READ. -/
def execCqHeadRead (s : State) : Host.Outcome State Fault Refusal :=
  .next (hostAccess readCqHead s)

/-- CQ_POP. The byte written does not matter. -/
def execCqPop (_b : Byte) (s : State) : Host.Outcome State Fault Refusal :=
  .next (hostAccess writeCqPop s)

/-- CQ_THRESHOLD_WRITE. -/
def execCqThresholdWrite (b : Byte) (s : State) : Host.Outcome State Fault Refusal :=
  .next (hostAccess (writeThreshold b) s)

/-- EVENT_CODE_READ. -/
def execEventCodeRead (s : State) : Host.Outcome State Fault Refusal :=
  .next (hostAccess readEventCode s)

/-- EVT_ACK. -/
def execEvtAck (b : Byte) (s : State) : Host.Outcome State Fault Refusal :=
  .next (hostAccess (writeEvtAck b) s)

/-- FAULT_CLEAR. The byte written does not matter. -/
def execFaultClear (_b : Byte) (s : State) : Host.Outcome State Fault Refusal :=
  .next (hostAccess clearFault s)

/-- REGISTER_WRITE. -/
def execRegisterWrite (a : WindowAddr) (b : Byte) (s : State) : Host.Outcome State Fault Refusal :=
  .next (hostAccess (writeWindow a b) s)

end Sys2Proof.Machine
end

