-- ==== Sys2Proof/Machine/Dispatch.lean ====
section
/-! DEFINITION. The dispatch: one arm per command. -/

namespace Sys2Proof.Machine

def exec (i : Instr) (s : State) : Host.Outcome State Fault Refusal :=
  match i with
  | .powerOn => Sys2Proof.Machine.execPowerOn s
  | .resetAssert => Sys2Proof.Machine.execResetAssert s
  | .resetRelease src => Sys2Proof.Machine.execResetRelease src s
  | .scrubEnd => Sys2Proof.Machine.execScrubEnd s
  | .tickBoundary => Sys2Proof.Machine.execTickBoundary s
  | .waitTimeout => Sys2Proof.Machine.execWaitTimeout s
  | .coalescingTimerExpiry => Sys2Proof.Machine.execCoalescingTimerExpiry s
  | .cellAddrWrite b => Sys2Proof.Machine.execCellAddrWrite b s
  | .cellDataRead => Sys2Proof.Machine.execCellDataRead s
  | .cellReadComplete => Sys2Proof.Machine.execCellReadComplete s
  | .cellWrite b => Sys2Proof.Machine.execCellWrite b s
  | .commit q b => Sys2Proof.Machine.execCommit q b s
  | .haltMaskWrite q b => Sys2Proof.Machine.execHaltMaskWrite q b s
  | .arbCtrlWrite b => Sys2Proof.Machine.execArbCtrlWrite b s
  | .cqHeadRead => Sys2Proof.Machine.execCqHeadRead s
  | .cqPop b => Sys2Proof.Machine.execCqPop b s
  | .cqThresholdWrite b => Sys2Proof.Machine.execCqThresholdWrite b s
  | .eventCodeRead => Sys2Proof.Machine.execEventCodeRead s
  | .evtAck b => Sys2Proof.Machine.execEvtAck b s
  | .faultClear b => Sys2Proof.Machine.execFaultClear b s
  | .registerWrite a b => Sys2Proof.Machine.execRegisterWrite a b s
  | .resumePlain q => Sys2Proof.Machine.execResumePlain q s
  | .resumeRetry q => Sys2Proof.Machine.execResumeRetry q s
  | .resumeSkip q => Sys2Proof.Machine.execResumeSkip q s
  | .resumeSubstitute q => Sys2Proof.Machine.execResumeSubstitute q s
  | .pause q => Sys2Proof.Machine.execPause q s
  | .flush q => Sys2Proof.Machine.execFlush q s
  | .clearSticky q => Sys2Proof.Machine.execClearSticky q s
  | .cellEmpty => Sys2Proof.Machine.execCellEmpty s
  | .cellPoison => Sys2Proof.Machine.execCellPoison s
  | .softReset => Sys2Proof.Machine.execSoftReset s
  | .unknownCommand b => Sys2Proof.Machine.execUnknownCommand b s
  | .issue q => Sys2Proof.Machine.execIssue q s
  | .jobCompletion n => Sys2Proof.Machine.execJobCompletion n s
  | .resumeOtherArgument q => Sys2Proof.Machine.execResumeOtherArgument q s

end Sys2Proof.Machine
end

