-- ==== Sys2Proof/Safety.lean ====
section
/-! DEFINITION. The laws that the manual says hold at every moment, as predicates of a state: what counts
as a sound state of the part. Claims about all states that a run can reach take these as premises. -/

namespace Sys2Proof.Machine

/-! ## What claims speak of -/

/-- The port takes accesses and the engine is READY: the host's commands reach their owners. -/
def HostReady (s : State) : Prop := takesAccess s = true ∧ s.engine.state = .ready

/-- The commands that are host accesses of the window (R161). -/
def isHostAccess : Instr → Bool
  | .powerOn | .resetAssert | .resetRelease _ | .scrubEnd | .tickBoundary | .waitTimeout
  | .coalescingTimerExpiry | .issue _ | .jobCompletion _ => false
  | .cellAddrWrite _ | .cellDataRead | .cellReadComplete | .cellWrite _ | .commit _ _
  | .haltMaskWrite _ _ | .arbCtrlWrite _ | .cqHeadRead | .cqPop _ | .cqThresholdWrite _
  | .eventCodeRead | .evtAck _ | .faultClear _ | .registerWrite _ _ | .resumePlain _ | .resumeRetry _
  | .resumeSkip _ | .resumeSubstitute _ | .pause _ | .flush _ | .clearSticky _ | .cellEmpty
  | .cellPoison | .softReset | .unknownCommand _ | .resumeOtherArgument _ => true

/-- The column "After hard reset" of the window map (R174), for every address but RESET_CAUSE, which the
end of the reset sets; unassigned and write-only addresses read 0x00 (R162). -/
def hardResetValue (a : WindowAddr) : Byte :=
  if a = 0x00#7 then 0x6B#8
  else if a = 0x01#7 then 0x10#8
  else if a = 0x0C#7 then 0x10#8
  else if a = 0x0D#7 then 0x20#8
  else if a = 0x24#7 ∨ a = 0x34#7 then 0x60#8
  else if a = 0x2A#7 ∨ a = 0x3A#7 then 0x02#8
  else if a = 0x4A#7 then 0x01#8
  else 0x00#8

/-- The addresses whose write has no row of its own and that read back what they store (R174): CMD_ARG,
SUBSTITUTE, TIMEBASE, WAIT_LIMIT, CELL_MODE, JOB_STAGE, COALESCE_TIME, EVT_ENABLE, EVT_LEVEL and
EVT_GLOBAL. -/
def storedPlain (a : WindowAddr) : Bool :=
  let n := a.toNat
  n == 0x05 || (0x08 ≤ n && n ≤ 0x0D) || n == 0x11 || (0x18 ≤ n && n ≤ 0x1F) || n == 0x4B ||
    (0x51 ≤ n && n ≤ 0x53) || n == 0x56

/-- What such an address stores of the byte written (R165, R176). -/
def storedByte (a : WindowAddr) (b : Byte) : Byte :=
  if a = 0x0C#7 then (if b.toNat < 1 then 1#8 else if 64 < b.toNat then 64#8 else b)
  else if a = 0x11#7 ∨ a = 0x56#7 then b &&& 1#8
  else b

/-- The addresses whose host write is ignored (R162): the read-only registers and the unassigned
addresses. -/
def ignoresWrite (a : WindowAddr) : Bool :=
  let n := a.toNat
  n ≤ 0x03 || n == 0x06 || n == 0x07 || n == 0x0F || n == 0x12 || n == 0x13 ||
    (0x20 ≤ n && n ≤ 0x2E && n != 0x24) || (0x30 ≤ n && n ≤ 0x3E && n != 0x34) ||
    (0x40 ≤ n && n ≤ 0x49) || (0x4D ≤ n && n ≤ 0x50) || n == 0x54 ||
    (0x57 ≤ n && n ≤ 0x5A) || 0x5C ≤ n

/-- The column "After soft reset" of the window map (R174), where it gives a value of its own; every other
address keeps what it read (R172). -/
def softResetValue (s : State) (a : WindowAddr) : Byte :=
  if a = 0x02#7 then 0x01#8
  else if a = 0x03#7 then 0x03#8
  else if a ∈ [0x06#7, 0x20#7, 0x21#7, 0x22#7, 0x23#7, 0x25#7, 0x26#7, 0x27#7, 0x28#7, 0x29#7, 0x2B#7,
      0x30#7, 0x31#7, 0x32#7, 0x33#7, 0x35#7, 0x36#7, 0x37#7, 0x38#7, 0x39#7, 0x3B#7, 0x48#7, 0x49#7]
    then 0x00#8
  else if a = 0x2A#7 ∨ a = 0x3A#7 then 0x02#8
  else if a = 0x50#7 then (if s.port.faultCode = .none then 0x00#8 else 0x02#8)
  else readWindow s a

/-- Everything a hard reset gives a value, at that value (R21, R84, R109, R147, R160, R169, R170): what the
window shows, RESET_CAUSE excepted, and what it does not show. -/
def HardResetState (t : State) : Prop :=
  (∀ a, a ≠ 0x03#7 → readWindow t a = hardResetValue a) ∧
  inReset t = true ∧ rdyLow t = false ∧ evtAsserted t = false ∧ t.readData = none ∧
  t.cell.staging = 0#24 ∧ t.cell.latch = 0#32 ∧ t.cell.readOpen = false ∧ t.cell.held = none ∧
  (∀ q, (t.queue q).ring = [] ∧ (t.queue q).retry = none ∧ (t.queue q).state = .paused) ∧
  t.issue.marks = 0#256 ∧ t.issue.inflight = [] ∧ t.issue.starvation = 0 ∧
  t.issue.tu = .free ∧ t.issue.su = .free ∧ t.issue.pu = .idle ∧
  t.cq.ring = [] ∧ t.cq.timer = .idle ∧ t.cq.expired = false ∧ t.cq.headLatch = 0#64

/-- Commands run one after the other, each on the state the one before left; none when one of them
stops. -/
def runCommands : List Instr → State → Option State
  | [], s => some s
  | c :: cs, s =>
    match exec c s with
    | .next t => runCommands cs t
    | .fault _ => none
    | .refused _ => none

/-- `n` steps; none when one of them stops. -/
def runSteps : Nat → State → Option State
  | 0, s => some s
  | n + 1, s =>
    match step s with
    | .next t => runSteps n t
    | .fault _ => none
    | .refused _ => none

/-- `s` with CQ_STARVED pending or not. A statement about one command leaves CQ_STARVED open with
`withStarved … t.event.starved`; the statement of the stall report says what it becomes. -/
def withStarved (s : State) (b : Bool) : State := { s with event := { s.event with starved := b } }

/-- The port after the fault `f` at the window address `a` is entered in its fault record (R168). -/
def FaultEntered (f : PortFault) (a : Byte) (p p' : HostPort) : Prop :=
  (p.faultCode = .none → p' = { p with faultCode := f, faultAddr := a }) ∧
  (p.faultCode ≠ .none → p.faultCount.toNat < 255 →
    p' = { p with faultCount := p.faultCount + 1#8 }) ∧
  (p.faultCode ≠ .none → p.faultCount.toNat = 255 → p' = p)

/-- A record posted at the tail of the ring (R133), with what R142 says of the coalescing timer. -/
def Posted (r : Record) (c c' : CompletionQueue) : Prop :=
  c' = { c with ring := c.ring ++ [r], timer := c'.timer } ∧
  (c.timer = .idle ∧ c.expired = false ∧ c.coalesceTime ≠ 0#8 →
    c'.timer = .running 0 c.coalesceTime.toNat) ∧
  (¬(c.timer = .idle ∧ c.expired = false ∧ c.coalesceTime ≠ 0#8) → c'.timer = c.timer)

/-- The DONE record of a job (R134), with the echo of R135. -/
def doneOf (q : QueueId) (j : Job) (c : CondSet) (echo : Option Raw) : Record :=
  { status := .done, queue := q, echoValid := echo.isSome, haltedAtIssue := false, seq := j.seq,
    hostTag := j.desc.extractLsb' 40 8, conds := c, echo := echo.getD 0#32 }

/-- The record of a held job (R116, R124, R126). -/
def heldOf (st : Status) (q : QueueId) (h : HeldJob) (echo : Option Raw) : Record :=
  { status := st, queue := q, echoValid := echo.isSome, haltedAtIssue := h.atIssue, seq := h.job.seq,
    hostTag := h.job.desc.extractLsb' 40 8, conds := h.conds, echo := echo.getD 0#32 }

/-- The end of a job's reservation at a completion that does not halt (R136), from the completion queue
`c` that holds the reservation no longer: a DONE record under ALWAYS, or under CONDITION with a
condition set that is not empty, and nothing else. -/
def ReservationEnded (q : QueueId) (j : Job) (cs : CondSet) (echo : Option Raw)
    (c c' : CompletionQueue) : Prop :=
  if j.desc.extractLsb' 32 2 = 0#2 ∨ j.desc.extractLsb' 32 2 = 1#2 ∧ cs ≠ 0#7 then
    Posted (doneOf q j cs echo) c c'
  else c' = c

/-- Queue `Q` with the job `h` held and its halt information written (R78, R118). -/
def haltedWith (h : HeldJob) (Q : Queue) : Queue :=
  { Q with state := .halted h, haltCond := h.conds, haltTag := h.job.desc.extractLsb' 40 8,
           haltSeq := h.job.seq }

/-! ## Issuability and conflict as the manual words them (R88, R91, R104) -/

/-- The capacity `c` is free (R91). -/
def ClaimFree (il : IssueLogic) : Claim → Prop
  | .tu => il.tu = .free
  | .su => il.su = .free
  | .puScalar => il.pu = .idle ∨ il.pu = .oneScalar
  | .puWhole => il.pu = .idle
  | .puAndSu => il.pu = .idle ∧ il.su = .free

/-- The free capacity takes both claims (R104): two different places, or the product unit's two scalar
places. -/
def BothClaimsFit (il : IssueLogic) : Claim → Claim → Prop
  | .tu, .tu => False
  | .tu, _ => True
  | _, .tu => True
  | .su, .puScalar => True
  | .su, .puWhole => True
  | .puScalar, .su => True
  | .puWhole, .su => True
  | .puScalar, .puScalar => il.pu = .idle
  | _, _ => False

/-- The head of `Q` is a holding BOTH fence (R100). -/
def HoldingBothFence (Q : Queue) : Prop :=
  Q.state = .active ∧ ∃ j, headJob Q = some j ∧ jobOp j.desc = some .fence ∧ flagField j.desc = true

/-- The head of queue `q` is the job `j`, and it meets every condition of R88 but the second, which asks
for a completion slot. -/
def MeetsAllButSlot (s : State) (q : QueueId) (j : Job) : Prop :=
  let Q := s.queue q
  headJob Q = some j ∧
  Q.state = .active ∧
  (∀ c, claimOf j.desc = some c → ClaimFree s.issue c) ∧
  (∀ n, n ∈ sourceCells Q j.desc ∨ n ∈ destCells Q j.desc → isMarked s.issue.marks n = false) ∧
  (guardedUnder (fullMask Q.haltMask) j.desc = true → Q.inflight = 0) ∧
  (jobOp j.desc = some .fence → Q.inflight = 0 ∧
    (flagField j.desc = true → (s.queue q.other).inflight = 0)) ∧
  (HoldingBothFence (s.queue q.other) → jobOp j.desc = some .fence ∧ flagField j.desc = true) ∧
  (∀ e ∈ s.issue.inflight, e.queue = q → e.guarded = false)

/-- The head of queue `q` is the job `j`, and it is issuable: the eight conditions of R88, the second
first. -/
def MayIssue (s : State) (q : QueueId) (j : Job) : Prop :=
  s.cq.ring.length + s.cq.reserved < 32 ∧ MeetsAllButSlot s q j

/-- A head is stalled on the completion queue alone (R145). -/
def StalledOnSlots (s : State) : Prop :=
  32 ≤ s.cq.ring.length + s.cq.reserved ∧ ∃ q j, MeetsAllButSlot s q j

/-- Two issuable heads conflict (R104): over a unit, the last completion slot, a cell, or a fence. -/
def Conflict (s : State) (q : QueueId) (j j' : Job) : Prop :=
  let Q := s.queue q
  let Q' := s.queue q.other
  (∃ c c', claimOf j.desc = some c ∧ claimOf j'.desc = some c' ∧ ¬BothClaimsFit s.issue c c') ∨
  s.cq.ring.length + s.cq.reserved = 31 ∨
  (∃ n, n ∈ destCells Q j.desc ∧ (n ∈ sourceCells Q' j'.desc ∨ n ∈ destCells Q' j'.desc)) ∨
  (∃ n, n ∈ destCells Q' j'.desc ∧ (n ∈ sourceCells Q j.desc ∨ n ∈ destCells Q j.desc)) ∨
  (jobOp j.desc = some .fence ∧ flagField j.desc = true) ∨
  (jobOp j'.desc = some .fence ∧ flagField j'.desc = true)

/-- The head `j` of queue `q` is issuable, and no issuable head of the other queue conflicts with it. -/
def IssuesAlone (s : State) (q : QueueId) (j : Job) : Prop :=
  MayIssue s q j ∧ ∀ j', MayIssue s q.other j' → ¬Conflict s q j j'

/-- Queue `q` has given up its head and the other queue stands as it was (R71). -/
def HeadTaken (s t : State) (q : QueueId) : Prop :=
  (t.queue q).ring = (dropHead (s.queue q)).ring ∧ (t.queue q).retry = none ∧
  t.queue q.other = s.queue q.other

/-- The arbiter lets queue `w` win a conflict (R105). -/
def Wins (s : State) (w : QueueId) : Prop :=
  w = s.issue.preferred ∧ (s.issue.guardK = 0#4 ∨ s.issue.starvation < s.issue.guardK.toNat) ∨
  w = s.issue.preferred.other ∧ s.issue.guardK ≠ 0#4 ∧ s.issue.starvation = s.issue.guardK.toNat

/-! ## Descriptors as the manual's tables give them -/

/-- The operation codes (R177). -/
def codeTable : List (BitVec 6 × Op) :=
  [(0x01#6, .setframe), (0x02#6, .fence), (0x08#6, .move), (0x09#6, .loadk), (0x0A#6, .clear),
   (0x10#6, .add), (0x11#6, .sub), (0x12#6, .neg), (0x13#6, .abs), (0x14#6, .min), (0x15#6, .max),
   (0x16#6, .cmp), (0x17#6, .rescale), (0x18#6, .sumv), (0x20#6, .mul), (0x21#6, .mac),
   (0x22#6, .div), (0x23#6, .sqrt), (0x24#6, .dot)]

/-- A descriptor is malformed (R64). -/
def Malformed (d : Desc) : Prop :=
  d.extractLsb' 0 6 ∉ codeTable.map (·.1) ∨
  d.extractLsb' 37 3 ≠ 0#3 ∨ d.extractLsb' 21 5 = 31#5 ∨ d.extractLsb' 32 2 = 3#2 ∨
  ∃ p ∈ codeTable, p.1 = d.extractLsb' 0 6 ∧
    (p.2 ∈ [.setframe, .fence] ∧ d.extractLsb' 28 4 ≠ 0#4 ∨
     p.2 ∈ [.move, .loadk, .clear, .neg, .abs, .rescale, .sumv, .sqrt, .setframe, .fence] ∧
       d.getLsbD 34 = true ∨
     p.2 = .setframe ∧ d.extractLsb' 53 11 ≠ 0#11 ∨
     p.2 = .rescale ∧ (d.extractLsb' 54 10 ≠ 0#10 ∨ d.extractLsb' 48 6 = 0b100000#6))

/-- The operations that read source A, and of these the ones that read source B too (R40, R43, R44). -/
def opsWithA : List Op :=
  [.move, .add, .sub, .neg, .abs, .min, .max, .cmp, .rescale, .sumv, .mul, .mac, .div, .sqrt, .dot]
def opsWithB : List Op := [.add, .sub, .min, .max, .cmp, .mul, .mac, .div, .dot]

/-- The element-wise operations that compute (R42). -/
def elementWiseOps : List Op :=
  [.add, .sub, .neg, .abs, .min, .max, .cmp, .rescale, .mul, .mac, .div, .sqrt]

/-- The first `n` cells of the operand field `f`: element `e` is cell (8 × FP + index + e) mod 256, with
the pointer that bit 4 selects and the index in bits 3:0 (R5, R41). -/
def operandRun (Q : Queue) (f : BitVec 5) (n : Nat) : List CellNo :=
  let fp := if f.getLsbD 4 then Q.frameB else Q.frameA
  (List.range n).map fun e => BitVec.ofNat 8 ((8 * fp.toNat + (f.extractLsb' 0 4).toNat + e) % 256)

/-- The element count of a descriptor (R42). -/
def elements (d : Desc) : Nat := (d.extractLsb' 28 4).toNat + 1

/-! ## What an issue does (R94) -/

/-- The tags of the cells inspected at the issue of `j` from queue `q` (R32). -/
def inspectedTags (s : State) (q : QueueId) (j : Job) : List Tag :=
  (inspectedCells (s.queue q) j.desc).map fun n => (s.cellAt n).tag

/-- The issue checks stop `j` with the condition `c`: BAD_JOB, EMPTY_SOURCE, POISON_IN in the mask, in
this order (R36). -/
def CheckFails (s : State) (q : QueueId) (j : Job) (c : CondSet) : Prop :=
  let tags := inspectedTags s q j
  Malformed j.desc ∧ c = badJobBit ∨
  ¬Malformed j.desc ∧ .empty ∈ tags ∧ c = emptySourceBit ∨
  ¬Malformed j.desc ∧ .empty ∉ tags ∧ .poison ∈ tags ∧ (s.queue q).haltMask.getLsbD 4 = true ∧
    c = poisonInBit

/-- `j` passes the issue checks, and is of the operation `o`, with the capacity `cl` to claim. -/
def ChecksPass (s : State) (q : QueueId) (j : Job) (o : Op) (cl : Claim) : Prop :=
  jobOp j.desc = some o ∧ claimFor o (countOf j.desc) = some cl ∧ .empty ∉ inspectedTags s q j ∧
  (.poison ∈ inspectedTags s q j → (s.queue q).haltMask.getLsbD 4 = false)

/-- From `s` to `t` the head `j` of queue `q` is stopped at its issue by the condition `c`
(R97, R113). -/
def HaltsAtIssue (s : State) (q : QueueId) (j : Job) (c : CondSet) (t : State) : Prop :=
  let Q := s.queue q
  let h : HeldJob := { job := j, conds := c, atIssue := true }
  (Q.inflight = 0 → Posted (heldOf .halted q h none) s.cq t.cq ∧
    t = withStarved ({ s with cq := t.cq }.setQueue q (haltedWith h (dropHead Q)))
          t.event.starved) ∧
  (0 < Q.inflight →
    t = withStarved ({ s with cq := { s.cq with reserved := s.cq.reserved + 1 } }.setQueue q
          { dropHead Q with state := .draining h }) t.event.starved)

/-- From `s` to `t` the head `j` of queue `q`, a SETFRAME or a FENCE, completes at its issue
(R48, R49, R98, R99). -/
def ControlDone (s : State) (q : QueueId) (j : Job) (t : State) : Prop :=
  let Q := s.queue q
  let v : BitVec 5 := j.desc.extractLsb' 48 5
  (jobOp j.desc = some .setframe → ReservationEnded q j 0#7 none s.cq t.cq ∧
    t = withStarved ({ s with cq := t.cq }.setQueue q
          (if j.desc.getLsbD 35 then { dropHead Q with frameB := v }
           else { dropHead Q with frameA := v })) t.event.starved) ∧
  (jobOp j.desc = some .fence → ReservationEnded q j 0#7 none s.cq t.cq ∧
    t = withStarved ({ s with cq := t.cq
                              event := { s.event with
                                signal := s.event.signal || j.desc.getLsbD 36 } }.setQueue q
          (dropHead Q)) t.event.starved)

/-- From `s` to `t` the head `j` of queue `q`, of the operation `o`, starts in its unit: its entry, the
marks, the claimed capacity, the reservation and the in-flight count (R91, R94, R95, R96). -/
def StartsJob (s : State) (q : QueueId) (j : Job) (o : Op) (cl : Claim) (t : State) : Prop :=
  let Q := s.queue q
  ∃ e : InFlight,
    e.queue = q ∧ e.job = j ∧ e.mask = 0x60#7 ||| Q.haltMask.setWidth 7 ∧
    (e.guarded = true ↔ execConds o &&& e.mask ≠ 0#7) ∧
    (e.poisonIn = true ↔ .poison ∈ inspectedTags s q j) ∧
    e.dests = destCells Q j.desc ∧ e.srcA = (aCells Q j.desc).map s.cellAt ∧
    e.srcB = (bCells Q j.desc).map s.cellAt ∧ e.srcD = (dCells Q j.desc).map s.cellAt ∧
    e.claim = cl ∧
    (∀ n, isMarked t.issue.marks n = true ↔
      isMarked s.issue.marks n = true ∨ n ∈ destCells Q j.desc) ∧
    (t.issue.tu, t.issue.su, t.issue.pu) =
      (match cl with
       | .tu => (TuOcc.busy, s.issue.su, s.issue.pu)
       | .su => (s.issue.tu, SuOcc.busy, s.issue.pu)
       | .puScalar => (s.issue.tu, s.issue.su, if s.issue.pu = .idle then .oneScalar else .twoScalar)
       | .puWhole => (s.issue.tu, s.issue.su, .whole)
       | .puAndSu => (s.issue.tu, SuOcc.lent, .whole)) ∧
    t = withStarved
          ({ s with cq := { s.cq with reserved := s.cq.reserved + 1 }
                    issue := { s.issue with
                      marks := t.issue.marks, tu := t.issue.tu, su := t.issue.su,
                      pu := t.issue.pu, inflight := s.issue.inflight ++ [e] } }.setQueue q
            { dropHead Q with inflight := Q.inflight + 1 }) t.event.starved

/-- From `s` to `t` the head `j` of queue `q` issues: what follows depends on its checks (R94). -/
def IssueDone (s : State) (q : QueueId) (j : Job) (t : State) : Prop :=
  (∀ c, CheckFails s q j c → HaltsAtIssue s q j c t) ∧ ControlDone s q j t ∧
  ∀ o cl, ChecksPass s q j o cl → StartsJob s q j o cl t

/-- The units after the capacity `cl` is released (R91). -/
def released (il : IssueLogic) (cl : Claim) : TuOcc × SuOcc × PuOcc :=
  match cl with
  | .tu => (.free, il.su, il.pu)
  | .su => (il.tu, .free, il.pu)
  | .puScalar => (il.tu, il.su, if il.pu = .twoScalar then .oneScalar else .idle)
  | .puWhole => (il.tu, il.su, .idle)
  | .puAndSu => (il.tu, .free, .idle)

/-! ## Rounding over the rational numbers (R25, R30) -/

/-- `r` is the exact result `x` rounded in the mode `m` (R25). -/
def RoundsTo (m : RoundMode) (x : ℚ) (r : Int) : Prop :=
  match m with
  | .nearestEven => |x - r| ≤ 1 / 2 ∧ (|x - r| = 1 / 2 → r % 2 = 0)
  | .towardZero => r = if 0 ≤ x then ⌊x⌋ else ⌈x⌉
  | .towardMinusInf => r = ⌊x⌋
  | .towardPlusInf => r = ⌈x⌉

/-- The exact result of an element of the operation `o`, for the operations whose result is rational
(R30); `none` for the others. -/
def exactResult (d : Desc) (o : Op) (a b acc : Int) : Option ℚ :=
  match o with
  | .add => some (a + b)
  | .sub => some (a - b)
  | .neg => some (-a)
  | .abs => some |(a : ℚ)|
  | .min => some (min a b)
  | .max => some (max a b)
  | .cmp => some (if a < b then -1 else if a = b then 0 else 1)
  | .rescale => some (a * 2 ^ (shiftOf d))
  | .mul => some (a * b / 2 ^ (fracField d).toNat)
  | .mac => some ((a * b + acc * 2 ^ (fracField d).toNat) / 2 ^ (fracField d).toNat)
  | .div => if b = 0 then none else some (a * 2 ^ (fracField d).toNat / b)
  | .sqrt | .setframe | .fence | .move | .loadk | .clear | .sumv | .dot => none

/-- `e` is the element of the exact result `x` under the mode `m`: rounded once, saturated, OVERFLOW
exactly when the rounded result is out of range, and INEXACT exactly when what is written is not `x`
(R24 to R27). -/
def IsElementOf (m : RoundMode) (x : ℚ) (e : ElemResult) : Prop :=
  ∃ r : Int, RoundsTo m x r ∧ e.cell.tag = .valid ∧
    e.cell.value.toInt = max (-2147483648) (min 2147483647 r) ∧
    (e.conds &&& overflowBit ≠ 0#7 ↔ r < -2147483648 ∨ 2147483647 < r) ∧
    (e.conds &&& inexactBit ≠ 0#7 ↔ (e.cell.value.toInt : ℚ) ≠ x) ∧
    e.conds &&& ~~~(overflowBit ||| inexactBit) = 0#7

/-! ## What queues do (R73) -/

/-- The state of a queue without its held job. -/
inductive QStateName where
  | paused | active | pausing | draining | halted
  deriving DecidableEq, Repr

/-- The name of a queue's state. -/
def stateName (Q : Queue) : QStateName :=
  match Q.state with
  | .paused => .paused
  | .active => .active
  | .pausing => .pausing
  | .draining _ => .draining
  | .halted _ => .halted

/-- The moves between states that R73 lists, a reset apart. -/
def allowedMoves : List (QStateName × QStateName) :=
  [(.paused, .active), (.active, .paused), (.active, .pausing), (.pausing, .paused), (.active, .halted),
   (.active, .draining), (.draining, .halted), (.pausing, .halted), (.halted, .active),
   (.halted, .paused)]

/-! ## The laws -/

/-- The destination cells of all jobs in flight. -/
def markedCells (il : IssueLogic) : List CellNo := il.inflight.flatMap (·.dests)

/-- How many jobs of queue `q` are in flight. -/
def flightCount (il : IssueLogic) (q : QueueId) : Nat := il.inflight.countP (·.queue == q)

/-- How many jobs in flight hold the capacity `c`. -/
def claimCount (il : IssueLogic) (c : Claim) : Nat := il.inflight.countP (·.claim == c)

/-- The cells are in canonical form, and every EMPTY or POISON cell has value 0 (R1). -/
def CellsSound (s : State) : Prop := Memory.wf s.cell.cells = true

/-- A cell carries a mark exactly when it is a destination of a job in flight, and of one only (R86). -/
def MarksSound (s : State) : Prop :=
  (markedCells s.issue).Nodup ∧
  ∀ n : CellNo, isMarked s.issue.marks n = true ↔ n ∈ markedCells s.issue

/-- The occupancy of the units is what the claims of the jobs in flight make it (R85, R91). -/
def UnitsSound (il : IssueLogic) : Prop :=
  (il.tu = .free ∧ claimCount il .tu = 0 ∨ il.tu = .busy ∧ claimCount il .tu = 1) ∧
  (il.su = .free ∧ claimCount il .su = 0 ∧ claimCount il .puAndSu = 0 ∨
   il.su = .busy ∧ claimCount il .su = 1 ∧ claimCount il .puAndSu = 0 ∨
   il.su = .lent ∧ claimCount il .su = 0 ∧ claimCount il .puAndSu = 1) ∧
  (il.pu = .idle ∧ claimCount il .puScalar = 0 ∧ claimCount il .puWhole + claimCount il .puAndSu = 0 ∨
   il.pu = .oneScalar ∧ claimCount il .puScalar = 1 ∧
     claimCount il .puWhole + claimCount il .puAndSu = 0 ∨
   il.pu = .twoScalar ∧ claimCount il .puScalar = 2 ∧
     claimCount il .puWhole + claimCount il .puAndSu = 0 ∨
   il.pu = .whole ∧ claimCount il .puScalar = 0 ∧ claimCount il .puWhole + claimCount il .puAndSu = 1)

/-- What an in-flight entry holds, as its issue made it (R93, R95, R96): a well-formed job with a unit, its
claim, its guarded judgement under the captured mask, as many distinct destinations and captured
sources as its operation has, no EMPTY input but for MOVE, and POISON_IN for a POISON input, which
the captured mask then lacks (R33, R34). -/
def EntrySound (e : InFlight) : Prop :=
  ∃ o, jobOp e.job.desc = some o ∧ claimFor o (countOf e.job.desc) = some e.claim ∧
    e.guarded = (execConds o &&& e.mask != 0#7) ∧
    e.dests.Nodup ∧
    e.dests.length = (if isReduction o then 1 else countOf e.job.desc) ∧
    e.srcA.length = (if readsA o then countOf e.job.desc else 0) ∧
    e.srcB.length = (if readsB o then (if bcastField e.job.desc then 1 else countOf e.job.desc) else 0) ∧
    e.srcD.length = (if readsDst o then countOf e.job.desc else 0) ∧
    (inspects o = true → ∀ c ∈ e.srcA ++ e.srcB ++ e.srcD,
      c.tag ≠ .empty ∧ (c.tag = .poison → e.poisonIn = true)) ∧
    (e.poisonIn = true → e.mask &&& poisonInBit = 0#7)

/-- Every job in flight has a sound entry. -/
def EntriesSound (il : IssueLogic) : Prop := ∀ e ∈ il.inflight, EntrySound e

/-- What a queue's state says of its in-flight count and its retry position (R72, R73, R79), and the
bounds of its ring and flush count (R66). -/
def QueueSound (Q : Queue) : Prop :=
  (match Q.state with
   | .paused | .halted _ => Q.inflight = 0
   | .pausing | .draining _ => 0 < Q.inflight
   | .active => True) ∧
  (Q.retry.isSome → (Q.state = .active ∨ Q.state = .paused) ∧ Q.inflight = 0) ∧
  Q.ring.length ≤ 16 ∧ Q.flushCount ≤ 17

/-- Both queues are sound, each counts its own jobs in flight (R72), a guarded job in flight is the only
one of its queue, which is ACTIVE or PAUSING (R93), the reservations are the jobs in flight and the
DRAINING queues (R132), and records and reservations never exceed 32 (R131). -/
def QueuesSound (s : State) : Prop :=
  QueueSound s.q0 ∧ QueueSound s.q1 ∧
  s.q0.inflight = flightCount s.issue .q0 ∧ s.q1.inflight = flightCount s.issue .q1 ∧
  (∀ e ∈ s.issue.inflight, e.guarded = true →
    (s.queue e.queue).inflight = 1 ∧
    ((s.queue e.queue).state = .active ∨ (s.queue e.queue).state = .pausing)) ∧
  s.cq.reserved = s.issue.inflight.length + (if isDraining s.q0 then 1 else 0) +
    (if isDraining s.q1 then 1 else 0) ∧
  slotsUsed s.cq ≤ 32

/-- The sequence numbers of queue `q` (R70), modulo 256: the ring's jobs end at NEXT_SEQ - 1 and run
consecutively, and the job in the retry position or the held-job slot has NEXT_SEQ - DEPTH - 1. So has a
guarded job in flight, which went last from the head. -/
def SeqSound (s : State) (q : QueueId) : Prop :=
  let Q := s.queue q
  (∀ i (h : i < Q.ring.length), Q.ring[i].seq = Q.nextSeq - BitVec.ofNat 8 (Q.ring.length - i)) ∧
  (∀ j, Q.retry = some j → j.seq = Q.nextSeq - BitVec.ofNat 8 Q.ring.length - 1#8) ∧
  (∀ h, heldJob Q = some h → h.job.seq = Q.nextSeq - BitVec.ofNat 8 Q.ring.length - 1#8) ∧
  (∀ e ∈ s.issue.inflight, e.queue = q → e.guarded = true →
    e.job.seq = Q.nextSeq - BitVec.ofNat 8 Q.ring.length - 1#8)

/-- A held access: READY, not held reset, its cell marked and still the one CELL_ADDR names, and its wait
count below WAIT_LIMIT (R13 to R15). -/
def HeldSound (s : State) : Prop :=
  ∀ h, s.cell.held = some h →
    isMarked s.issue.marks h.cell = true ∧ s.cell.addr = h.cell ∧ h.count < s.port.waitLimit.toNat ∧
    s.engine.state = .ready ∧ inReset s = false

/-- The coalescing timer and the expiry flag need records in the ring, a running timer is below its
length with the flag clear, and the threshold is 1 to 32 (R131, R141 to R143). -/
def TimerSound (c : CompletionQueue) : Prop :=
  (∀ n l, c.timer = .running n l → n < l ∧ l ≤ 255 ∧ c.ring ≠ [] ∧ c.expired = false) ∧
  (c.expired = true → c.ring ≠ []) ∧
  1 ≤ c.threshold.toNat ∧ c.threshold.toNat ≤ 32

/-- The tick divider is below the tick's length, which like TIMEBASE is 1 to 64 (R165), and a clear port
fault record is 0 in all three registers (R168, R169). -/
def PortSound (p : HostPort) : Prop :=
  1 ≤ p.timebase.toNat ∧ p.timebase.toNat ≤ 64 ∧ p.divider < p.tickLength ∧ p.tickLength ≤ 64 ∧
  (p.faultCode = .none → p.faultAddr = 0#8 ∧ p.faultCount = 0#8)

/-- The starvation counter never exceeds K (R106). -/
def ArbiterSound (il : IssueLogic) : Prop := il.starvation ≤ il.guardK.toNat

/-- In STARTING, and so while the part is held reset, the queues are PAUSED and empty, nothing is in
flight, and the completion queue is empty (R109, R147, R152). -/
def StartingSound (s : State) : Prop :=
  (inReset s = true → s.engine.state = .starting) ∧
  (s.engine.state = .starting →
    s.q0.state = .paused ∧ s.q0.ring = [] ∧ s.q0.retry = none ∧
    s.q1.state = .paused ∧ s.q1.ring = [] ∧ s.q1.retry = none ∧
    s.issue.inflight = [] ∧ s.cq.ring = [] ∧ s.cq.reserved = 0)

end Sys2Proof.Machine
end

