-- ==== Sys2Proof/Certificates/Slice0/Obligations.lean ====
section
/-! DEFINITION. The statements for the provers. A statement's right-hand sides are written from the
manual's rules over the plain fields of the state; a state written `{ s with … }` says also what the
command leaves as it was. Where a command can begin a stall of issue, `withStarved … t.event.starved`
leaves CQ_STARVED to `Obligations.StallIsReportedExactlyAtItsStart`. -/

open Sys2Proof Sys2Proof.Machine

/-! ## Steps -/

/-- A step takes the command at the front of the queue and runs it on the state with the queue's rest. -/
def Obligations.StepRunsFrontCommand : Prop :=
  ∀ (s : State) (c : Instr) (rest : List Instr), s.pending = c :: rest →
    step s = exec c { s with pending := rest }

/-- With no command waiting a step is one clock period (the model's choice, notes/assumptions/3.md):
in READY the tick divider counts, and at the tick's length a tick boundary passes (R165); a part held
reset stands still. -/
def Obligations.IdleStepIsOneClockPeriod : Prop :=
  ∀ s : State, s.pending = [] →
    (inReset s = true → step s = .next s) ∧
    (inReset s = false → s.engine.state = .ready → s.port.divider + 1 < s.port.tickLength →
      step s = .next { s with port := { s.port with divider := s.port.divider + 1 } }) ∧
    (inReset s = false → s.engine.state = .ready → s.port.tickLength ≤ s.port.divider + 1 →
      step s = exec .tickBoundary s)

/-- Every command answers a next state, in every state, and leaves the waiting commands alone: the manual
ends no command with a stop of the part (the model's reading, notes/assumptions/16.md). -/
def Obligations.EveryCommandAnswersNext : Prop :=
  ∀ (c : Instr) (s : State), ∃ t, exec c s = .next t ∧ t.pending = s.pending

/-- A happening that cannot happen in the state at hand changes nothing (the model's reading of "It does
not happen", R144 and R172; notes/assumptions/4.md). -/
def Obligations.ImpossibleHappeningsChangeNothing : Prop :=
  ∀ s : State,
    (s.engine.pin = true → exec .resetAssert s = .next s) ∧
    (s.engine.por = false → exec (.resetRelease .powerOn) s = .next s) ∧
    (s.engine.pin = false → exec (.resetRelease .pin) s = .next s) ∧
    (s.engine.state = .ready ∨ inReset s = true → exec .scrubEnd s = .next s) ∧
    (inReset s = true → exec .tickBoundary s = .next s) ∧
    (s.cell.held = none → exec .waitTimeout s = .next s) ∧
    (∀ h, s.cell.held = some h →
      h.count + 1 < s.port.waitLimit.toNat ∨ isMarked s.issue.marks h.cell = false →
      exec .waitTimeout s = .next s) ∧
    (s.cq.timer = .idle → exec .coalescingTimerExpiry s = .next s) ∧
    (∀ n l, s.cq.timer = .running n l → n + 1 < l → exec .coalescingTimerExpiry s = .next s) ∧
    (∀ n : Fin 4, s.issue.inflight.length ≤ n.val → exec (.jobCompletion n) s = .next s) ∧
    (∀ q, (∀ j, ¬MayIssue s q j) → exec (.issue q) s = .next s)

/-! ## Resets and the scrub -/

/-- Power coming on, and RESET# going low, give everything its hard-reset value and hold the part reset;
RESET_CAUSE waits for the end of the reset (R170). Two clauses are the model's, not the manual's: that
readData is none (the model's own field, a DESIGN CHOICE, notes/assumptions/5.md), and that POWER_ON leaves
the level of RESET# as it stands (DEDUCED, notes/assumptions/11.md). -/
def Obligations.HardResetTakesResetValues : Prop :=
  ∀ s : State,
    (∃ t, exec .powerOn s = .next t ∧ HardResetState t ∧ t.engine.por = true ∧
      t.engine.pin = s.engine.pin ∧ t.port.resetCause = s.port.resetCause) ∧
    (s.engine.pin = false →
      ∃ t, exec .resetAssert s = .next t ∧ HardResetState t ∧ t.engine.pin = true ∧
        t.engine.por = s.engine.por ∧ t.port.resetCause = s.port.resetCause)

/-- The release of the last thing that holds the part reset enters STARTING with the divider at 0 and the
scrub at cell 0, and sets RESET_CAUSE; a release while the other still holds it only drops that hold
(R170). The scrub's last write empties every cell and makes the engine READY with START_DONE
pending (R20, R171). -/
def Obligations.ReleaseStartsAndScrubEndMakesReady : Prop :=
  ∀ s : State,
    let started : State :=
      { s with
        engine := { s.engine with por := false, pin := false, state := .starting, scrubNext := 0 }
        port := { s.port with divider := 0, tickLength := s.port.timebase.toNat,
                              resetCause := s.engine.holdCause } }
    (s.engine.por = true → s.engine.pin = false →
      exec (.resetRelease .powerOn) s = .next started) ∧
    (s.engine.pin = true → s.engine.por = false → exec (.resetRelease .pin) s = .next started) ∧
    (s.engine.por = true → s.engine.pin = true →
      exec (.resetRelease .powerOn) s = .next { s with engine := { s.engine with por := false } } ∧
      exec (.resetRelease .pin) s = .next { s with engine := { s.engine with pin := false } }) ∧
    (s.engine.state = .starting → inReset s = false →
      ∃ t, exec .scrubEnd s = .next t ∧ (∀ n, t.cellAt n = ⟨0#32, .empty⟩) ∧
        t = { s with cell := { s.cell with cells := t.cell.cells }
                     engine := { s.engine with state := .ready, scrubNext := 0 }
                     event := { s.event with startDone := true } })

/-- RESET_CAUSE is POWER_ON at the end of a power-on reset and PIN at the release of a RESET# asserted
after it; a RESET# still low at the end of the power-on reset prolongs it, and the cause stays POWER_ON
(R170). -/
def Obligations.ResetCauseFollowsItsSource : Prop :=
  ∀ s : State,
    (s.engine.pin = false →
      ∃ t, runCommands [.powerOn, .resetRelease .powerOn] s = some t ∧ inReset t = false ∧
        t.engine.state = .starting ∧ readWindow t 0x03#7 = 1#8) ∧
    (inReset s = false →
      ∃ t, runCommands [.resetAssert, .resetRelease .pin] s = some t ∧ inReset t = false ∧
        t.engine.state = .starting ∧ readWindow t 0x03#7 = 2#8) ∧
    (s.engine.pin = false →
      ∃ t u, runCommands [.powerOn, .resetAssert, .resetRelease .powerOn] s = some t ∧
        inReset t = true ∧ runCommands [.resetRelease .pin] t = some u ∧ inReset u = false ∧
        readWindow u 0x03#7 = 1#8) ∧
    (s.engine.pin = true →
      ∃ t u, runCommands [.powerOn, .resetRelease .powerOn] s = some t ∧ inReset t = true ∧
        runCommands [.resetRelease .pin] t = some u ∧ inReset u = false ∧ readWindow u 0x03#7 = 1#8)

/-- The scrub empties the cells in ascending order, one each clock period, and ends 256 clock periods
after it began (R20), where one clock period is a step on an empty queue (notes/assumptions/3.md). -/
def Obligations.ScrubEndsAfter256ClockPeriods : Prop :=
  ∀ s : State, CellsSound s → s.pending = [] → inReset s = false → s.engine.state = .starting →
    s.engine.scrubNext = 0 →
    (∀ k, k < 256 → ∃ t, runSteps k s = some t ∧ t.engine.state = .starting ∧
      t.engine.scrubNext = k ∧ ∀ n : CellNo, n.toNat < k → t.cellAt n = ⟨0#32, .empty⟩) ∧
    ∃ t, runSteps 256 s = some t ∧ t.engine.state = .ready ∧ t.event.startDone = true ∧
      ∀ n : CellNo, t.cellAt n = ⟨0#32, .empty⟩

/-- An accepted SOFT_RESET aborts every job with nothing written, empties the queues and the completion
queue, clears the latched sources, and keeps the cells and the configuration; the window reads as the
column "After soft reset" of the map gives (R172, R174), the threshold being 1 or more as R141 has it. -/
def Obligations.SoftResetKeepsCellsAndConfiguration : Prop :=
  ∀ s : State, HostReady s → TimerSound s.cq →
    ∃ t, exec .softReset s = .next t ∧
      t = { s with
            q0 := { Queue.reset with haltMask := s.q0.haltMask }
            q1 := { Queue.reset with haltMask := s.q1.haltMask }
            issue := { marks := 0#256, tu := .free, su := .free, pu := .idle, inflight := [],
                       starvation := 0, preferred := s.issue.preferred, guardK := s.issue.guardK }
            cq := { s.cq with ring := [], reserved := 0, timer := .idle, expired := false }
            event := { s.event with startDone := false, paused := false, signal := false,
                                    starved := false }
            port := { s.port with resetCause := .soft, cmdResult := .accepted } } ∧
      ∀ a, a ∉ [0x12#7, 0x14#7, 0x40#7, 0x54#7] → readWindow t a = softResetValue s a

/-! ## Ticks -/

/-- A tick boundary returns the divider to 0, gives the next tick its length, and raises the wait count of
a held access and the count of a running coalescing timer by one (R13, R142, R165). -/
def Obligations.TickBoundaryAdvancesTimers : Prop :=
  ∀ s : State, inReset s = false →
    let p := { s.port with divider := 0, tickLength := s.port.timebase.toNat }
    ∃ t, exec .tickBoundary s = .next t ∧
      (s.cq.timer = .idle → t.cq = s.cq) ∧
      (∀ n l, s.cq.timer = .running n l →
        t.cq = if n + 1 < l then { s.cq with timer := .running (n + 1) l }
               else { s.cq with timer := .idle, expired := true }) ∧
      (s.cell.held = none → t = { s with port := p, cq := t.cq }) ∧
      (∀ h, s.cell.held = some h → h.count + 1 < s.port.waitLimit.toNat →
        t = { s with port := p
                     cell := { s.cell with held := some { h with count := h.count + 1 } }
                     cq := t.cq })

/-- At the boundary that brings the wait count to WAIT_LIMIT the held access ends as WAIT_TIMEOUT with the
outcome of a faulted access (R15, R16, R168); at the boundary that brings the coalescing timer to its
length the timer expires (R142). That the rows WAIT_TIMEOUT and COALESCING_TIMER_EXPIRY are that whole tick
boundary, with the divider, the tick's length and the other timer, is the model's reading (DEDUCED,
notes/assumptions/6.md). -/
def Obligations.TimeoutAndExpiryAtTheirTick : Prop :=
  ∀ s : State, inReset s = false →
    (∀ h, s.cell.held = some h → isMarked s.issue.marks h.cell = true →
      s.port.waitLimit.toNat ≤ h.count + 1 →
      ∃ t, exec .waitTimeout s = .next t ∧ exec .tickBoundary s = .next t ∧
        FaultEntered .waitTimeout (if h.kind = .read then 0x14#8 else 0x17#8)
          { s.port with divider := 0, tickLength := s.port.timebase.toNat } t.port ∧
        t = { s with
              port := t.port
              cq := t.cq
              cell := { s.cell with held := none,
                                    readOpen := if h.kind = .read then false else s.cell.readOpen }
              readData := if h.kind = .read then some 0#8 else s.readData }) ∧
    (∀ n l, s.cq.timer = .running n l → l ≤ n + 1 →
      ∃ t, exec .coalescingTimerExpiry s = .next t ∧ exec .tickBoundary s = .next t ∧
        t.cq = { s.cq with timer := .idle, expired := true } ∧
        t = { s with port := t.port, cell := t.cell, cq := t.cq, readData := t.readData } ∧
        (s.cell.held = none →
          t.cell = s.cell ∧ t.readData = s.readData ∧
          t.port = { s.port with divider := 0, tickLength := s.port.timebase.toNat }))

/-- A held access whose cell stays marked is still held after each tick boundary but the one that brings
its count to WAIT_LIMIT, and ends there as WAIT_TIMEOUT (R13, R15); a coalescing timer of length L just
started expires at the L-th boundary and not before (R142). -/
def Obligations.TimersEndAtTheirLength : Prop :=
  ∀ s : State, inReset s = false →
    (∀ h, s.cell.held = some h → isMarked s.issue.marks h.cell = true →
      h.count < s.port.waitLimit.toNat →
      (∀ k, h.count + k < s.port.waitLimit.toNat →
        ∃ t, runCommands (List.replicate k .tickBoundary) s = some t ∧
          t.cell.held = some { h with count := h.count + k } ∧
          t.port.faultCode = s.port.faultCode) ∧
      ∃ t, runCommands (List.replicate (s.port.waitLimit.toNat - h.count) .tickBoundary) s = some t ∧
        t.cell.held = none ∧ (s.port.faultCode = .none → t.port.faultCode = .waitTimeout)) ∧
    (∀ l, s.cq.timer = .running 0 l → 0 < l →
      (∀ k, k < l → ∃ t, runCommands (List.replicate k .tickBoundary) s = some t ∧
        t.cq = { s.cq with timer := .running k l }) ∧
      ∃ t, runCommands (List.replicate l .tickBoundary) s = some t ∧
        t.cq = { s.cq with timer := .idle, expired := true })

/-! ## The cell access path -/

/-- A write of CELL_ADDR selects the cell and closes an open read (R6). A read of CELL_DATA byte 0 of an
unmarked cell in READY latches the whole value, answers its bits 7:0 and opens a read; a read of byte 3
answers the latch and completes an open read, with auto-increment (R7, R8). -/
def Obligations.CellSelectionAndReads : Prop :=
  ∀ s : State, takesAccess s = true →
    (∀ b, exec (.cellAddrWrite b) s =
      .next { s with cell := { s.cell with addr := b, readOpen := false } }) ∧
    (s.engine.state = .ready → isMarked s.issue.marks s.cell.addr = false →
      exec .cellDataRead s =
        .next { s with cell := { s.cell with latch := (s.cellAt s.cell.addr).value, readOpen := true }
                       readData := some ((s.cellAt s.cell.addr).value.extractLsb' 0 8) }) ∧
    (s.cell.readOpen = true → exec .cellReadComplete s =
      .next { s with cell := { s.cell with
                       readOpen := false,
                       addr := if s.cell.autoInc then s.cell.addr + 1#8 else s.cell.addr }
                     readData := some (s.cell.latch.extractLsb' 24 8) }) ∧
    (s.cell.readOpen = false → exec .cellReadComplete s =
      .next { s with readData := some (s.cell.latch.extractLsb' 24 8) })

/-- A write of CELL_DATA byte 3 to an unmarked cell in READY stores the staged bytes and the byte written
with tag VALID in the selected cell, in no other, and advances CELL_ADDR under auto-increment
(R10). -/
def Obligations.CellWriteStoresStagedValue : Prop :=
  ∀ (s : State) (b : Byte), HostReady s → CellsSound s → isMarked s.issue.marks s.cell.addr = false →
    ∃ t, exec (.cellWrite b) s = .next t ∧
      (∀ n, t.cellAt n =
        if n = s.cell.addr then ⟨(b ++ s.cell.staging : BitVec 32), .valid⟩ else s.cellAt n) ∧
      t = { s with cell := { s.cell with
                     cells := t.cell.cells,
                     addr := if s.cell.autoInc then s.cell.addr + 1#8 else s.cell.addr } }

/-- In STARTING a cell access ends at once as NOT_READY, and in READY with WAIT_LIMIT 0 an access of a
marked cell ends at once as CELL_BUSY: a read answers 0x00 and closes any open read, a write is dropped,
and nothing else changes but the fault record (R12, R16, R17, R168). -/
def Obligations.CellAccessFaults : Prop :=
  ∀ (s : State) (f : PortFault), takesAccess s = true →
    (s.engine.state = .starting ∧ f = .notReady ∨
     s.engine.state = .ready ∧ isMarked s.issue.marks s.cell.addr = true ∧ s.port.waitLimit = 0#8 ∧
       f = .cellBusy) →
    (∃ t, exec .cellDataRead s = .next t ∧ FaultEntered f 0x14#8 s.port t.port ∧
      t = { s with port := t.port, cell := { s.cell with readOpen := false },
                   readData := some 0#8 }) ∧
    ∀ b, ∃ t, exec (.cellWrite b) s = .next t ∧ FaultEntered f 0x17#8 s.port t.port ∧
      t = { s with port := t.port }

/-- In READY with WAIT_LIMIT 1 to 255, an access of a marked cell becomes held with a wait count of 0, and
RDY goes low; a held write keeps its byte (R13, R163). That the data lines carry nothing while a read is
held is the model's own field (notes/assumptions/5.md). -/
def Obligations.MarkedCellAccessIsHeld : Prop :=
  ∀ s : State, HostReady s → isMarked s.issue.marks s.cell.addr = true → s.port.waitLimit ≠ 0#8 →
    (∃ t, exec .cellDataRead s = .next t ∧ rdyLow t = true ∧
      t = { s with cell := { s.cell with held := some ⟨.read, s.cell.addr, 0⟩ }, readData := none }) ∧
    ∀ b, ∃ t, exec (.cellWrite b) s = .next t ∧ rdyLow t = true ∧
      t = { s with cell := { s.cell with held := some ⟨.write b, s.cell.addr, 0⟩ } }

/-- While an access is held, and while the part is held reset, no host access is taken (R163, R170). -/
def Obligations.NoAccessTakenWhileHeldOrReset : Prop :=
  ∀ (c : Instr) (s : State), isHostAccess c = true →
    s.cell.held ≠ none ∨ s.engine.por = true ∨ s.engine.pin = true → exec c s = .next s

/-- CELL_EMPTY and CELL_POISON of the cell in CMD_ARG: refused in STARTING and for a marked cell;
otherwise the cell's value becomes 0 and its tag EMPTY or POISON, and no other cell changes (R18). -/
def Obligations.CellCommandsSetTag : Prop :=
  ∀ s : State, takesAccess s = true →
    let refused (r : CmdResult) : State := { s with port := { s.port with cmdResult := r } }
    let takes (c : Instr) (tag : Tag) : Prop :=
      (s.engine.state = .starting → exec c s = .next (refused .refusedStarting)) ∧
      (s.engine.state = .ready → isMarked s.issue.marks s.port.cmdArg = true →
        exec c s = .next (refused .refusedBusy)) ∧
      (s.engine.state = .ready → isMarked s.issue.marks s.port.cmdArg = false → CellsSound s →
        ∃ t, exec c s = .next t ∧
          (∀ n, t.cellAt n = if n = s.port.cmdArg then ⟨0#32, tag⟩ else s.cellAt n) ∧
          t = { s with cell := { s.cell with cells := t.cell.cells }
                       port := { s.port with cmdResult := .accepted } })
    takes .cellEmpty .empty ∧ takes .cellPoison .poison

/-! ## The register window -/

/-- A write of a register that reads back: the address reads what the register stores of the byte, in both
engine states (R162, R165, R176), and every other address reads as before, but for EVENT_CODE after a
write of the enables or levels (R154, R155). -/
def Obligations.PlainRegistersReadBack : Prop :=
  ∀ (s : State) (a : WindowAddr) (b : Byte), takesAccess s = true → storedPlain a = true →
    ∃ t, exec (.registerWrite a b) s = .next t ∧
      readWindow t a = storedByte a b ∧
      (∀ a', a' ≠ a → ¬(a' = 0x54#7 ∧ a ∈ [0x51#7, 0x52#7, 0x53#7]) →
        readWindow t a' = readWindow s a') ∧
      t = { s with
            cell := { s.cell with autoInc := t.cell.autoInc }
            port := { s.port with cmdArg := t.port.cmdArg, timebase := t.port.timebase,
                                  waitLimit := t.port.waitLimit }
            cq := { s.cq with coalesceTime := t.cq.coalesceTime }
            event := { s.event with enable := t.event.enable, level0 := t.event.level0,
                                    level1 := t.event.level1, global := t.event.global }
            jobStage := t.jobStage
            substitute := t.substitute }

/-- A write of a read-only register or of an unassigned address is ignored (R162); a write of CELL_DATA
byte 0, 1 or 2 stores the matching byte of the write staging and does nothing else (R9). -/
def Obligations.IgnoredWritesAndStaging : Prop :=
  ∀ (s : State) (b : Byte), takesAccess s = true →
    (∀ a, ignoresWrite a = true → exec (.registerWrite a b) s = .next s) ∧
    ∀ k : Fin 3, ∃ t, exec (.registerWrite (0x14#7 + BitVec.ofNat 7 k.val) b) s = .next t ∧
      (∀ i : Fin 3, t.cell.staging.extractLsb' (8 * i.val) 8 =
        if i = k then b else s.cell.staging.extractLsb' (8 * i.val) 8) ∧
      t = { s with cell := { s.cell with staging := t.cell.staging } }

/-- A REGISTER_WRITE whose address has a row of its own acts as that row, and a byte written to CMD acts
as the row of its command code, the queue in bit 0; the five RESUME rows are one write, told apart by
CMD_ARG. This is the model's reading of ill-formed operands (notes/assumptions/7.md). -/
def Obligations.WindowWriteActsAsItsRow : Prop :=
  ∀ (s : State) (b : Byte),
    exec (.registerWrite 0x04#7 b) s = exec (.unknownCommand b) s ∧
    exec (.registerWrite 0x0E#7 b) s = exec (.arbCtrlWrite b) s ∧
    exec (.registerWrite 0x10#7 b) s = exec (.cellAddrWrite b) s ∧
    exec (.registerWrite 0x17#7 b) s = exec (.cellWrite b) s ∧
    exec (.registerWrite 0x24#7 b) s = exec (.haltMaskWrite .q0 b) s ∧
    exec (.registerWrite 0x34#7 b) s = exec (.haltMaskWrite .q1 b) s ∧
    exec (.registerWrite 0x2F#7 b) s = exec (.commit .q0 b) s ∧
    exec (.registerWrite 0x3F#7 b) s = exec (.commit .q1 b) s ∧
    exec (.registerWrite 0x4A#7 b) s = exec (.cqThresholdWrite b) s ∧
    exec (.registerWrite 0x4C#7 b) s = exec (.cqPop b) s ∧
    exec (.registerWrite 0x55#7 b) s = exec (.evtAck b) s ∧
    exec (.registerWrite 0x5B#7 b) s = exec (.faultClear b) s ∧
    (let q := if b.getLsbD 0 then QueueId.q1 else QueueId.q0
     let code := b.extractLsb' 4 4
     (code = 0x1#4 → exec (.unknownCommand b) s = exec (.resumePlain q) s) ∧
     (code = 0x2#4 → exec (.unknownCommand b) s = exec (.pause q) s) ∧
     (code = 0x3#4 → exec (.unknownCommand b) s = exec (.flush q) s) ∧
     (code = 0x4#4 → exec (.unknownCommand b) s = exec (.clearSticky q) s) ∧
     (code = 0x8#4 → exec (.unknownCommand b) s = exec .cellEmpty s) ∧
     (code = 0x9#4 → exec (.unknownCommand b) s = exec .cellPoison s) ∧
     (code = 0xF#4 → exec (.unknownCommand b) s = exec .softReset s)) ∧
    ∀ q, exec (.resumeRetry q) s = exec (.resumePlain q) s ∧
      exec (.resumeSkip q) s = exec (.resumePlain q) s ∧
      exec (.resumeSubstitute q) s = exec (.resumePlain q) s ∧
      exec (.resumeOtherArgument q) s = exec (.resumePlain q) s

/-- A write of HALT_MASK stores bits 4:0, in every queue state and in both engine states; bits 5 and 6 read
1 and bit 7 reads 0; jobs in flight keep the mask they captured (R83, R120). -/
def Obligations.HaltMaskWriteStoresFiveBits : Prop :=
  ∀ (s : State) (q : QueueId) (b : Byte), takesAccess s = true →
    ∃ t, exec (.haltMaskWrite q b) s = .next t ∧
      readWindow t (if q = .q0 then 0x24#7 else 0x34#7) = 0x60#8 ||| (b &&& 0x1F#8) ∧
      t = withStarved (s.setQueue q { s.queue q with haltMask := b.extractLsb' 0 5 })
            t.event.starved

/-- A write of ARB_CTRL stores the preferred queue and K and returns the starvation counter to 0 (R106); a
write of CQ_THRESHOLD brings its value into 1 to 32 (R141); a write of FAULT_CLEAR returns the fault
record to 0, and PORT_FAULT stops being pending (R169). -/
def Obligations.ControlWritesStoreTheirFields : Prop :=
  ∀ (s : State) (b : Byte), takesAccess s = true →
    (∃ t, exec (.arbCtrlWrite b) s = .next t ∧ readWindow t 0x0E#7 = b &&& 0x8F#8 ∧
      t = { s with issue := { s.issue with
                     preferred := if b.getLsbD 7 then .q1 else .q0,
                     guardK := b.extractLsb' 0 4, starvation := 0 } }) ∧
    (∃ t, exec (.cqThresholdWrite b) s = .next t ∧
      (readWindow t 0x4A#7).toNat = max 1 (min 32 b.toNat) ∧
      t = { s with cq := { s.cq with threshold := t.cq.threshold } }) ∧
    (∃ t, exec (.faultClear b) s = .next t ∧
      readWindow t 0x58#7 = 0#8 ∧ readWindow t 0x59#7 = 0#8 ∧ readWindow t 0x5A#7 = 0#8 ∧
      sourcePending t 1 = false ∧
      t = { s with port := { s.port with faultCode := .none, faultAddr := 0#8,
                                         faultCount := 0#8 } })

/-- A commit in READY with room in the ring puts the staged descriptor at the tail with the next sequence
number, in every queue state (R68); in STARTING it is dropped with NOT_READY, and with 16 descriptors in
the ring with QUEUE_FULL (R69). -/
def Obligations.CommitAppendsOrFaults : Prop :=
  ∀ (s : State) (q : QueueId) (b : Byte), takesAccess s = true →
    let Q := s.queue q
    let addr := if q = .q0 then 0x2F#8 else 0x3F#8
    (s.engine.state = .ready → Q.ring.length < 16 →
      ∃ t, exec (.commit q b) s = .next t ∧
        t = withStarved (s.setQueue q
              { Q with ring := Q.ring ++ [⟨s.jobStage, Q.nextSeq⟩], nextSeq := Q.nextSeq + 1#8 })
              t.event.starved) ∧
    (s.engine.state = .starting →
      ∃ t, exec (.commit q b) s = .next t ∧ FaultEntered .notReady addr s.port t.port ∧
        t = { s with port := t.port }) ∧
    (s.engine.state = .ready → 16 ≤ Q.ring.length →
      ∃ t, exec (.commit q b) s = .next t ∧ FaultEntered .queueFull addr s.port t.port ∧
        t = { s with port := t.port })

/-! ## Commands on a queue -/

/-- PAUSE in each queue state (R74). -/
def Obligations.PauseByQueueState : Prop :=
  ∀ (s : State) (q : QueueId), HostReady s →
    let Q := s.queue q
    let result (r : CmdResult) (u : State) : State := { u with port := { u.port with cmdResult := r } }
    (Q.state = .active → Q.inflight = 0 →
      ∃ t, exec (.pause q) s = .next t ∧
        t = withStarved (result .accepted
              ({ s with event := { s.event with paused := true } }.setQueue q
                { Q with state := .paused })) t.event.starved) ∧
    (Q.state = .active → 0 < Q.inflight →
      ∃ t, exec (.pause q) s = .next t ∧
        t = withStarved (result .accepted (s.setQueue q { Q with state := .pausing }))
              t.event.starved) ∧
    (Q.state = .paused ∨ Q.state = .pausing ∨ (∃ h, Q.state = .draining h) →
      exec (.pause q) s = .next (result .accepted s)) ∧
    (∀ h, Q.state = .halted h → exec (.pause q) s = .next (result .refusedState s))

/-- RESUME by queue state and argument, but for the recovery actions on a HALTED queue (R75). -/
def Obligations.ResumeByQueueState : Prop :=
  ∀ (s : State) (q : QueueId), HostReady s →
    let Q := s.queue q
    let stopping := Q.state = .active ∨ Q.state = .pausing ∨ ∃ h, Q.state = .draining h
    let result (r : CmdResult) (u : State) : State := { u with port := { u.port with cmdResult := r } }
    (s.port.cmdArg = 0#8 → Q.state = .paused →
      ∃ t, exec (.resumePlain q) s = .next t ∧
        t = withStarved (result .accepted (s.setQueue q { Q with state := .active }))
              t.event.starved) ∧
    (s.port.cmdArg = 0#8 → stopping → exec (.resumePlain q) s = .next (result .refusedState s)) ∧
    (s.port.cmdArg = 0#8 → ∀ h, Q.state = .halted h →
      exec (.resumePlain q) s = .next (result .refusedArg s)) ∧
    (∀ c, (c = .resumeRetry q ∧ s.port.cmdArg = 1#8 ∨ c = .resumeSkip q ∧ s.port.cmdArg = 2#8 ∨
        c = .resumeSubstitute q ∧ s.port.cmdArg = 3#8) →
      (Q.state = .paused → exec c s = .next (result .refusedArg s)) ∧
      (stopping → exec c s = .next (result .refusedState s))) ∧
    (4 ≤ s.port.cmdArg.toNat →
      exec (.resumeOtherArgument q) s = .next (result .refusedArg s))

/-- FLUSH discards the waiting jobs of a PAUSED queue, and of a HALTED one with its held job, counts them in
FLUSH_COUNT and leaves the queue PAUSED; in the other states it is refused (R76). CLEAR_STICKY clears the
sticky flags in every state and nothing else (R77). -/
def Obligations.FlushAndClearSticky : Prop :=
  ∀ (s : State) (q : QueueId), HostReady s →
    let Q := s.queue q
    let result (r : CmdResult) (u : State) : State := { u with port := { u.port with cmdResult := r } }
    let flushed (n : Nat) : State :=
      result .accepted (s.setQueue q
        { Q with ring := [], retry := none, state := .paused, flushCount := n })
    (Q.state = .paused → Q.retry = none → exec (.flush q) s = .next (flushed Q.ring.length)) ∧
    (Q.state = .paused → ∀ j, Q.retry = some j →
      exec (.flush q) s = .next (flushed (Q.ring.length + 1))) ∧
    (∀ h, Q.state = .halted h → Q.retry = none →
      exec (.flush q) s = .next (flushed (Q.ring.length + 1))) ∧
    (Q.state = .active ∨ Q.state = .pausing ∨ (∃ h, Q.state = .draining h) →
      exec (.flush q) s = .next (result .refusedState s)) ∧
    exec (.clearSticky q) s = .next (result .accepted (s.setQueue q { Q with sticky := 0#5 }))

/-- RESUME RETRY on a HALTED queue: the held job becomes the head, with its descriptor and sequence number,
and the queue ACTIVE; no record is posted and no slot taken (R122). -/
def Obligations.RetryPutsHeldJobAtHead : Prop :=
  ∀ (s : State) (q : QueueId) (h : HeldJob), HostReady s → s.port.cmdArg = 1#8 →
    (s.queue q).state = .halted h →
    ∃ t, exec (.resumeRetry q) s = .next t ∧ headJob (t.queue q) = some h.job ∧
      isHalted (t.queue q) = false ∧
      t = withStarved ({ s with port := { s.port with cmdResult := .accepted } }.setQueue q
            { s.queue q with retry := some h.job, state := .active }) t.event.starved

/-- RESUME SKIP on a HALTED queue: with a free slot a SKIPPED record is posted, the held job is dropped and
the queue becomes ACTIVE; with none it is refused with REFUSED_BUSY (R124). -/
def Obligations.SkipPostsSkippedRecord : Prop :=
  ∀ (s : State) (q : QueueId) (h : HeldJob), HostReady s → s.port.cmdArg = 2#8 →
    (s.queue q).state = .halted h →
    (s.cq.ring.length + s.cq.reserved < 32 →
      ∃ t, exec (.resumeSkip q) s = .next t ∧ Posted (heldOf .skipped q h none) s.cq t.cq ∧
        t = withStarved ({ s with port := { s.port with cmdResult := .accepted },
                                  cq := t.cq }.setQueue q
              { s.queue q with state := .active }) t.event.starved) ∧
    (32 ≤ s.cq.ring.length + s.cq.reserved →
      exec (.resumeSkip q) s = .next { s with port := { s.port with cmdResult := .refusedBusy } })

/-- RESUME SUBSTITUTE on a HALTED queue: the requirements of R125 in their order, and when all hold the
destination cell takes the SUBSTITUTE register with tag VALID, a SUBSTITUTED record is posted, the held
job is dropped and the queue becomes ACTIVE (R126). -/
def Obligations.SubstituteWritesDestination : Prop :=
  ∀ (s : State) (q : QueueId) (h : HeldJob), HostReady s → s.port.cmdArg = 3#8 →
    (s.queue q).state = .halted h →
    let Q := s.queue q
    let n := resolve Q (h.job.desc.extractLsb' 6 5)
    let takes : Prop := countOf h.job.desc = 1 ∧
      (∃ o, opOfCode (h.job.desc.extractLsb' 0 6) = some o ∧ o ≠ .setframe ∧ o ≠ .fence ∧ o ≠ .clear) ∧
      h.conds ≠ badJobBit
    let refused (r : CmdResult) : State := { s with port := { s.port with cmdResult := r } }
    (¬takes → exec (.resumeSubstitute q) s = .next (refused .refusedArg)) ∧
    (takes → 32 ≤ s.cq.ring.length + s.cq.reserved ∨ isMarked s.issue.marks n = true →
      exec (.resumeSubstitute q) s = .next (refused .refusedBusy)) ∧
    (takes → s.cq.ring.length + s.cq.reserved < 32 → isMarked s.issue.marks n = false →
      CellsSound s →
      ∃ t, exec (.resumeSubstitute q) s = .next t ∧
        (∀ k, t.cellAt k = if k = n then ⟨s.substitute, .valid⟩ else s.cellAt k) ∧
        Posted (heldOf .substituted q h (some s.substitute)) s.cq t.cq ∧
        t = withStarved ({ s with port := { s.port with cmdResult := .accepted }
                                  cq := t.cq
                                  cell := { s.cell with cells := t.cell.cells } }.setQueue q
              { Q with state := .active }) t.event.starved)

/-- A byte with an undefined command code changes nothing but CMD_RESULT, in both engine states; in STARTING
every known command is refused with REFUSED_STARTING and changes nothing else (R166). -/
def Obligations.UnknownAndStartingCommandsAreRefused : Prop :=
  ∀ s : State, takesAccess s = true →
    let result (r : CmdResult) : State := { s with port := { s.port with cmdResult := r } }
    (∀ b : Byte, b.extractLsb' 4 4 ∉ [0x1#4, 0x2#4, 0x3#4, 0x4#4, 0x8#4, 0x9#4, 0xF#4] →
      exec (.unknownCommand b) s = .next (result .unknownCommand)) ∧
    (s.engine.state = .starting →
      ∀ q, ∀ c ∈ [Instr.resumePlain q, .resumeRetry q, .resumeSkip q, .resumeSubstitute q,
          .resumeOtherArgument q, .pause q, .flush q, .clearSticky q, .cellEmpty, .cellPoison,
          .softReset],
        exec c s = .next (result .refusedStarting))

/-! ## Issue -/

/-- The model's test of a head is the eight conditions of R88, and an issuable head that no conflicting
head of the other queue faces issues: it leaves its queue, and the other queue stands as it was. -/
def Obligations.IssuableIsTheEightConditions : Prop :=
  ∀ (s : State) (q : QueueId),
    (issuable s q = true ↔ ∃ j, MayIssue s q j) ∧
    ∀ j, IssuesAlone s q j → ∃ t, exec (.issue q) s = .next t ∧ HeadTaken s t q

/-- When both heads are issuable and conflict, the arbiter's winner issues and the starvation counter
becomes what its table gives; the other head stays (R104, R105). The winner's issue is whole: a failed
check halts it, a control job completes, and any other job starts, from the state with that counter
(R94). That ISSUE names the head examined, and so may issue the other queue's head, is the model's reading
(DEDUCED, notes/assumptions/8.md). -/
def Obligations.ArbiterChoosesTheWinner : Prop :=
  ∀ (s : State) (q : QueueId) (j j' : Job), MayIssue s q j → MayIssue s q.other j' →
    Conflict s q j j' →
    ∃ t, exec (.issue q) s = .next t ∧
      (s.issue.guardK = 0#4 → HeadTaken s t s.issue.preferred ∧ t.issue.starvation = 0) ∧
      (s.issue.guardK ≠ 0#4 → s.issue.starvation < s.issue.guardK.toNat →
        HeadTaken s t s.issue.preferred ∧ t.issue.starvation = s.issue.starvation + 1) ∧
      (s.issue.guardK ≠ 0#4 → s.issue.starvation = s.issue.guardK.toNat →
        HeadTaken s t s.issue.preferred.other ∧ t.issue.starvation = 0) ∧
      ∀ w jw, Wins s w → headJob (s.queue w) = some jw →
        IssueDone { s with issue := { s.issue with starvation := t.issue.starvation } } w jw t

/-- An issue whose checks stop the job, in the order BAD_JOB, EMPTY_SOURCE, POISON_IN in the mask, holds it
with that one condition: HALTED with its record posted when the queue has nothing in flight, else
DRAINING with the reservation kept; no cell, mark, unit or frame pointer changes (R36, R97, R113). -/
def Obligations.FailedCheckHaltsAtIssue : Prop :=
  ∀ (s : State) (q : QueueId) (j : Job) (c : CondSet), IssuesAlone s q j → CheckFails s q j c →
    ∃ t, exec (.issue q) s = .next t ∧ HaltsAtIssue s q j c t

/-- A SETFRAME sets the pointer FLAG selects to bits 4:0 of its immediate, and a FENCE raises SIGNAL when its
SIGNAL field is 1; each completes at its issue, its reservation filled or released by report mode
(R48, R49, R98, R99). -/
def Obligations.ControlJobsCompleteAtIssue : Prop :=
  ∀ (s : State) (q : QueueId) (j : Job), IssuesAlone s q j →
    jobOp j.desc = some .setframe ∨ jobOp j.desc = some .fence →
    ∃ t, exec (.issue q) s = .next t ∧ ControlDone s q j t

/-- A job that passes its checks starts: a slot reserved, the mask and the sources captured, the destination
cells marked, the unit capacity claimed, an entry made and the in-flight count one higher
(R91, R94, R95, R96). -/
def Obligations.PassedChecksStartTheJob : Prop :=
  ∀ (s : State) (q : QueueId) (j : Job) (o : Op) (cl : Claim), IssuesAlone s q j →
    ChecksPass s q j o cl →
    ∃ t, exec (.issue q) s = .next t ∧ StartsJob s q j o cl t

/-! ## Completion -/

/-- A completion that writes: every destination cell takes its element's result, all together, and no other
cell changes; the marks clear, the capacity and the entry go, the sticky flags of the job's conditions
are set and the in-flight count falls by one (R91, R101, R102, R112). An access held on one of the job's
cells is carried out over its result, and a held write then replaces that one
(R14, Obligations.HeldAccessCarriedOutAtCompletion). -/
def Obligations.CompletionWritesEveryElement : Prop :=
  ∀ (s : State) (n : Fin 4) (e : InFlight), CellsSound s → EntrySound e →
    s.issue.inflight[n.val]? = some e →
    e.guarded = false ∨ jobConds e &&& e.mask = 0#7 →
    (∀ h, s.cell.held = some h → isMarked s.issue.marks h.cell = true) →
    ∃ t, exec (.jobCompletion n) s = .next t ∧
      (∀ (i : Nat) (cell : CellNo), e.dests[i]? = some cell →
        (∀ h b, s.cell.held = some h → h.kind = .write b → h.cell ≠ cell) →
        ∃ r : ElemResult, (jobResults e)[i]? = some r ∧ t.cellAt cell = r.cell) ∧
      (∀ cell : CellNo, cell ∉ e.dests → t.cellAt cell = s.cellAt cell) ∧
      ((∀ h, s.cell.held = some h → h.cell ∉ e.dests) →
        t.cell = { s.cell with cells := t.cell.cells } ∧ t.readData = s.readData) ∧
      (∀ cell : CellNo, isMarked t.issue.marks cell = true ↔
        isMarked s.issue.marks cell = true ∧ cell ∉ e.dests) ∧
      t.issue.inflight = s.issue.inflight.eraseIdx n.val ∧
      (t.issue.tu, t.issue.su, t.issue.pu) = released s.issue e.claim ∧
      t.issue = { s.issue with marks := t.issue.marks, inflight := t.issue.inflight,
                               tu := t.issue.tu, su := t.issue.su, pu := t.issue.pu } ∧
      (let Q := s.queue e.queue
       t.queue e.queue =
         { Q with sticky := Q.sticky ||| (jobConds e).extractLsb' 0 5, inflight := Q.inflight - 1,
                  state := (t.queue e.queue).state, haltCond := (t.queue e.queue).haltCond,
                  haltTag := (t.queue e.queue).haltTag, haltSeq := (t.queue e.queue).haltSeq }) ∧
      t.queue e.queue.other = s.queue e.queue.other ∧
      t = { s with cell := t.cell, issue := t.issue, q0 := t.q0, q1 := t.q1, cq := t.cq
                   event := { s.event with paused := t.event.paused, starved := t.event.starved }
                   readData := t.readData }

/-- What a completion that writes does to its queue's state and to the completion queue: its reservation
ends by report mode (R136); the last completion of a PAUSING queue makes it PAUSED and raises PAUSED
(R75); that of a DRAINING queue makes it HALTED, the held job's record posted after the job's own
(R78, R114); any other leaves the state as it is. -/
def Obligations.LastCompletionEndsPausingOrDraining : Prop :=
  ∀ (s : State) (n : Fin 4) (e : InFlight), s.issue.inflight[n.val]? = some e →
    e.guarded = false ∨ jobConds e &&& e.mask = 0#7 → 0 < s.cq.reserved →
    let q := e.queue
    let Q := s.queue q
    let echo : Option Raw :=
      match (jobResults e).head? with
      | some r => if r.cell.tag = .valid then some r.cell.value else none
      | none => none
    ∃ t c, exec (.jobCompletion n) s = .next t ∧
      ReservationEnded q e.job (jobConds e) echo { s.cq with reserved := s.cq.reserved - 1 } c ∧
      (1 < Q.inflight ∨ Q.state = .active →
        t.cq = c ∧ (t.queue q).state = Q.state ∧ t.event.paused = s.event.paused) ∧
      (Q.inflight = 1 → Q.state = .pausing →
        t.cq = c ∧ (t.queue q).state = .paused ∧ t.event.paused = true) ∧
      (Q.inflight = 1 → ∀ h, Q.state = .draining h →
        Posted (heldOf .halted q h none) { c with reserved := c.reserved - 1 } t.cq ∧
        t.event.paused = s.event.paused ∧
        t.queue q = haltedWith h
          { Q with sticky := Q.sticky ||| (jobConds e).extractLsb' 0 5, inflight := 0 })

/-- An execution halt: a guarded job whose condition set meets its captured mask writes no cell; its marks,
capacity and entry go, its queue has nothing in flight, the job is held with its whole condition set, the
HALTED record fills its reservation and no sticky flag is set (R91, R101, R115). Only a write held on one
of the job's cells is then carried out (R14, Obligations.HeldAccessCarriedOutAtCompletion). -/
def Obligations.ExecutionHaltWritesNothing : Prop :=
  ∀ (s : State) (n : Fin 4) (e : InFlight), QueuesSound s →
    s.issue.inflight[n.val]? = some e →
    e.guarded = true → jobConds e &&& e.mask ≠ 0#7 →
    (∀ h, s.cell.held = some h → isMarked s.issue.marks h.cell = true) →
    let q := e.queue
    let h : HeldJob := { job := e.job, conds := jobConds e, atIssue := false }
    ∃ t, exec (.jobCompletion n) s = .next t ∧
      ((∀ a, s.cell.held = some a → a.cell ∉ e.dests) →
        t.cell = s.cell ∧ t.readData = s.readData) ∧
      (CellsSound s → ∀ cell : CellNo,
        (∀ a b, s.cell.held = some a → a.kind = .write b → a.cell = cell → cell ∉ e.dests) →
        t.cellAt cell = s.cellAt cell) ∧
      (∀ cell : CellNo, isMarked t.issue.marks cell = true ↔
        isMarked s.issue.marks cell = true ∧ cell ∉ e.dests) ∧
      t.issue.inflight = s.issue.inflight.eraseIdx n.val ∧
      (t.issue.tu, t.issue.su, t.issue.pu) = released s.issue e.claim ∧
      t.issue = { s.issue with marks := t.issue.marks, inflight := t.issue.inflight,
                               tu := t.issue.tu, su := t.issue.su, pu := t.issue.pu } ∧
      Posted (heldOf .halted q h none) { s.cq with reserved := s.cq.reserved - 1 } t.cq ∧
      t = withStarved ({ s with cell := t.cell, readData := t.readData, issue := t.issue,
                                cq := t.cq }.setQueue q
            (haltedWith h { s.queue q with inflight := 0 })) t.event.starved

/-- An access held on a cell of the completing job is carried out in that happening, after the job's own
writes, or over the unchanged cell when the job halts: a read latches and answers, a write stores, each
with its auto-increment effect, and RDY is released (R14). -/
def Obligations.HeldAccessCarriedOutAtCompletion : Prop :=
  ∀ (s : State) (n : Fin 4) (e : InFlight) (h : HeldAccess) (i : Nat), CellsSound s → MarksSound s →
    EntrySound e → s.issue.inflight[n.val]? = some e → s.cell.held = some h →
    e.dests[i]? = some h.cell →
    let halts : Prop := e.guarded = true ∧ jobConds e &&& e.mask ≠ 0#7
    ∃ t left, exec (.jobCompletion n) s = .next t ∧ rdyLow t = false ∧
      (halts → left = s.cellAt h.cell) ∧
      (¬halts → ∃ r : ElemResult, (jobResults e)[i]? = some r ∧ left = r.cell) ∧
      (h.kind = .read → t.cellAt h.cell = left ∧ t.readData = some (left.value.extractLsb' 0 8) ∧
        t.cell = { s.cell with cells := t.cell.cells, held := none, latch := left.value,
                               readOpen := true }) ∧
      (∀ b, h.kind = .write b →
        t.cellAt h.cell = ⟨(b ++ s.cell.staging : BitVec 32), .valid⟩ ∧ t.readData = s.readData ∧
        t.cell = { s.cell with
                   cells := t.cell.cells, held := none,
                   addr := if s.cell.autoInc then s.cell.addr + 1#8 else s.cell.addr }) ∧
      t.port = s.port

/-! ## The completion queue and the events -/

/-- A read of CQ_HEAD byte 0 copies the head record, or zeros from an empty ring, into the head read latch
and answers its byte 0; bytes 1 to 7 then read from the latch, and nothing else changes (R138). -/
def Obligations.CqHeadReadLatchesRecord : Prop :=
  ∀ s : State, takesAccess s = true →
    let v : BitVec 64 := match s.cq.ring with
      | [] => 0#64
      | r :: _ => recordBytes r
    ∃ t, exec .cqHeadRead s = .next t ∧
      t = { s with cq := { s.cq with headLatch := v }, readData := some (v.extractLsb' 0 8) } ∧
      ∀ i : Fin 8, readWindow t (0x40#7 + BitVec.ofNat 7 i.val) = v.extractLsb' (8 * i.val) 8

/-- The layout of a completion record (R179). -/
def Obligations.RecordLayout : Prop :=
  ∀ r : Record,
    let v := recordBytes r
    v.extractLsb' 0 3 = (match r.status with
      | .done => 1#3 | .halted => 2#3 | .skipped => 3#3 | .substituted => 4#3) ∧
    v.getLsbD 3 = (match r.queue with | .q0 => false | .q1 => true) ∧
    v.getLsbD 4 = r.echoValid ∧
    v.getLsbD 5 = r.haltedAtIssue ∧
    v.extractLsb' 6 2 = 0#2 ∧
    v.extractLsb' 8 8 = r.seq ∧
    v.extractLsb' 16 8 = r.hostTag ∧
    v.extractLsb' 24 7 = r.conds ∧
    v.getLsbD 31 = false ∧
    v.extractLsb' 32 32 = r.echo

/-- A pop removes the head record and, when it empties the ring, stops the coalescing timer and clears the
expiry flag; with the ring empty it ends as CQ_EMPTY_POP (R139, R143). -/
def Obligations.PopRemovesHeadOrFaults : Prop :=
  ∀ (s : State) (b : Byte), takesAccess s = true →
    (∀ r r' rs, s.cq.ring = r :: r' :: rs →
      ∃ t, exec (.cqPop b) s = .next t ∧
        t = withStarved { s with cq := { s.cq with ring := r' :: rs } } t.event.starved) ∧
    (∀ r, s.cq.ring = [r] →
      ∃ t, exec (.cqPop b) s = .next t ∧
        t = withStarved { s with cq := { s.cq with ring := [], timer := .idle, expired := false } }
              t.event.starved) ∧
    (s.cq.ring = [] →
      ∃ t, exec (.cqPop b) s = .next t ∧ FaultEntered .cqEmptyPop 0x4C#8 s.port t.port ∧
        t = { s with port := t.port })

/-- What the status addresses read. CELL_TAG shows the selected cell's tag and mark, and 0x00 in STARTING
(R11); CELL_DATA bytes 1 to 3 the read latch (R8); a queue's block its state and counts, its masks, flags,
halt information, frame pointers and flush count (R82, R83); then CMD_RESULT (R167), the fault record
(R168), CQ_COUNT and CQ_RESERVED (R140), ENGINE_STATE, RESET_CAUSE and the identification (R162, R173).
EVT_PENDING shows each source as its owner has it (R151, R153), and EVT# is asserted exactly while the
global enable is set and a source is both pending and enabled (R156). -/
def Obligations.StatusReadsAndEventLine : Prop :=
  ∀ s : State,
    (s.engine.state = .starting → readWindow s 0x12#7 = 0x00#8) ∧
    (s.engine.state = .ready →
      let r := readWindow s 0x12#7
      r.extractLsb' 0 2 = (match (s.cellAt s.cell.addr).tag with
        | .empty => 0#2 | .valid => 1#2 | .poison => 2#2) ∧
      r.extractLsb' 2 5 = 0#5 ∧ (r.getLsbD 7 = isMarked s.issue.marks s.cell.addr)) ∧
    readWindow s 0x10#7 = s.cell.addr ∧
    (∀ i : Fin 3, readWindow s (0x15#7 + BitVec.ofNat 7 i.val) =
      s.cell.latch.extractLsb' (8 * (i.val + 1)) 8) ∧
    (∀ q : QueueId,
      let Q := s.queue q
      let at' (k : BitVec 7) : Byte := readWindow s ((if q = .q0 then 0x20#7 else 0x30#7) + k)
      at' 0#7 = (match Q.state with
        | .paused => 0#8 | .active => 1#8 | .pausing => 2#8 | .draining _ => 3#8 | .halted _ => 4#8) ∧
      at' 1#7 = BitVec.ofNat 8 Q.ring.length ∧ at' 2#7 = BitVec.ofNat 8 Q.inflight ∧
      at' 3#7 = Q.nextSeq ∧ at' 4#7 = 0b011#3 ++ Q.haltMask ∧ at' 5#7 = 0#3 ++ Q.sticky ∧
      at' 6#7 = 0#1 ++ Q.haltCond ∧ at' 7#7 = Q.haltTag ∧ at' 8#7 = Q.haltSeq ∧
      at' 9#7 = 0#3 ++ Q.frameA ∧ at' 10#7 = 0#3 ++ Q.frameB ∧
      at' 11#7 = BitVec.ofNat 8 Q.flushCount) ∧
    readWindow s 0x06#7 = (match s.port.cmdResult with
      | .accepted => 0#8 | .refusedState => 1#8 | .refusedArg => 2#8 | .refusedBusy => 3#8
      | .refusedStarting => 4#8 | .unknownCommand => 5#8) ∧
    readWindow s 0x58#7 = (match s.port.faultCode with
      | .none => 0#8 | .notReady => 1#8 | .cellBusy => 2#8 | .waitTimeout => 3#8 | .queueFull => 4#8
      | .cqEmptyPop => 5#8) ∧
    readWindow s 0x59#7 = s.port.faultAddr ∧ readWindow s 0x5A#7 = s.port.faultCount ∧
    readWindow s 0x48#7 = BitVec.ofNat 8 s.cq.ring.length ∧
    readWindow s 0x49#7 = BitVec.ofNat 8 s.cq.reserved ∧
    readWindow s 0x02#7 = (match s.engine.state with | .starting => 0#8 | .ready => 1#8) ∧
    readWindow s 0x03#7 = (match s.port.resetCause with | .powerOn => 1#8 | .pin => 2#8 | .soft => 3#8) ∧
    readWindow s 0x00#7 = 0x6B#8 ∧ readWindow s 0x01#7 = 0x10#8 ∧
    let p := readWindow s 0x50#7
    p.getLsbD 0 = s.event.startDone ∧
    (p.getLsbD 1 = true ↔ s.port.faultCode ≠ .none) ∧
    (p.getLsbD 2 = true ↔ ∃ h, s.q0.state = .halted h) ∧
    (p.getLsbD 3 = true ↔ ∃ h, s.q1.state = .halted h) ∧
    p.getLsbD 4 = s.event.paused ∧
    (p.getLsbD 5 = true ↔ s.cq.threshold.toNat ≤ s.cq.ring.length ∨
      s.cq.expired = true ∧ 1 ≤ s.cq.ring.length) ∧
    p.getLsbD 6 = s.event.signal ∧
    p.getLsbD 7 = s.event.starved ∧
    (evtAsserted s = true ↔ s.event.global = true ∧ p &&& s.event.enable ≠ 0#8)

/-- EVENT_CODE gives the pending and enabled source of the highest level, the lowest-numbered of those, as
0x80 plus 16 times the level plus the number, and 0x00 when there is none; the global enable does not
count (R157). -/
def Obligations.EventCodeReturnsTopSource : Prop :=
  ∀ s : State,
    let calls (n : Nat) : Prop :=
      (readWindow s 0x50#7).getLsbD n = true ∧ s.event.enable.getLsbD n = true
    let level (n : Nat) : Nat := ((s.event.level1 ++ s.event.level0 : BitVec 16).extractLsb' (2 * n) 2).toNat
    ((∀ n, n < 8 → ¬calls n) → readWindow s 0x54#7 = 0x00#8) ∧
    ∀ n, n < 8 → calls n →
      (∀ m, m < 8 → calls m → level m < level n ∨ level m = level n ∧ n ≤ m) →
      (readWindow s 0x54#7).toNat = 0x80 + 16 * level n + n

/-- A read of EVENT_CODE answers the code and clears the source it returns when that is a latched one, and no
other (R158); a write of EVT_ACK clears the latched source it names, and has no effect for a level source
or a value from 8 to 255 (R159). -/
def Obligations.EventReadAndAckClearLatchedSources : Prop :=
  ∀ s : State, takesAccess s = true →
    let code := readWindow s 0x54#7
    let cleared (n : Nat) : EventUnit :=
      { s.event with
        startDone := s.event.startDone && n != 0, paused := s.event.paused && n != 4,
        signal := s.event.signal && n != 6, starved := s.event.starved && n != 7 }
    exec .eventCodeRead s =
      .next { s with event := if code = 0#8 then s.event else cleared (code.toNat % 8)
                     readData := some code } ∧
    ∀ b : Byte, exec (.evtAck b) s = .next { s with event := cleared b.toNat }

/-! ## Arithmetic -/

/-- Each element of an operation with a rational result is its exact result, rounded once in the job's mode
and saturated, with OVERFLOW and INEXACT as they say (R24 to R27, R53 to R57, R59 to R61). -/
def Obligations.ElementIsExactResultRoundedOnce : Prop :=
  ∀ (d : Desc) (o : Op) (a b acc : Int) (x : ℚ), exactResult d o a b acc = some x →
    IsElementOf (roundOf d) x (laneResult d o a b acc)

/-- A DIV by 0 of a dividend that is not 0 gives the limit with the dividend's sign and ZERO_DIVIDE alone,
whatever the rounding mode and the fraction count; a DIV of 0 by 0 gives POISON and INVALID (R28). -/
def Obligations.DivisionByZero : Prop :=
  ∀ (d : Desc) (a acc : Int),
    (0 < a → laneResult d .div a 0 acc = ⟨⟨2147483647#32, .valid⟩, zeroDivideBit⟩) ∧
    (a < 0 → laneResult d .div a 0 acc = ⟨⟨0x80000000#32, .valid⟩, zeroDivideBit⟩) ∧
    (a = 0 → laneResult d .div a 0 acc = ⟨⟨0#32, .poison⟩, invalidBit⟩)

/-- SQRT of a negative source gives POISON with INVALID and no other condition (R29). A SQRT of another
source is its square root rounded once, with INEXACT exactly when the root is not an
integer (R62). SUMV and DOT with no POISON input are their exact sum, rounded once (R58, R63). -/
def Obligations.RootsSumsAndInvalid : Prop :=
  (∀ (d : Desc) (a b acc : Int), a < 0 →
    laneResult d .sqrt a b acc = ⟨⟨0#32, .poison⟩, invalidBit⟩) ∧
  (∀ (d : Desc) (a b acc : Int), 0 ≤ a → a ≤ 2147483647 → fracField d ≠ 31#5 →
    let n := a * 2 ^ (fracField d).toNat
    let e := laneResult d .sqrt a b acc
    ∃ r : Int, 0 ≤ r ∧ e.cell.tag = .valid ∧ e.cell.value.toInt = r ∧
      e.conds = (if r * r = n then 0#7 else inexactBit) ∧
      (match roundOf d with
       | .nearestEven => 4 * n < (2 * r + 1) * (2 * r + 1) ∧ (r = 0 ∨ (2 * r - 1) * (2 * r - 1) < 4 * n)
       | .towardZero => r * r ≤ n ∧ n < (r + 1) * (r + 1)
       | .towardMinusInf => r * r ≤ n ∧ n < (r + 1) * (r + 1)
       | .towardPlusInf => n ≤ r * r ∧ (r = 0 ∨ (r - 1) * (r - 1) < n))) ∧
  (∀ e : InFlight, (∀ c ∈ e.srcA ++ e.srcB, c.tag ≠ .poison) →
    IsElementOf (roundOf e.job.desc) ((e.srcA.map fun c => c.value.toInt).sum : Int)
      (reductionResult e .sumv) ∧
    IsElementOf (roundOf e.job.desc)
      ((((List.range e.srcA.length).map fun i =>
          (laneOf e.srcA i).value.toInt * (laneB e i).value.toInt).sum : Int) /
        2 ^ (fracField e.job.desc).toNat)
      (reductionResult e .dot))

/-- The results of a job in flight, one for each destination cell. An element-wise arithmetic job gives for
each element POISON with no condition when an input of the element is POISON, and otherwise the
operation's result of the captured A, B (element 0 under BCAST) and, for MAC, accumulator
(R35, R42, R43, R53 to R57, R59 to R62). SUMV and DOT give one result, POISON when an input is
(R35, R58, R63). MOVE copies value and tag, LOADK writes its constant VALID, and CLEAR writes value 0
EMPTY (R50 to R52). The job's conditions are its elements' together with POISON_IN from its issue (R31), and
lie within what its operation can raise (R30); an EMPTY or POISON result has value 0 (R1, R37). -/
def Obligations.JobResultsByOperation : Prop :=
  ∀ (e : InFlight) (o : Op), jobOp e.job.desc = some o →
    let d := e.job.desc
    let n := elements d
    let a (i : Nat) : Cell := e.srcA.getD i ⟨0#32, .empty⟩
    let b (i : Nat) : Cell := e.srcB.getD (if d.getLsbD 34 then 0 else i) ⟨0#32, .empty⟩
    let acc (i : Nat) : Cell := e.srcD.getD i ⟨0#32, .empty⟩
    let poisoned (i : Nat) : Prop :=
      (a i).tag = .poison ∨ o ∈ opsWithB ∧ (b i).tag = .poison ∨ o = .mac ∧ (acc i).tag = .poison
    (o ∈ elementWiseOps → (jobResults e).length = n ∧ ∀ i, i < n →
      (poisoned i → (jobResults e)[i]? = some ⟨⟨0#32, .poison⟩, 0#7⟩) ∧
      (¬poisoned i → (jobResults e)[i]? =
        some (laneResult d o (a i).value.toInt (b i).value.toInt (acc i).value.toInt))) ∧
    (o = .sumv ∨ o = .dot → jobResults e = [reductionResult e o] ∧
      ((∃ c ∈ e.srcA ++ e.srcB, c.tag = .poison) → reductionResult e o = ⟨⟨0#32, .poison⟩, 0#7⟩)) ∧
    (o = .move → jobResults e = e.srcA.map fun c =>
      ⟨⟨if c.tag = .valid then c.value else 0#32, c.tag⟩, 0#7⟩) ∧
    (o = .loadk →
      let k : BitVec 16 := d.extractLsb' 48 16
      jobResults e =
        List.replicate n ⟨⟨if d.getLsbD 35 then k ++ 0#16 else k.signExtend 32, .valid⟩, 0#7⟩) ∧
    (o = .clear → jobResults e = List.replicate n ⟨⟨0#32, .empty⟩, 0#7⟩) ∧
    (∀ k, k < 7 → ((jobConds e).getLsbD k = true ↔
      (∃ r ∈ jobResults e, r.conds.getLsbD k = true) ∨ k = 4 ∧ e.poisonIn = true)) ∧
    jobConds e &&& ~~~(execConds o ||| if e.poisonIn then poisonInBit else 0#7) = 0#7 ∧
    ∀ r : ElemResult, r ∈ jobResults e → r.cell.tag ≠ .valid → r.cell.value = 0#32

/-! ## Encodings -/

/-- What a descriptor says. Every field is read where R177 puts it: a descriptor put together from its fields
reads back each of them, and every descriptor is put together from what is read from it. The operation
codes are those of R177 and name nothing else; the rounding modes are those of R25, the shift of RESCALE
that of R57, and the condition bits those of R175. A descriptor is malformed exactly as R64 lists, and a
malformed one is of no operation (R65). Its operand fields resolve to the cells of R5 and R41; its source,
destination and inspected cells are those of R32 and R42 to R44; its unit capacity is that of R91; and the
execution conditions its operation can raise are those of R30, by which it is guarded (R93). -/
def Obligations.DescriptorsReadAsTheTablesSay : Prop :=
  (∀ (imm : BitVec 16) (tag : Byte) (rsv : BitVec 3) (signal flag bcast : Bool) (report : BitVec 2)
      (count : BitVec 4) (round : BitVec 2) (frac srcB srcA dst : BitVec 5) (code : BitVec 6),
    let d := packDesc imm tag rsv signal flag bcast report count round frac srcB srcA dst code
    codeField d = code ∧ dstField d = dst ∧ srcAField d = srcA ∧ srcBField d = srcB ∧
    fracField d = frac ∧ roundField d = round ∧ countField d = count ∧ reportField d = report ∧
    bcastField d = bcast ∧ flagField d = flag ∧ signalField d = signal ∧ reservedField d = rsv ∧
    hostTag d = tag ∧ immField d = imm) ∧
  (∀ d : Desc, codeField d = d.extractLsb' 0 6 ∧ dstField d = d.extractLsb' 6 5 ∧
    srcAField d = d.extractLsb' 11 5 ∧ srcBField d = d.extractLsb' 16 5 ∧
    fracField d = d.extractLsb' 21 5 ∧ roundField d = d.extractLsb' 26 2 ∧
    countField d = d.extractLsb' 28 4 ∧ reportField d = d.extractLsb' 32 2 ∧
    bcastField d = d.getLsbD 34 ∧ flagField d = d.getLsbD 35 ∧ signalField d = d.getLsbD 36 ∧
    reservedField d = d.extractLsb' 37 3 ∧ hostTag d = d.extractLsb' 40 8 ∧
    immField d = d.extractLsb' 48 16) ∧
  (∀ d : Desc, packDesc (immField d) (hostTag d) (reservedField d) (signalField d) (flagField d)
    (bcastField d) (reportField d) (countField d) (roundField d) (fracField d) (srcBField d)
    (srcAField d) (dstField d) (codeField d) = d) ∧
  (∀ o : Op, opOfCode (opCode o) = some o) ∧
  (∀ (c : BitVec 6) (o : Op), opOfCode c = some o → opCode o = c) ∧
  (∀ (c : BitVec 6) (o : Op), opOfCode c = some o ↔ (c, o) ∈ codeTable) ∧
  (∀ d : Desc, [RoundMode.nearestEven, .towardZero, .towardMinusInf, .towardPlusInf][
      (d.extractLsb' 26 2).toNat]? = some (roundOf d)) ∧
  (∀ d : Desc, shiftOf d = (d.extractLsb' 48 6).toInt) ∧
  [inexactBit, overflowBit, zeroDivideBit, invalidBit, poisonInBit, emptySourceBit, badJobBit] =
    [0x01#7, 0x02#7, 0x04#7, 0x08#7, 0x10#7, 0x20#7, 0x40#7] ∧
  (∀ d : Desc, malformed d = true ↔ Malformed d) ∧
  (∀ (d : Desc) (o : Op), jobOp d = some o ↔ ¬Malformed d ∧ (d.extractLsb' 0 6, o) ∈ codeTable) ∧
  (∀ (Q : Queue) (f : BitVec 5), operandRun Q f 1 = [resolve Q f]) ∧
  (∀ (Q : Queue) (d : Desc), Malformed d →
    aCells Q d = [] ∧ bCells Q d = [] ∧ dCells Q d = [] ∧ destCells Q d = [] ∧
    inspectedCells Q d = [] ∧ sourceCells Q d = [] ∧ claimOf d = none) ∧
  (∀ (Q : Queue) (d : Desc) (o : Op), jobOp d = some o →
    aCells Q d =
      (if o ∈ opsWithA then operandRun Q (d.extractLsb' 11 5) (elements d) else []) ∧
    bCells Q d =
      (if o ∈ opsWithB then operandRun Q (d.extractLsb' 16 5) (if d.getLsbD 34 then 1 else elements d)
       else []) ∧
    destCells Q d =
      (if o ∈ [.setframe, .fence] then []
       else operandRun Q (d.extractLsb' 6 5) (if o ∈ [.sumv, .dot] then 1 else elements d)) ∧
    dCells Q d = (if o = .mac then destCells Q d else []) ∧
    sourceCells Q d = aCells Q d ++ bCells Q d ++ dCells Q d ∧
    inspectedCells Q d = (if o = .move then [] else sourceCells Q d) ∧
    claimOf d = claimFor o (elements d)) ∧
  (∀ (o : Op) (n : Nat),
    (o ∈ [.setframe, .fence] → claimFor o n = none) ∧
    (o ∈ [.move, .loadk, .clear] → claimFor o n = some .tu) ∧
    (o ∈ [.add, .sub, .neg, .abs, .min, .max, .cmp, .rescale, .sumv] → claimFor o n = some .su) ∧
    (o ∈ [.mul, .mac] → claimFor o n = some (if n = 1 then .puScalar else .puWhole)) ∧
    (o = .dot → claimFor o n = some .puWhole) ∧
    (o ∈ [.div, .sqrt] → claimFor o n = some .puAndSu)) ∧
  (∀ o : Op,
    (o ∈ [.setframe, .fence, .move, .loadk, .clear, .min, .max, .cmp] → execConds o = 0b0000000#7) ∧
    (o ∈ [.add, .sub, .neg, .abs, .rescale, .sumv, .mul, .mac, .dot] → execConds o = 0b0000011#7) ∧
    (o = .div → execConds o = 0b0001111#7) ∧ (o = .sqrt → execConds o = 0b0001001#7)) ∧
  ∀ (m : CondSet) (d : Desc), guardedUnder m d = true ↔
    ∃ o, jobOp d = some o ∧ execConds o &&& m ≠ 0#7

/-! ## Laws of the whole part -/

/-- No command changes a cell that carries a mark before and after it, and none but a completion changes a
marked cell at all (R3, R86). -/
def Obligations.MarkedCellsKeepTheirContents : Prop :=
  ∀ (c : Instr) (s t : State) (n : CellNo), CellsSound s → s.engine.state = .ready →
    exec c s = .next t → isMarked s.issue.marks n = true →
    (isMarked t.issue.marks n = true → t.cellAt n = s.cellAt n) ∧
    ((∀ k, c ≠ .jobCompletion k) → t.cellAt n = s.cellAt n)

/-- CQ_STARVED becomes pending at every command after which a head waits for a completion slot alone while
none did before it, and at no other (R90, R145). -/
def Obligations.StallIsReportedExactlyAtItsStart : Prop :=
  ∀ (c : Instr) (s t : State), exec c s = .next t →
    (¬StalledOnSlots s → StalledOnSlots t → t.event.starved = true) ∧
    (s.event.starved = false → t.event.starved = true → ¬StalledOnSlots s ∧ StalledOnSlots t)

/-- A queue's state moves only as the table of R73 lists, resets apart, and keeps its held job while it
stays; its next sequence number is changed by nothing but a commit to it, which raises it by one (R70). -/
def Obligations.QueuesMoveAsTheTableLists : Prop :=
  ∀ (c : Instr) (s t : State) (q : QueueId), QueuesSound s → c.wellFormed = true →
    c ≠ .powerOn → c ≠ .resetAssert → c ≠ .softReset → exec c s = .next t →
    ((t.queue q).state = (s.queue q).state ∨
      (stateName (s.queue q), stateName (t.queue q)) ∈ allowedMoves) ∧
    ((t.queue q).nextSeq = (s.queue q).nextSeq ∨
      (∃ b, c = .commit q b) ∧ (t.queue q).nextSeq = (s.queue q).nextSeq + 1#8)

/-- Every step keeps the cells in their canonical form, with value 0 in every EMPTY or POISON cell (R1). -/
def Obligations.StepKeepsCellsSound : Prop :=
  ∀ s t : State, CellsSound s → step s = .next t → CellsSound t

/-- Every step keeps the law of the marks (R86), the occupancy of the units (R91) and the soundness of the
in-flight entries (R93, R95, R96). -/
def Obligations.StepKeepsInFlightSound : Prop :=
  ∀ s t : State, MarksSound s → UnitsSound s.issue → EntriesSound s.issue → step s = .next t →
    MarksSound t ∧ UnitsSound t.issue ∧ EntriesSound t.issue

/-- Every step keeps the laws of the queues' counts, of the held-job slot and the retry position, of guarded
issue, and of the reservations: filled records and reservations never exceed 32
(R72, R73, R79, R93, R131, R132). -/
def Obligations.StepKeepsQueuesSound : Prop :=
  ∀ s t : State, QueuesSound s → step s = .next t → QueuesSound t

/-- Every step keeps the relations between the sequence numbers of a queue's jobs and NEXT_SEQ (R70). -/
def Obligations.StepKeepsSequenceNumbers : Prop :=
  ∀ (s t : State) (q : QueueId), QueuesSound s → SeqSound s q → step s = .next t → SeqSound t q

/-- Every step keeps the laws of the held access (R13 to R15), of the coalescing timer (R142, R143), of the
tick divider and the fault record (R165, R168), of the arbiter (R106) and of STARTING (R109, R147). -/
def Obligations.StepKeepsPortAndTimersSound : Prop :=
  ∀ s t : State, step s = .next t →
    (HeldSound s → HeldSound t) ∧ (TimerSound s.cq → TimerSound t.cq) ∧
    (PortSound s.port → PortSound t.port) ∧ (ArbiterSound s.issue → ArbiterSound t.issue) ∧
    (StartingSound s → StartingSound t)

/-- The model's reset state meets every law that the steps keep. That it is the state after a power-on reset,
and that its list of cells is empty before the scrub has run, are the model's choices (DESIGN CHOICE,
notes/assumptions/1.md and 2.md); its other fields are the reset values of R84, R85, R147, R160 and R170. -/
def Obligations.SoundAfterReset : Prop :=
  CellsSound State.reset ∧ MarksSound State.reset ∧ UnitsSound State.reset.issue ∧
  EntriesSound State.reset.issue ∧ QueuesSound State.reset ∧ (∀ q, SeqSound State.reset q) ∧
  HeldSound State.reset ∧ TimerSound State.reset.cq ∧ PortSound State.reset.port ∧
  ArbiterSound State.reset.issue ∧ StartingSound State.reset
end

