-- ==== Sys2Proof/Laws/State.lean ====
section
/-! SUPPORT. The small lemmas of the named state updates: for each update, each block of the state after
it. Proofs cite these and unfold no record update. -/

namespace Sys2Proof.Machine

variable (s : State) (q : QueueId) (Q : Queue)

/-! ## `setQueue` -/

@[simp] theorem setQueue_cell : (s.setQueue q Q).cell = s.cell := by cases q <;> rfl
@[simp] theorem setQueue_issue : (s.setQueue q Q).issue = s.issue := by cases q <;> rfl
@[simp] theorem setQueue_cq : (s.setQueue q Q).cq = s.cq := by cases q <;> rfl
@[simp] theorem setQueue_event : (s.setQueue q Q).event = s.event := by cases q <;> rfl
@[simp] theorem setQueue_port : (s.setQueue q Q).port = s.port := by cases q <;> rfl
@[simp] theorem setQueue_engine : (s.setQueue q Q).engine = s.engine := by cases q <;> rfl
@[simp] theorem setQueue_jobStage : (s.setQueue q Q).jobStage = s.jobStage := by cases q <;> rfl
@[simp] theorem setQueue_substitute : (s.setQueue q Q).substitute = s.substitute := by cases q <;> rfl
@[simp] theorem setQueue_readData : (s.setQueue q Q).readData = s.readData := by cases q <;> rfl
@[simp] theorem setQueue_pending : (s.setQueue q Q).pending = s.pending := by cases q <;> rfl

@[simp] theorem setQueue_queue : (s.setQueue q Q).queue q = Q := by cases q <;> rfl

@[simp] theorem setQueue_queue_other : (s.setQueue q Q).queue q.other = s.queue q.other := by
  cases q <;> rfl

theorem setQueue_queue_ne {q q' : QueueId} (h : q' ≠ q) : (s.setQueue q Q).queue q' = s.queue q' := by
  cases q <;> cases q' <;> first | rfl | exact absurd rfl h

@[simp] theorem other_other : q.other.other = q := by cases q <;> rfl

@[simp] theorem other_ne : q.other ≠ q := by cases q <;> decide

@[simp] theorem setQueue_q0 : (s.setQueue .q0 Q).q0 = Q := rfl
@[simp] theorem setQueue_q1 : (s.setQueue .q1 Q).q1 = Q := rfl
@[simp] theorem setQueue_q0_of_q1 : (s.setQueue .q1 Q).q0 = s.q0 := rfl
@[simp] theorem setQueue_q1_of_q0 : (s.setQueue .q0 Q).q1 = s.q1 := rfl
@[simp] theorem queue_q0 : s.queue .q0 = s.q0 := rfl
@[simp] theorem queue_q1 : s.queue .q1 = s.q1 := rfl

@[simp] theorem setQueue_setQueue (Q' : Queue) : (s.setQueue q Q).setQueue q Q' = s.setQueue q Q' := by
  cases q <;> rfl

@[simp] theorem setQueue_self : s.setQueue q (s.queue q) = s := by cases q <;> rfl

/-! ## `answer` -/

section
variable (b : Byte)

@[simp] theorem answer_cell : (answer b s).cell = s.cell := rfl
@[simp] theorem answer_q0 : (answer b s).q0 = s.q0 := rfl
@[simp] theorem answer_q1 : (answer b s).q1 = s.q1 := rfl
@[simp] theorem answer_issue : (answer b s).issue = s.issue := rfl
@[simp] theorem answer_cq : (answer b s).cq = s.cq := rfl
@[simp] theorem answer_event : (answer b s).event = s.event := rfl
@[simp] theorem answer_port : (answer b s).port = s.port := rfl
@[simp] theorem answer_engine : (answer b s).engine = s.engine := rfl
@[simp] theorem answer_jobStage : (answer b s).jobStage = s.jobStage := rfl
@[simp] theorem answer_substitute : (answer b s).substitute = s.substitute := rfl
@[simp] theorem answer_pending : (answer b s).pending = s.pending := rfl
@[simp] theorem answer_readData : (answer b s).readData = some b := rfl
@[simp] theorem answer_queue : (answer b s).queue q = s.queue q := by cases q <;> rfl

end

/-! ## `setResult` -/

section
variable (r : CmdResult)

@[simp] theorem setResult_cell : (setResult r s).cell = s.cell := rfl
@[simp] theorem setResult_q0 : (setResult r s).q0 = s.q0 := rfl
@[simp] theorem setResult_q1 : (setResult r s).q1 = s.q1 := rfl
@[simp] theorem setResult_issue : (setResult r s).issue = s.issue := rfl
@[simp] theorem setResult_cq : (setResult r s).cq = s.cq := rfl
@[simp] theorem setResult_event : (setResult r s).event = s.event := rfl
@[simp] theorem setResult_engine : (setResult r s).engine = s.engine := rfl
@[simp] theorem setResult_jobStage : (setResult r s).jobStage = s.jobStage := rfl
@[simp] theorem setResult_substitute : (setResult r s).substitute = s.substitute := rfl
@[simp] theorem setResult_readData : (setResult r s).readData = s.readData := rfl
@[simp] theorem setResult_pending : (setResult r s).pending = s.pending := rfl
@[simp] theorem setResult_cmdResult : (setResult r s).port.cmdResult = r := rfl
@[simp] theorem setResult_port_eq : (setResult r s).port = { s.port with cmdResult := r } := rfl
@[simp] theorem setResult_queue : (setResult r s).queue q = s.queue q := by cases q <;> rfl

end

/-! ## `enterFault` -/

section
variable (f : PortFault) (a : Byte)

@[simp] theorem enterFault_cell : (enterFault f a s).cell = s.cell := rfl
@[simp] theorem enterFault_q0 : (enterFault f a s).q0 = s.q0 := rfl
@[simp] theorem enterFault_q1 : (enterFault f a s).q1 = s.q1 := rfl
@[simp] theorem enterFault_issue : (enterFault f a s).issue = s.issue := rfl
@[simp] theorem enterFault_cq : (enterFault f a s).cq = s.cq := rfl
@[simp] theorem enterFault_event : (enterFault f a s).event = s.event := rfl
@[simp] theorem enterFault_engine : (enterFault f a s).engine = s.engine := rfl
@[simp] theorem enterFault_jobStage : (enterFault f a s).jobStage = s.jobStage := rfl
@[simp] theorem enterFault_substitute : (enterFault f a s).substitute = s.substitute := rfl
@[simp] theorem enterFault_readData : (enterFault f a s).readData = s.readData := rfl
@[simp] theorem enterFault_pending : (enterFault f a s).pending = s.pending := rfl
@[simp] theorem enterFault_queue : (enterFault f a s).queue q = s.queue q := by cases q <;> rfl

end

/-! ## `putCell` -/

section
variable (n : CellNo) (c : Cell)

@[simp] theorem putCell_q0 : (putCell n c s).q0 = s.q0 := rfl
@[simp] theorem putCell_q1 : (putCell n c s).q1 = s.q1 := rfl
@[simp] theorem putCell_issue : (putCell n c s).issue = s.issue := rfl
@[simp] theorem putCell_cq : (putCell n c s).cq = s.cq := rfl
@[simp] theorem putCell_event : (putCell n c s).event = s.event := rfl
@[simp] theorem putCell_port : (putCell n c s).port = s.port := rfl
@[simp] theorem putCell_engine : (putCell n c s).engine = s.engine := rfl
@[simp] theorem putCell_jobStage : (putCell n c s).jobStage = s.jobStage := rfl
@[simp] theorem putCell_substitute : (putCell n c s).substitute = s.substitute := rfl
@[simp] theorem putCell_readData : (putCell n c s).readData = s.readData := rfl
@[simp] theorem putCell_pending : (putCell n c s).pending = s.pending := rfl
@[simp] theorem putCell_addr : (putCell n c s).cell.addr = s.cell.addr := rfl
@[simp] theorem putCell_autoInc : (putCell n c s).cell.autoInc = s.cell.autoInc := rfl
@[simp] theorem putCell_staging : (putCell n c s).cell.staging = s.cell.staging := rfl
@[simp] theorem putCell_latch : (putCell n c s).cell.latch = s.cell.latch := rfl
@[simp] theorem putCell_readOpen : (putCell n c s).cell.readOpen = s.cell.readOpen := rfl
@[simp] theorem putCell_held : (putCell n c s).cell.held = s.cell.held := rfl
@[simp] theorem putCell_queue : (putCell n c s).queue q = s.queue q := by cases q <;> rfl

end

/-! ## `reportStall` -/

section
variable (t : State)

@[simp] theorem reportStall_cell : (reportStall s t).cell = t.cell := by
  unfold reportStall; split <;> rfl
@[simp] theorem reportStall_q0 : (reportStall s t).q0 = t.q0 := by
  unfold reportStall; split <;> rfl
@[simp] theorem reportStall_q1 : (reportStall s t).q1 = t.q1 := by
  unfold reportStall; split <;> rfl
@[simp] theorem reportStall_issue : (reportStall s t).issue = t.issue := by
  unfold reportStall; split <;> rfl
@[simp] theorem reportStall_cq : (reportStall s t).cq = t.cq := by
  unfold reportStall; split <;> rfl
@[simp] theorem reportStall_port : (reportStall s t).port = t.port := by
  unfold reportStall; split <;> rfl
@[simp] theorem reportStall_engine : (reportStall s t).engine = t.engine := by
  unfold reportStall; split <;> rfl
@[simp] theorem reportStall_jobStage : (reportStall s t).jobStage = t.jobStage := by
  unfold reportStall; split <;> rfl
@[simp] theorem reportStall_substitute : (reportStall s t).substitute = t.substitute := by
  unfold reportStall; split <;> rfl
@[simp] theorem reportStall_readData : (reportStall s t).readData = t.readData := by
  unfold reportStall; split <;> rfl
@[simp] theorem reportStall_pending : (reportStall s t).pending = t.pending := by
  unfold reportStall; split <;> rfl
@[simp] theorem reportStall_queue : (reportStall s t).queue q = t.queue q := by
  unfold reportStall; split <;> rfl

theorem reportStall_event : (reportStall s t).event =
    { t.event with starved := t.event.starved || (stalled t && !stalled s) } := by
  unfold reportStall; split <;> rename_i h <;> simp [h]

end

/-! ## `hostAccess` -/

theorem hostAccess_taken {f : State → State} (h : takesAccess s = true) : hostAccess f s = f s := by
  simp [hostAccess, h]

theorem hostAccess_not_taken {f : State → State} (h : takesAccess s = false) : hostAccess f s = s := by
  simp [hostAccess, h]

end Sys2Proof.Machine
end

