-- ==== Sys2Proof/Laws/Cells.lean ====
section
/-! SUPPORT. The laws of the cells: read after write, and the canonical form, which every operation over
the cells keeps. -/

namespace Sys2Proof.Machine

variable {m : Cells} {n k : Nat} {c d : Cell}

theorem readCells_of_keysAbove (h : Memory.keysAbove n m = true) (hk : k ≤ n) :
    readCells m k = emptyCell := by
  induction m with
  | nil => rfl
  | cons p m ih =>
    simp only [Memory.keysAbove, List.all_cons, Bool.and_eq_true, decide_eq_true_eq] at h
    obtain ⟨j, c⟩ := p
    have : j ≠ k := by have := h.1; simp at this; omega
    simp [readCells, this, ih (by simpa [Memory.keysAbove] using h.2)]

theorem keysAbove_mono (h : Memory.keysAbove n m = true) (hk : k ≤ n) :
    Memory.keysAbove k m = true := by
  simp only [Memory.keysAbove, List.all_eq_true, decide_eq_true_eq] at h ⊢
  intro p hp; have := h p hp; omega

/-- The parts of the canonical form of a non-empty list. -/
theorem wf_cons : Memory.wf ((k, c) :: m) = true ↔
    k < 256 ∧ c ≠ emptyCell ∧ c = taggedCell c.value c.tag ∧ Memory.keysAbove k m = true ∧
    Memory.wf m = true := by
  simp only [Memory.wf, Bool.and_eq_true, decide_eq_true_eq, bne_iff_ne, ne_eq, beq_iff_eq, and_assoc]
  simp only [Config.cellCount]

/-- What reading finds after a write, in canonical cells. -/
theorem readCells_writeCells (h : Memory.wf m = true) :
    readCells (writeCells m n c) k = if k = n then c else readCells m k := by
  induction m with
  | nil =>
    by_cases hc : c = emptyCell <;> by_cases hk : k = n <;>
      simp [writeCells, readCells, hc, hk, eq_comm]
    intro h; exact absurd h.symm hk
  | cons p m ih =>
    obtain ⟨j, d⟩ := p
    obtain ⟨-, -, -, hab, hwf⟩ := wf_cons.1 h
    by_cases h1 : n < j
    · have hj : readCells ((j, d) :: m) n = emptyCell := by
        have : j ≠ n := by omega
        simp [readCells, this, readCells_of_keysAbove hab (by omega : n ≤ j)]
      by_cases hc : c = emptyCell
      · by_cases hk : k = n
        · subst hk; simp [writeCells, h1, hc, hj]
        · simp [writeCells, h1, hc, hk]
      · by_cases hk : k = n
        · subst hk; simp [writeCells, h1, hc, readCells]
        · have : n ≠ k := fun e => hk e.symm
          simp [writeCells, h1, hc, hk, readCells, this]
    · by_cases h2 : n = j
      · subst h2
        by_cases hk : k = n
        · subst hk
          by_cases hc : c = emptyCell
          · simp [writeCells, hc, readCells_of_keysAbove hab (le_refl k)]
          · simp [writeCells, hc, readCells]
        · have : n ≠ k := fun e => hk e.symm
          by_cases hc : c = emptyCell <;> simp [writeCells, hc, hk, readCells, this]
      · by_cases hk : j = k
        · subst hk
          have : j ≠ n := fun e => h2 e.symm
          simp [writeCells, h1, h2, readCells, this]
        · simp [writeCells, h1, h2, readCells, hk, ih hwf]

theorem keysAbove_writeCells (h : Memory.keysAbove k m = true) (hn : k < n) :
    Memory.keysAbove k (writeCells m n c) = true := by
  induction m with
  | nil => by_cases hc : c = emptyCell <;> simp [writeCells, hc, Memory.keysAbove, hn]
  | cons p m ih =>
    obtain ⟨j, d⟩ := p
    have hj : k < j := by simp [Memory.keysAbove] at h; exact h.1
    have hm : Memory.keysAbove k m = true := by simp [Memory.keysAbove] at h ⊢; exact h.2
    have := ih hm
    simp only [Memory.keysAbove, List.all_eq_true, decide_eq_true_eq] at hm this ⊢
    intro p hp
    simp only [writeCells] at hp
    split at hp
    · split at hp <;> simp only [List.mem_cons] at hp <;> rcases hp with rfl | hp <;>
        first | exact hj | exact hn | (first | exact hm _ hp | (rcases hp with rfl | hp; exacts [hj, hm _ hp]))
    · split at hp
      · split at hp
        · exact hm _ hp
        · simp only [List.mem_cons] at hp; rcases hp with rfl | hp; exacts [hn, hm _ hp]
      · simp only [List.mem_cons] at hp; rcases hp with rfl | hp; exacts [hj, this _ hp]

/-- A write of a cell in the form of R1 keeps the canonical form. -/
theorem wf_writeCells (h : Memory.wf m = true) (hn : n < 256) (hc : c = taggedCell c.value c.tag) :
    Memory.wf (writeCells m n c) = true := by
  induction m with
  | nil =>
    by_cases he : c = emptyCell
    · simp [writeCells, he, Memory.wf]
    · simp only [writeCells, he, if_false]
      exact wf_cons.2 ⟨hn, he, hc, rfl, rfl⟩
  | cons p m ih =>
    obtain ⟨j, d⟩ := p
    obtain ⟨hj, hd, hd', hab, hwf⟩ := wf_cons.1 h
    simp only [writeCells]
    split
    · split
      · exact h
      · rename_i h1 he
        refine wf_cons.2 ⟨hn, he, hc, ?_, h⟩
        simp only [Memory.keysAbove, List.all_cons, Bool.and_eq_true, decide_eq_true_eq]
        exact ⟨h1, by simpa [Memory.keysAbove] using keysAbove_mono hab (by omega : n ≤ j)⟩
    · split
      · rename_i h1 h2
        subst h2
        split
        · exact hwf
        · rename_i he; exact wf_cons.2 ⟨hn, he, hc, hab, hwf⟩
      · rename_i h1 h2
        exact wf_cons.2 ⟨hj, hd, hd', keysAbove_writeCells hab (by omega), ih hwf⟩

theorem taggedCell_idem (v : Raw) (t : Tag) :
    taggedCell v t = taggedCell (taggedCell v t).value (taggedCell v t).tag := by cases t <;> rfl

/-- A cell write keeps the canonical form. -/
theorem wf_putCell {s : State} {n : CellNo} (h : Memory.wf s.cell.cells = true) :
    Memory.wf (putCell n c s).cell.cells = true :=
  wf_writeCells h (by have := n.isLt; omega) (taggedCell_idem _ _)

/-- What the cells hold after a cell write. -/
theorem cellAt_putCell {s : State} {n k : CellNo} (h : Memory.wf s.cell.cells = true) :
    (putCell n c s).cellAt k = if k = n then taggedCell c.value c.tag else s.cellAt k := by
  simp [State.cellAt, putCell, readCells_writeCells h, BitVec.toNat_inj]

/-- The writes of a completing job keep the canonical form. -/
theorem wf_putResults {ns : List CellNo} {rs : List ElemResult} {s : State}
    (h : Memory.wf s.cell.cells = true) : Memory.wf (putResults ns rs s).cell.cells = true := by
  induction ns generalizing rs s with
  | nil => exact h
  | cons n ns ih =>
    cases rs with
    | nil => exact h
    | cons r rs => exact ih (wf_putCell h)

/-- The writes of a completing job change cells alone. -/
theorem putResults_eq (ns : List CellNo) (rs : List ElemResult) (s : State) :
    putResults ns rs s = { s with cell := { s.cell with cells := (putResults ns rs s).cell.cells } } := by
  induction ns generalizing rs s with
  | nil => rfl
  | cons n ns ih =>
    cases rs with
    | nil => rfl
    | cons r rs => simp only [putResults]; rw [ih]; rfl

/-- A cell outside the destinations holds after the writes what it held before. -/
theorem cellAt_putResults_of_not_mem {ns : List CellNo} {rs : List ElemResult} {s : State} {k : CellNo}
    (h : Memory.wf s.cell.cells = true) (hk : k ∉ ns) :
    (putResults ns rs s).cellAt k = s.cellAt k := by
  induction ns generalizing rs s with
  | nil => rfl
  | cons n ns ih =>
    cases rs with
    | nil => rfl
    | cons r rs =>
      simp only [List.mem_cons, not_or] at hk
      rw [putResults, ih (wf_putCell h) hk.2, cellAt_putCell h, if_neg hk.1]

/-- The cells after reset are canonical. -/
theorem wf_reset : Memory.wf State.reset.cell.cells = true := rfl

end Sys2Proof.Machine
end

