-- ==== Sys2Proof/Laws/Stall.lean ====
section
/-! SUPPORT. The laws of the stall report: it changes CQ_STARVED alone, and a happening that leaves the
queues, the issue logic and the completion queue alone reports nothing. -/

namespace Sys2Proof.Machine

theorem reportStall_self (s : State) : reportStall s s = s := by simp [reportStall]

/-- Everything the report can do: it leaves the state, but for CQ_STARVED. -/
theorem reportStall_withStarved (s t : State) :
    reportStall s t = withStarved t (reportStall s t).event.starved := by
  simp only [reportStall, withStarved]; split <;> rfl

@[simp] theorem withStarved_starved (s : State) (b : Bool) : (withStarved s b).event.starved = b := rfl

/-- Whether a head is stalled depends on the queues, the issue logic and the completion queue alone. -/
theorem stalled_congr {s t : State} (h0 : s.q0 = t.q0) (h1 : s.q1 = t.q1) (h2 : s.issue = t.issue)
    (h3 : s.cq = t.cq) : stalled s = stalled t := by
  have hq : s.queue = t.queue := by funext q; cases q <;> simp [h0, h1]
  have ha : anyMarked s = anyMarked t := by funext; simp [anyMarked, h2]
  have hg : guardedInFlight s = guardedInFlight t := by funext; simp [guardedInFlight, h2]
  have hd : drained s = drained t := by funext; simp [drained, hq]
  have : meetsAllButSlot s = meetsAllButSlot t := by
    funext q; simp only [meetsAllButSlot, hq, h2, ha, hg, hd]
  simp [stalled, h3, this]

/-- A happening that leaves the queues, the issue logic and the completion queue alone reports nothing. -/
theorem reportStall_congr {s t : State} (h0 : s.q0 = t.q0) (h1 : s.q1 = t.q1) (h2 : s.issue = t.issue)
    (h3 : s.cq = t.cq) : reportStall s t = t := by
  simp [reportStall, stalled_congr h0 h1 h2 h3]

@[simp] theorem reportStall_setResult (s : State) (r : CmdResult) :
    reportStall s (setResult r s) = setResult r s := reportStall_congr rfl rfl rfl rfl

end Sys2Proof.Machine
end

