-- ==== Sys2Proof/Laws/Port.lean ====
section
/-! SUPPORT. What the shared operations of the host port, of the ticks, of the completion queue and of the
events do, each said once. -/

namespace Sys2Proof.Machine

/-! ## Faults, commands, ticks -/

/-- A fault enters the port fault record as R168 has it. -/
theorem faultEntered_enterFault (f : PortFault) (a : Byte) (s : State) :
    FaultEntered f a s.port (enterFault f a s).port := by
  refine ⟨?_, ?_, ?_⟩
  · intro h; simp [enterFault, h]
  · intro h h2
    have : ¬s.port.faultCount = 255#8 := by intro h; rw [h] at h2; simp at h2
    simp [enterFault, h, this]
  · intro h h2
    have : s.port.faultCount = 255#8 := by
      apply BitVec.eq_of_toNat_eq; simpa using h2
    have e : s.port = { s.port with faultCount := 255#8 } := by rw [← this]
    simp [enterFault, h, this]; exact e.symm

/-- A known command reaches its owner when the port takes accesses and the engine is READY. -/
theorem hostAccess_takeCommand {s : State} (hs : HostReady s) {code : BitVec 4} (q : QueueId)
    (hk : knownCodes.contains code = true) :
    hostAccess (takeCommand code q) s = ownerCommand code q s := by
  obtain ⟨h1, h2⟩ := hs
  simp only [hostAccess, h1, takeCommand, hk, h2, if_true, Bool.not_true]
  simp

/-- A tick boundary outside a reset. -/
theorem passTick_eq {s : State} (h : inReset s = false) :
    passTick s = advanceWait { s with
      port := { s.port with divider := 0, tickLength := s.port.timebase.toNat }
      cq := advanceTimer s.cq } := by
  simp [passTick, h]

/-- What the wait count's advance leaves alone. -/
theorem advanceWait_frame (s : State) :
    advanceWait s = { s with
      cell := { s.cell with held := (advanceWait s).cell.held, readOpen := (advanceWait s).cell.readOpen }
      port := { s.port with faultCode := (advanceWait s).port.faultCode,
                            faultAddr := (advanceWait s).port.faultAddr,
                            faultCount := (advanceWait s).port.faultCount }
      readData := (advanceWait s).readData } := by
  have hp : ∀ (f : PortFault) (a : Byte) (t : State),
      (enterFault f a t).port = { t.port with
        faultCode := (enterFault f a t).port.faultCode, faultAddr := (enterFault f a t).port.faultAddr,
        faultCount := (enterFault f a t).port.faultCount } := by
    intro f a t; simp only [enterFault]; split <;> rfl
  unfold advanceWait
  split
  · rfl
  · rename_i h _
    split
    · obtain ⟨k, c, n⟩ := h
      cases k <;> simp only [faultAccess] <;>
        (conv_lhs => rw [show ∀ (f : PortFault) (a : Byte) (t : State),
          enterFault f a t = { t with port := (enterFault f a t).port } from fun _ _ _ => rfl, hp]) <;> rfl
    · rfl

/-! ## The completion queue -/

/-- Posting a record does what R133 and R142 say. -/
theorem posted_postRecord (r : Record) (c : CompletionQueue) : Posted r c (postRecord r c) := by
  refine ⟨rfl, ?_, ?_⟩
  · rintro ⟨h1, h2, h3⟩; simp [postRecord, timerAtPost, h1, h2, h3]
  · intro h
    simp only [postRecord, timerAtPost]
    cases ht : c.timer with
    | idle =>
      simp only [ht, true_and] at h
      simp; intro h1; by_contra h2; exact h ⟨h1, h2⟩
    | running n l => rfl

theorem heldOf_eq (st : Status) (q : QueueId) (h : HeldJob) (e : Option Raw) :
    heldOf st q h e = heldRecord st q h e := rfl

theorem doneOf_eq (q : QueueId) (j : Job) (c : CondSet) (e : Option Raw) :
    doneOf q j c e = doneRecord q j c e := rfl

theorem slotFree_iff (c : CompletionQueue) : slotFree c = true ↔ c.ring.length + c.reserved < 32 :=
  decide_eq_true_iff

theorem slotFree_eq_false_iff (c : CompletionQueue) :
    slotFree c = false ↔ 32 ≤ c.ring.length + c.reserved := by
  rw [← Bool.not_eq_true, slotFree_iff, not_lt]

/-- The end of a reservation of a completion queue that still holds it. -/
theorem reservationEnded_endReservation (q : QueueId) (j : Job) (cs : CondSet) (echo : Option Raw)
    (s : State) :
    ReservationEnded q j cs echo (releaseSlot s.cq) (endReservation q j cs echo s).cq := by
  have hp : postsDone j.desc cs = true ↔
      (j.desc.extractLsb' 32 2 = 0#2 ∨ j.desc.extractLsb' 32 2 = 1#2 ∧ cs ≠ 0#7) := by
    simp only [postsDone, reportField]
    split <;> rename_i h <;> simp_all
  unfold ReservationEnded
  split
  · rename_i h; simp only [endReservation, hp.2 h, if_true, fillSlot]; exact posted_postRecord _ _
  · rename_i h; simp [endReservation, mt hp.1 h]

/-- The end of a reservation changes the completion queue alone. -/
theorem endReservation_eq (q : QueueId) (j : Job) (cs : CondSet) (echo : Option Raw) (s : State) :
    endReservation q j cs echo s = { s with cq := (endReservation q j cs echo s).cq } := rfl

/-- What a SUBSTITUTE asks of the held job (R125). -/
theorem substitutable_iff (h : HeldJob) : substitutable h = true ↔ countOf h.job.desc = 1 ∧
    (∃ o, opOfCode (h.job.desc.extractLsb' 0 6) = some o ∧ o ≠ .setframe ∧ o ≠ .fence ∧ o ≠ .clear) ∧
    h.conds ≠ badJobBit := by
  simp only [substitutable, Bool.and_eq_true, beq_iff_eq, bne_iff_ne, opField, codeField]
  cases ho : opOfCode (h.job.desc.extractLsb' 0 6) with
  | none => simp
  | some o => cases o <;> simp

/-! ## Events -/

/-- EVT_PENDING carries source `n` in bit `n`. -/
theorem evtPending_bit (s : State) {n : Nat} (h : n < 8) :
    (evtPending s).getLsbD n = sourcePending s n := by
  simp only [evtPending, List.range_succ, List.range_zero, List.nil_append,
    List.foldl_cons, List.foldl_nil, List.cons_append]
  interval_cases n <;>
  generalize sourcePending s 0 = a0 <;>
  generalize sourcePending s 1 = a1 <;>
  generalize sourcePending s 2 = a2 <;>
  generalize sourcePending s 3 = a3 <;>
  generalize sourcePending s 4 = a4 <;>
  generalize sourcePending s 5 = a5 <;>
  generalize sourcePending s 6 = a6 <;>
  generalize sourcePending s 7 = a7 <;> revert a0 a1 a2 a3 a4 a5 a6 a7 <;> decide

end Sys2Proof.Machine
end

