-- ==== Sys2Proof/Laws/Issue.lean ====
section
/-! SUPPORT. The model's tests of a queue head, each as the manual words it, and what an issue does. -/

namespace Sys2Proof.Machine

/-! ## The conditions of R88, one by one -/

theorem claimFits_iff (il : IssueLogic) (c : Option Claim) :
    claimFits il c = true ↔ ∀ d, c = some d → ClaimFree il d := by
  cases c with
  | none => simp [claimFits]
  | some c => cases c <;> simp [claimFits, ClaimFree]

theorem isFence_iff (d : Desc) : isFence d = true ↔ jobOp d = some .fence := by simp [isFence]

theorem isBothFence_iff (d : Desc) :
    isBothFence d = true ↔ jobOp d = some .fence ∧ flagField d = true := by
  simp [isBothFence, isFence]

theorem holdsBothFence_iff (Q : Queue) : holdsBothFence Q = true ↔ HoldingBothFence Q := by
  simp only [holdsBothFence, HoldingBothFence, Bool.and_eq_true, beq_iff_eq]
  cases headJob Q <;> simp [isBothFence_iff]

theorem anyMarked_eq_false_iff (s : State) (ns : List CellNo) :
    anyMarked s ns = false ↔ ∀ n ∈ ns, isMarked s.issue.marks n = false := by
  simp [anyMarked]

theorem drained_iff (s : State) (q : QueueId) (d : Desc) : drained s q d = true ↔
    (jobOp d = some .fence → (s.queue q).inflight = 0 ∧
      (flagField d = true → (s.queue q.other).inflight = 0)) := by
  simp only [drained, ← isFence_iff]
  by_cases h : isFence d = true <;> simp [h]
  intro _
  cases flagField d <;> simp

theorem guardedInFlight_eq_false_iff (s : State) (q : QueueId) : guardedInFlight s q = false ↔
    ∀ e ∈ s.issue.inflight, e.queue = q → e.guarded = false := by
  simp [guardedInFlight]

/-- Two claims that fit the free capacity each, fit it together as R104 has it. -/
theorem claimFits_both (il : IssueLogic) (c c' : Option Claim)
    (h : ∀ d, c = some d → ClaimFree il d) (h' : ∀ d, c' = some d → ClaimFree il d) :
    claimFits (claimUnits il c) c' = false ↔
      ∃ d d', c = some d ∧ c' = some d' ∧ ¬BothClaimsFit il d d' := by
  cases c with
  | none => simpa [claimUnits] using (claimFits_iff il c').2 h'
  | some d =>
    cases c' with
    | none => simp [claimFits]
    | some d' =>
      have h := h d rfl
      have h' := h' d' rfl
      have : (∃ a b, some d = some a ∧ some d' = some b ∧ ¬BothClaimsFit il a b) ↔
          ¬BothClaimsFit il d d' := by simp
      rw [this]
      obtain ⟨marks, tu, su, pu, fl, st, pr, k⟩ := il
      cases pu <;> cases d <;> cases d' <;>
        simp_all [ClaimFree, BothClaimsFit, claimFits, claimUnits]

/-! ## The head of a queue -/

/-- Giving up the head changes the ring and the retry position alone. -/
theorem dropHead_eq (Q : Queue) :
    dropHead Q = { Q with ring := (dropHead Q).ring, retry := none } := by
  simp only [dropHead]; split
  · rfl
  · rename_i h; rw [← h]

@[simp] theorem dropHead_inflight (Q : Queue) : (dropHead Q).inflight = Q.inflight := by rw [dropHead_eq]
@[simp] theorem dropHead_haltMask (Q : Queue) : (dropHead Q).haltMask = Q.haltMask := by rw [dropHead_eq]
@[simp] theorem dropHead_state (Q : Queue) : (dropHead Q).state = Q.state := by rw [dropHead_eq]
@[simp] theorem dropHead_retry (Q : Queue) : (dropHead Q).retry = none := by rw [dropHead_eq]
@[simp] theorem dropHead_nextSeq (Q : Queue) : (dropHead Q).nextSeq = Q.nextSeq := by rw [dropHead_eq]
@[simp] theorem dropHead_flushCount (Q : Queue) : (dropHead Q).flushCount = Q.flushCount := by
  rw [dropHead_eq]

/-! ## The checks of an issue -/

/-- The mask bit of POISON_IN is bit 4 of the halt mask. -/
theorem fullMask_poisonIn (m : BitVec 5) :
    (fullMask m &&& poisonInBit != 0#7) = m.getLsbD 4 := by
  revert m; decide

/-- A reservation taken and released again. -/
@[simp] theorem releaseSlot_takeSlot (c : CompletionQueue) : releaseSlot (takeSlot c) = c := rfl

end Sys2Proof.Machine
end

