-- ==== Sys2Proof/Laws/Marks.lean ====
section
/-! SUPPORT. The laws of the pending marks: which cells carry a mark after marks are set and cleared. -/

namespace Sys2Proof.Machine

variable {marks : BitVec 256} {n k : CellNo} {ns : List CellNo}

theorem isMarked_markOf : isMarked (markOf k) n = decide (n = k) := by
  have hn := n.isLt
  by_cases h : n.toNat < k.toNat
  · have h' : n ≠ k := by rintro rfl; omega
    simp [isMarked, markOf, BitVec.getLsbD_shiftLeft, h, h']
  · have : (n = k) ↔ n.toNat - k.toNat = 0 := by
      rw [← BitVec.toNat_inj]; omega
    simp [isMarked, markOf, BitVec.getLsbD_shiftLeft, h, this, BitVec.getLsbD_one]
    omega

theorem isMarked_or (a b : BitVec 256) : isMarked (a ||| b) n = (isMarked a n || isMarked b n) := by
  simp [isMarked]

theorem isMarked_and_not (a b : BitVec 256) :
    isMarked (a &&& ~~~b) n = (isMarked a n && !isMarked b n) := by
  have hn : n.toNat < 256 := n.isLt
  simp [isMarked, hn]

@[simp] theorem isMarked_zero : isMarked 0#256 n = false := by simp [isMarked]

/-- Setting marks marks the cells named, and no other. -/
theorem isMarked_setMarks :
    isMarked (setMarks ns marks) n = true ↔ isMarked marks n = true ∨ n ∈ ns := by
  induction ns generalizing marks with
  | nil => simp [setMarks]
  | cons k ns ih =>
    rw [setMarks, List.foldl_cons, ← setMarks, ih, isMarked_or, isMarked_markOf]
    simp only [Bool.or_eq_true, decide_eq_true_eq, List.mem_cons, or_assoc]

/-- Clearing marks clears those of the cells named, and no other. -/
theorem isMarked_clearMarks :
    isMarked (clearMarks ns marks) n = true ↔ isMarked marks n = true ∧ n ∉ ns := by
  induction ns generalizing marks with
  | nil => simp [clearMarks]
  | cons k ns ih =>
    rw [clearMarks, List.foldl_cons, ← clearMarks, ih, isMarked_and_not, isMarked_markOf]
    simp only [Bool.and_eq_true, Bool.not_eq_true', decide_eq_false_iff_not, List.mem_cons, not_or,
      and_assoc]

end Sys2Proof.Machine
end

