-- ==== Sys2Proof/Laws/Completion.lean ====
section
/-! SUPPORT. The results of a job, and what each part of a completion does, each said once. -/

namespace Sys2Proof.Machine

/-! ## Element results -/

/-- A cell in the form of R1: value 0 unless it is VALID. -/
def inForm (c : Cell) : Prop := taggedCell c.value c.tag = c

theorem inForm_valid (v : Raw) : inForm ⟨v, .valid⟩ := rfl

theorem inForm_taggedCell (v : Raw) (t : Tag) : inForm (taggedCell v t) := (taggedCell_idem v t).symm

theorem inForm_settleResult (x : Int) (b : Bool) : inForm (settleResult x b).cell := by
  unfold settleResult; split
  · rfl
  · split <;> rfl

theorem inForm_laneResult (d : Desc) (o : Op) (a b acc : Int) : inForm (laneResult d o a b acc).cell := by
  cases o <;> simp only [laneResult, intResult, quotResult, rootResult] <;> (try split) <;> (try split) <;>
    first | exact inForm_settleResult _ _ | rfl

theorem inForm_elementResult (e : InFlight) (o : Op) (i : Nat) : inForm (elementResult e o i).cell := by
  unfold elementResult; split
  · rfl
  · exact inForm_laneResult _ _ _ _ _

theorem inForm_reductionResult (e : InFlight) (o : Op) : inForm (reductionResult e o).cell := by
  unfold reductionResult; split
  · rfl
  · split <;> exact inForm_settleResult _ _

/-- Every element result is in the form of R1. -/
theorem inForm_of_mem_jobResults {e : InFlight} {r : ElemResult} (h : r ∈ jobResults e) :
    inForm r.cell := by
  unfold jobResults at h
  simp only at h
  split at h
  · cases h
  · cases h
  · cases h
  · obtain ⟨c, -, rfl⟩ := List.mem_map.1 h; exact inForm_taggedCell _ _
  · rw [List.eq_of_mem_replicate h]; rfl
  · rw [List.eq_of_mem_replicate h]; rfl
  · rw [List.mem_singleton.1 h]; exact inForm_reductionResult _ _
  · rw [List.mem_singleton.1 h]; exact inForm_reductionResult _ _
  · obtain ⟨i, -, rfl⟩ := List.mem_map.1 h; exact inForm_elementResult _ _ _

/-- A job in flight has one result for each of its destination cells. -/
theorem length_jobResults {e : InFlight} (h : EntrySound e) : (jobResults e).length = e.dests.length := by
  obtain ⟨o, ho, hc, -, -, hd, ha, -⟩ := h
  rw [hd]
  cases o <;> simp_all [jobResults, isReduction, claimFor, readsA]

/-- The result of each destination cell of a job in flight. -/
theorem exists_result {e : InFlight} (h : EntrySound e) {i : Nat} {n : CellNo} (hi : e.dests[i]? = some n) :
    ∃ r, (jobResults e)[i]? = some r := by
  have : i < (jobResults e).length := by
    rw [length_jobResults h]; exact (List.getElem?_eq_some_iff.1 hi).1
  exact ⟨_, List.getElem?_eq_getElem this⟩

/-! ## The writes of a completion -/

/-- Distinct destination cells hold after the writes their own results. -/
theorem cellAt_putResults {ns : List CellNo} {rs : List ElemResult} {s : State} {i : Nat} {n : CellNo}
    {r : ElemResult} (h : Memory.wf s.cell.cells = true) (hn : ns.Nodup) (hi : ns[i]? = some n)
    (hr : rs[i]? = some r) (hf : inForm r.cell) : (putResults ns rs s).cellAt n = r.cell := by
  induction ns generalizing rs s i with
  | nil => simp at hi
  | cons k ns ih =>
    cases rs with
    | nil => simp at hr
    | cons x rs =>
      obtain ⟨h1, h2⟩ := List.nodup_cons.1 hn
      cases i with
      | zero =>
        obtain rfl : k = n := by simpa using hi
        obtain rfl : x = r := by simpa using hr
        rw [putResults, cellAt_putResults_of_not_mem (wf_putCell h) h1, cellAt_putCell h, if_pos rfl, hf]
      | succ i => exact ih (wf_putCell h) h2 (by simpa using hi) (by simpa using hr)

/-! ## The parts of a completion -/

/-- A held access whose cell still carries its mark stays held; with none held nothing happens. -/
theorem settleHeld_of_marked {s : State}
    (h : ∀ a, s.cell.held = some a → isMarked s.issue.marks a.cell = true) : settleHeld s = s := by
  unfold settleHeld; split
  · rfl
  · rename_i a ha; simp [h a ha]

/-- A held access whose cell lost its mark is carried out. -/
theorem settleHeld_of_cleared {s : State} {a : HeldAccess} (ha : s.cell.held = some a)
    (h : isMarked s.issue.marks a.cell = false) :
    settleHeld s = doAccess a.kind a.cell { s with cell := { s.cell with held := none } } := by
  simp [settleHeld, ha, h]

/-- What a carried-out access leaves alone. -/
theorem doAccess_frame (k : AccessKind) (n : CellNo) (s : State) :
    doAccess k n s = { s with cell := (doAccess k n s).cell, readData := (doAccess k n s).readData } := by
  cases k with
  | read => rfl
  | write b => simp only [doAccess, doCellWrite, putCell, advanceAddr]

/-- What a held access that is carried out leaves alone. -/
theorem settleHeld_frame (s : State) :
    settleHeld s = { s with cell := (settleHeld s).cell, readData := (settleHeld s).readData } := by
  unfold settleHeld; split
  · rfl
  · split
    · rfl
    · rw [doAccess_frame]

/-- The capacity that a completing job gives back, and what stays of the issue logic (R91). -/
theorem releaseUnits_eq (il : IssueLogic) (c : Claim) :
    releaseUnits il c = { il with tu := (releaseUnits il c).tu, su := (releaseUnits il c).su,
                                  pu := (releaseUnits il c).pu } := by
  cases c <;> rfl

/-- The capacity that an issuing job takes, and what stays of the issue logic (R91). -/
theorem claimUnits_eq (il : IssueLogic) (c : Option Claim) :
    claimUnits il c = { il with tu := (claimUnits il c).tu, su := (claimUnits il c).su,
                                pu := (claimUnits il c).pu } := by
  rcases c with _ | c
  · rfl
  · cases c <;> rfl

/-- What the retirement of a job does to the queue it came from, and what it leaves alone. -/
theorem retireJob_frame (n : Nat) (e : InFlight) (s : State) :
    (retireJob n e s).queue e.queue =
      { s.queue e.queue with inflight := (s.queue e.queue).inflight - 1 } ∧
    (retireJob n e s).queue e.queue.other = s.queue e.queue.other ∧
    retireJob n e s = { s with q0 := (retireJob n e s).q0, q1 := (retireJob n e s).q1,
                               issue := (retireJob n e s).issue } := by
  refine ⟨by simp [retireJob], ?_, ?_⟩ <;> cases h : e.queue <;>
    simp [retireJob, h, State.queue, State.setQueue, QueueId.other]

@[simp] theorem retireJob_cell (n : Nat) (e : InFlight) (s : State) :
    (retireJob n e s).cell = s.cell := by simp [retireJob]
@[simp] theorem retireJob_cq (n : Nat) (e : InFlight) (s : State) :
    (retireJob n e s).cq = s.cq := by simp [retireJob]
@[simp] theorem retireJob_marks (n : Nat) (e : InFlight) (s : State) :
    (retireJob n e s).issue.marks = clearMarks e.dests s.issue.marks := by simp [retireJob]
@[simp] theorem retireJob_inflight (n : Nat) (e : InFlight) (s : State) :
    (retireJob n e s).issue.inflight = s.issue.inflight.eraseIdx n := by simp [retireJob]
@[simp] theorem putResults_issue (ns : List CellNo) (rs : List ElemResult) (s : State) :
    (putResults ns rs s).issue = s.issue := by rw [putResults_eq]
@[simp] theorem putResults_queue (ns : List CellNo) (rs : List ElemResult) (s : State) (q : QueueId) :
    (putResults ns rs s).queue q = s.queue q := by rw [putResults_eq]; cases q <;> rfl
@[simp] theorem putResults_cq (ns : List CellNo) (rs : List ElemResult) (s : State) :
    (putResults ns rs s).cq = s.cq := by rw [putResults_eq]
@[simp] theorem putResults_held (ns : List CellNo) (rs : List ElemResult) (s : State) :
    (putResults ns rs s).cell.held = s.cell.held := by rw [putResults_eq]

@[simp] theorem settleHeld_issue (s : State) : (settleHeld s).issue = s.issue := by
  rw [settleHeld_frame]
@[simp] theorem settleHeld_cq (s : State) : (settleHeld s).cq = s.cq := by rw [settleHeld_frame]
@[simp] theorem settleHeld_event (s : State) : (settleHeld s).event = s.event := by
  rw [settleHeld_frame]
@[simp] theorem settleHeld_port (s : State) : (settleHeld s).port = s.port := by rw [settleHeld_frame]
@[simp] theorem settleHeld_engine (s : State) : (settleHeld s).engine = s.engine := by
  rw [settleHeld_frame]
@[simp] theorem settleHeld_pending (s : State) : (settleHeld s).pending = s.pending := by
  rw [settleHeld_frame]
@[simp] theorem settleHeld_queue (s : State) (q : QueueId) :
    (settleHeld s).queue q = s.queue q := by rw [settleHeld_frame]; cases q <;> rfl

/-- What the end of a queue's last job in flight can do: it moves the state and the halt information of
that queue, the completion queue, and PAUSED's event, and leaves everything else. -/
theorem settleQueue_frame (q : QueueId) (s : State) :
    (settleQueue q s).queue q.other = s.queue q.other ∧
    (settleQueue q s).queue q = { s.queue q with
      state := ((settleQueue q s).queue q).state, haltCond := ((settleQueue q s).queue q).haltCond,
      haltTag := ((settleQueue q s).queue q).haltTag, haltSeq := ((settleQueue q s).queue q).haltSeq } ∧
    settleQueue q s = { s with
      q0 := (settleQueue q s).q0, q1 := (settleQueue q s).q1, cq := (settleQueue q s).cq
      event := { s.event with paused := (settleQueue q s).event.paused } } := by
  unfold settleQueue
  split
  · split <;> cases q <;> exact ⟨rfl, rfl, rfl⟩
  · cases q <;> exact ⟨rfl, rfl, rfl⟩

end Sys2Proof.Machine
end

