-- ==== Sys2Proof/Laws/Window.lean ====
section
/-! SUPPORT. The laws of the register window: bytes of multi-byte registers, and for each register that
a host write stores plainly, that every other address reads as before. -/

namespace Sys2Proof.Machine

/-! ## Bytes of a multi-byte register -/

section
variable {w : Nat} (v : BitVec w) (i j : Nat) (b : Byte)

theorem getLsbD_byteMask (k : Nat) : (0xFF#8).getLsbD k = decide (k < 8) := by
  by_cases h : k < 8
  · interval_cases k <;> rfl
  · simp [h, BitVec.getLsbD_of_ge _ _ (by omega : 8 ≤ k)]

theorem getLsbD_withByte (k : Nat) : (withByte v i b).getLsbD k =
    if 8 * i ≤ k ∧ k < 8 * i + 8 ∧ k < w then b.getLsbD (k - 8 * i) else v.getLsbD k := by
  simp only [withByte, BitVec.getLsbD_or, BitVec.getLsbD_and, BitVec.getLsbD_not,
    BitVec.getLsbD_shiftLeft, BitVec.getLsbD_setWidth, getLsbD_byteMask]
  by_cases hk : k < w
  · by_cases h1 : k < 8 * i
    · simp [hk, h1]
    · by_cases h2 : k < 8 * i + 8
      · have a1 : 8 * i ≤ k := by omega
        have a2 : k - 8 * i < 8 := by omega
        have a3 : k - 8 * i < w := by omega
        simp [hk, h1, h2, a1, a2, a3]
      · have a2 : ¬k - 8 * i < 8 := by omega
        have a4 : b.getLsbD (k - 8 * i) = false := BitVec.getLsbD_of_ge _ _ (by omega)
        simp [hk, h1, h2, a2, a4]
  · have a1 : v.getLsbD k = false := BitVec.getLsbD_of_ge _ _ (by omega)
    simp [hk, a1]

/-- A byte written reads back. -/
theorem byteOf_withByte_same (h : 8 * i + 8 ≤ w) : byteOf (withByte v i b) i = b := by
  ext k hk
  have : 8 * i ≤ 8 * i + k ∧ 8 * i + k < 8 * i + 8 ∧ 8 * i + k < w := by omega
  simp only [byteOf, BitVec.getElem_extractLsb', getLsbD_withByte, this]
  simp [BitVec.getLsbD_eq_getElem hk]

/-- The other bytes stay. -/
theorem byteOf_withByte_ne (h : j ≠ i) : byteOf (withByte v i b) j = byteOf v j := by
  ext k hk
  have : ¬(8 * i ≤ 8 * j + k ∧ 8 * j + k < 8 * i + 8 ∧ 8 * j + k < w) := by omega
  simp only [byteOf, BitVec.getElem_extractLsb', getLsbD_withByte, this, if_false]

end

/-! ## Addresses that a plain write leaves as they read -/

section
variable (s : State) (a : WindowAddr) (b : Byte)

theorem readWindow_cmdArg (h : a.toNat ≠ 0x05) :
    readWindow { s with port := { s.port with cmdArg := b } } a = readWindow s a := by
  simp only [readWindow, h, if_false]; rfl

theorem readWindow_timebase (h : a.toNat ≠ 0x0C) :
    readWindow { s with port := { s.port with timebase := b } } a = readWindow s a := by
  simp only [readWindow, h, if_false]; rfl

theorem readWindow_waitLimit (h : a.toNat ≠ 0x0D) :
    readWindow { s with port := { s.port with waitLimit := b } } a = readWindow s a := by
  simp only [readWindow, h, if_false]; rfl

theorem readWindow_autoInc (x : Bool) (h : a.toNat ≠ 0x11) :
    readWindow { s with cell := { s.cell with autoInc := x } } a = readWindow s a := by
  simp only [readWindow, h, if_false]; rfl

theorem readWindow_coalesceTime (h : a.toNat ≠ 0x4B) :
    readWindow { s with cq := { s.cq with coalesceTime := b } } a = readWindow s a := by
  simp only [readWindow, h, if_false]; rfl

theorem readWindow_substitute (i : Nat) (hi : i < 4) (h : a.toNat ≠ 0x08 + i) :
    readWindow { s with substitute := withByte s.substitute i b } a = readWindow s a := by
  by_cases hr : 0x08 ≤ a.toNat ∧ a.toNat ≤ 0x0B
  · have h1 : a.toNat ≠ 0x00 := by omega
    have h2 : a.toNat ≠ 0x01 := by omega
    have h3 : a.toNat ≠ 0x02 := by omega
    have h4 : a.toNat ≠ 0x03 := by omega
    have h5 : a.toNat ≠ 0x05 := by omega
    have h6 : a.toNat ≠ 0x06 := by omega
    simp only [readWindow, hr, h1, h2, h3, h4, h5, h6, if_false, and_self, if_true]
    exact byteOf_withByte_ne _ _ _ _ (by omega)
  · simp only [readWindow, hr, if_false]; rfl

theorem readWindow_jobStage (i : Nat) (hi : i < 8) (h : a.toNat ≠ 0x18 + i) :
    readWindow { s with jobStage := withByte s.jobStage i b } a = readWindow s a := by
  by_cases hr : 0x18 ≤ a.toNat ∧ a.toNat ≤ 0x1F
  · obtain ⟨h1, h2⟩ := hr
    have g : ∀ m, m < 0x18 → a.toNat ≠ m := by intro m hm; omega
    have k1 : ¬(0x08 ≤ a.toNat ∧ a.toNat ≤ 0x0B) := by omega
    have k2 : ¬(0x15 ≤ a.toNat ∧ a.toNat ≤ 0x17) := by omega
    have k3 : ¬(0x20 ≤ a.toNat ∧ a.toNat ≤ 0x2B) := by omega
    simp only [readWindow, h1, h2, g 0x00 (by omega), g 0x01 (by omega), g 0x02 (by omega),
      g 0x03 (by omega), g 0x05 (by omega), g 0x06 (by omega), g 0x0C (by omega), g 0x0D (by omega),
      g 0x0E (by omega), g 0x10 (by omega), g 0x11 (by omega), g 0x12 (by omega), g 0x14 (by omega),
      k1, k2, if_false, and_self, if_true]
    exact byteOf_withByte_ne _ _ _ _ (by omega)
  · simp only [readWindow, hr, if_false]; rfl

/-- EVT_PENDING depends on the latched sources of the event unit alone, and not on its registers. -/
theorem evtPending_congr (e : EventUnit) (h0 : e.startDone = s.event.startDone)
    (h4 : e.paused = s.event.paused) (h6 : e.signal = s.event.signal)
    (h7 : e.starved = s.event.starved) : evtPending { s with event := e } = evtPending s := by
  have : ∀ n, sourcePending { s with event := e } n = sourcePending s n := by
    intro n
    match n with
    | 0 => exact h0
    | 4 => exact h4
    | 6 => exact h6
    | 7 => exact h7
    | 1 | 2 | 3 | 5 => rfl
    | _ + 8 => rfl
  simp only [evtPending, this]

theorem readWindow_enable (h : a.toNat ≠ 0x51) (h' : a.toNat ≠ 0x54) :
    readWindow { s with event := { s.event with enable := b } } a = readWindow s a := by
  simp only [readWindow, h, h', if_false,
    evtPending_congr s { s.event with enable := b } rfl rfl rfl rfl]
  rfl

theorem readWindow_level0 (h : a.toNat ≠ 0x52) (h' : a.toNat ≠ 0x54) :
    readWindow { s with event := { s.event with level0 := b } } a = readWindow s a := by
  simp only [readWindow, h, h', if_false,
    evtPending_congr s { s.event with level0 := b } rfl rfl rfl rfl]
  rfl

theorem readWindow_level1 (h : a.toNat ≠ 0x53) (h' : a.toNat ≠ 0x54) :
    readWindow { s with event := { s.event with level1 := b } } a = readWindow s a := by
  simp only [readWindow, h, h', if_false,
    evtPending_congr s { s.event with level1 := b } rfl rfl rfl rfl]
  rfl

theorem readWindow_global (x : Bool) (h : a.toNat ≠ 0x56) :
    readWindow { s with event := { s.event with global := x } } a = readWindow s a := by
  simp only [readWindow, h, if_false]; rfl

end

/-! ## What a plain write can change -/

theorem ite_ind {α : Type} {p : α → Prop} {c : Prop} [Decidable c] {x y : α} (hx : c → p x)
    (hy : ¬c → p y) : p (if c then x else y) := by
  split
  · exact hx ‹_›
  · exact hy ‹_›

/-- A TIMEBASE that a write stores is 1 to 64 (R165). -/
theorem clampTimebase_range (b : Byte) :
    1 ≤ (clampTimebase b).toNat ∧ (clampTimebase b).toNat ≤ 64 := by
  revert b; decide

/-- `t` is `s` but for the registers whose writes have no row of their own; a TIMEBASE written is brought
into its range. -/
def PlainChange (b : Byte) (s t : State) : Prop :=
  (t.port.timebase = s.port.timebase ∨ t.port.timebase = clampTimebase b) ∧
  t = { s with
    cell := { s.cell with autoInc := t.cell.autoInc, staging := t.cell.staging }
    port := { s.port with cmdArg := t.port.cmdArg, timebase := t.port.timebase,
                          waitLimit := t.port.waitLimit }
    cq := { s.cq with coalesceTime := t.cq.coalesceTime }
    event := { s.event with enable := t.event.enable, level0 := t.event.level0,
                            level1 := t.event.level1, global := t.event.global }
    jobStage := t.jobStage
    substitute := t.substitute }

/-- Everything a write of a register without a row of its own can change. -/
theorem plainChange_writePlain (a : WindowAddr) (b : Byte) (s : State) :
    PlainChange b s (writePlain a b s) := by
  unfold writePlain
  iterate 12
    refine ite_ind (p := PlainChange b s)
      (fun _ => ⟨by first | exact .inl rfl | exact .inr rfl, rfl⟩) fun _ => ?_
  exact ⟨.inl rfl, rfl⟩

/-- Everything a host write of any window address can do: one of the rows' effects, or a plain write. -/
theorem writeWindow_ind {p : State → Prop} {a : WindowAddr} {b : Byte} {s : State}
    (cmd : p (writeCmd b s)) (arb : p (writeArbCtrl b s)) (addr : p (writeCellAddr b s))
    (data : p (cellAccess (.write b) s)) (mask : ∀ q, p (writeHaltMask q b s))
    (commit : ∀ q, p (commitJob q s)) (threshold : p (writeThreshold b s)) (pop : p (writeCqPop s))
    (ack : p (writeEvtAck b s)) (clear : p (clearFault s)) (plain : p (writePlain a b s)) :
    p (writeWindow a b s) := by
  unfold writeWindow
  refine ite_ind (p := p) (fun _ => cmd) fun _ => ?_
  refine ite_ind (p := p) (fun _ => arb) fun _ => ?_
  refine ite_ind (p := p) (fun _ => addr) fun _ => ?_
  refine ite_ind (p := p) (fun _ => data) fun _ => ?_
  refine ite_ind (p := p) (fun _ => mask .q0) fun _ => ?_
  refine ite_ind (p := p) (fun _ => mask .q1) fun _ => ?_
  refine ite_ind (p := p) (fun _ => commit .q0) fun _ => ?_
  refine ite_ind (p := p) (fun _ => commit .q1) fun _ => ?_
  refine ite_ind (p := p) (fun _ => threshold) fun _ => ?_
  refine ite_ind (p := p) (fun _ => pop) fun _ => ?_
  refine ite_ind (p := p) (fun _ => ack) fun _ => ?_
  exact ite_ind (p := p) (fun _ => clear) fun _ => plain

end Sys2Proof.Machine
end

