-- ==== Sys2Proof/Laws/Exec.lean ====
section
/-! SUPPORT. Everything a command can do, said once: what holds of the state at hand and of the result of each
happening holds of the state that any command leaves. -/

namespace Sys2Proof.Machine

/-- A property of the outcome of each happening of the part that the state `s` allows. -/
structure Happenings (p : State → Prop) (s : State) : Prop where
  same : p s
  powerOn : p { hardReset s with
    engine := { (hardReset s).engine with por := true, holdCause := .powerOn } }
  resetAssert : ∀ cause, s.engine.pin = false → p { hardReset s with
    engine := { (hardReset s).engine with pin := true, holdCause := cause } }
  endPowerOn : s.engine.por = true → p (leaveReset { s with engine := { s.engine with por := false } })
  endPin : s.engine.pin = true → p (leaveReset { s with engine := { s.engine with pin := false } })
  scrubEnd : scrubRuns s = true → p (endScrub s)
  tick : inReset s = false → p (passTick s)
  cellAddr : ∀ b, takesAccess s = true → p (writeCellAddr b s)
  cellData : ∀ k, takesAccess s = true → p (cellAccess k s)
  completeRead : takesAccess s = true → p (completeRead s)
  commit : ∀ q, takesAccess s = true → p (commitJob q s)
  haltMask : ∀ q b, takesAccess s = true → p (writeHaltMask q b s)
  arbCtrl : ∀ b, takesAccess s = true → p (writeArbCtrl b s)
  cqHead : takesAccess s = true → p (readCqHead s)
  cqPop : takesAccess s = true → p (writeCqPop s)
  threshold : ∀ b, takesAccess s = true → p (writeThreshold b s)
  eventCode : takesAccess s = true → p (readEventCode s)
  evtAck : ∀ b, takesAccess s = true → p (writeEvtAck b s)
  faultClear : takesAccess s = true → p (clearFault s)
  plain : ∀ a b, takesAccess s = true → p (writePlain a b s)
  result : ∀ r, takesAccess s = true → p (setResult r s)
  resume : ∀ q, HostReady s → p (reportStall s (resumeCommand q s))
  pause : ∀ q, HostReady s → p (reportStall s (pauseCommand q s))
  flush : ∀ q, HostReady s → p (flushCommand q s)
  clearSticky : ∀ q, HostReady s → p (clearStickyCommand q s)
  cellCommand : ∀ t, t ≠ .valid → HostReady s → p (cellCommand t s)
  softReset : HostReady s → p (softReset s)
  issue : ∀ q, p (reportStall s (examineHead q s))
  completion : ∀ n : Fin 4, p (reportStall s (completeJob n.val s))

variable {p : State → Prop} {s : State}

theorem Happenings.hostAccess (h : Happenings p s) {f : State → State}
    (hf : takesAccess s = true → p (f s)) : p (Machine.hostAccess f s) :=
  ite_ind (p := p) hf fun _ => h.same

theorem Happenings.takeCommand (h : Happenings p s) (ht : takesAccess s = true) (code : BitVec 4)
    (q : QueueId) : p (Machine.takeCommand code q s) := by
  unfold Machine.takeCommand
  refine ite_ind (p := p) (fun _ => h.result _ ht) fun _ => ?_
  refine ite_ind (p := p) (fun _ => h.result _ ht) fun he => ?_
  have hr : HostReady s := ⟨ht, by cases hs : s.engine.state <;> simp_all⟩
  unfold ownerCommand
  refine ite_ind (p := p) (fun _ => h.resume q hr) fun _ => ?_
  refine ite_ind (p := p) (fun _ => h.pause q hr) fun _ => ?_
  refine ite_ind (p := p) (fun _ => h.flush q hr) fun _ => ?_
  refine ite_ind (p := p) (fun _ => h.clearSticky q hr) fun _ => ?_
  refine ite_ind (p := p) (fun _ => h.cellCommand _ (by decide) hr) fun _ => ?_
  exact ite_ind (p := p) (fun _ => h.cellCommand _ (by decide) hr) fun _ => h.softReset hr

/-- Every command's outcome is that of one of the happenings. -/
theorem Happenings.exec (h : Happenings p s) (c : Instr) :
    ∃ t, Machine.exec c s = .next t ∧ p t := by
  cases c with
  | powerOn => exact ⟨_, rfl, h.powerOn⟩
  | resetAssert =>
    refine ⟨_, rfl, ite_ind (p := p) (fun _ => h.same) fun hp => ?_⟩
    exact h.resetAssert _ (by simpa using hp)
  | resetRelease src =>
    cases src with
    | powerOn => exact ⟨_, rfl, ite_ind (p := p) (fun hp => h.endPowerOn hp) fun _ => h.same⟩
    | pin => exact ⟨_, rfl, ite_ind (p := p) (fun hp => h.endPin hp) fun _ => h.same⟩
  | scrubEnd => exact ⟨_, rfl, ite_ind (p := p) (fun hp => h.scrubEnd hp) fun _ => h.same⟩
  | tickBoundary =>
    refine ⟨_, rfl, ?_⟩
    by_cases hr : inReset s = true
    · simpa [passTick, hr] using h.same
    · exact h.tick (by simpa using hr)
  | waitTimeout =>
    refine ⟨_, rfl, ite_ind (p := p) (fun _ => ?_) fun _ => h.same⟩
    by_cases hr : inReset s = true
    · simpa [passTick, hr] using h.same
    · exact h.tick (by simpa using hr)
  | coalescingTimerExpiry =>
    refine ⟨_, rfl, ite_ind (p := p) (fun _ => ?_) fun _ => h.same⟩
    by_cases hr : inReset s = true
    · simpa [passTick, hr] using h.same
    · exact h.tick (by simpa using hr)
  | cellAddrWrite b => exact ⟨_, rfl, h.hostAccess (h.cellAddr b)⟩
  | cellDataRead => exact ⟨_, rfl, h.hostAccess (h.cellData _)⟩
  | cellReadComplete => exact ⟨_, rfl, h.hostAccess h.completeRead⟩
  | cellWrite b => exact ⟨_, rfl, h.hostAccess (h.cellData _)⟩
  | commit q b => exact ⟨_, rfl, h.hostAccess (h.commit q)⟩
  | haltMaskWrite q b => exact ⟨_, rfl, h.hostAccess (h.haltMask q b)⟩
  | arbCtrlWrite b => exact ⟨_, rfl, h.hostAccess (h.arbCtrl b)⟩
  | cqHeadRead => exact ⟨_, rfl, h.hostAccess h.cqHead⟩
  | cqPop b => exact ⟨_, rfl, h.hostAccess h.cqPop⟩
  | cqThresholdWrite b => exact ⟨_, rfl, h.hostAccess (h.threshold b)⟩
  | eventCodeRead => exact ⟨_, rfl, h.hostAccess h.eventCode⟩
  | evtAck b => exact ⟨_, rfl, h.hostAccess (h.evtAck b)⟩
  | faultClear b => exact ⟨_, rfl, h.hostAccess h.faultClear⟩
  | registerWrite a b =>
    exact ⟨_, rfl, h.hostAccess fun ht => writeWindow_ind (p := p) (h.takeCommand ht _ _) (h.arbCtrl b ht)
      (h.cellAddr b ht) (h.cellData _ ht) (fun q => h.haltMask q b ht) (fun q => h.commit q ht)
      (h.threshold b ht) (h.cqPop ht) (h.evtAck b ht) (h.faultClear ht) (h.plain a b ht)⟩
  | resumePlain q => exact ⟨_, rfl, h.hostAccess fun ht => h.takeCommand ht _ q⟩
  | resumeRetry q => exact ⟨_, rfl, h.hostAccess fun ht => h.takeCommand ht _ q⟩
  | resumeSkip q => exact ⟨_, rfl, h.hostAccess fun ht => h.takeCommand ht _ q⟩
  | resumeSubstitute q => exact ⟨_, rfl, h.hostAccess fun ht => h.takeCommand ht _ q⟩
  | pause q => exact ⟨_, rfl, h.hostAccess fun ht => h.takeCommand ht _ q⟩
  | flush q => exact ⟨_, rfl, h.hostAccess fun ht => h.takeCommand ht _ q⟩
  | clearSticky q => exact ⟨_, rfl, h.hostAccess fun ht => h.takeCommand ht _ q⟩
  | cellEmpty => exact ⟨_, rfl, h.hostAccess fun ht => h.takeCommand ht _ _⟩
  | cellPoison => exact ⟨_, rfl, h.hostAccess fun ht => h.takeCommand ht _ _⟩
  | softReset => exact ⟨_, rfl, h.hostAccess fun ht => h.takeCommand ht _ _⟩
  | unknownCommand b => exact ⟨_, rfl, h.hostAccess fun ht => h.takeCommand ht _ _⟩
  | issue q => exact ⟨_, rfl, h.issue q⟩
  | jobCompletion n => exact ⟨_, rfl, h.completion n⟩
  | resumeOtherArgument q => exact ⟨_, rfl, h.hostAccess fun ht => h.takeCommand ht _ q⟩

/-- What an idle clock period can do. -/
theorem clockPeriod_cases (s : State) :
    clockPeriod s = s ∨ inReset s = false ∧ ∃ u, (u = s ∨ scrubRuns s = true ∧ (u = endScrub s ∨
      s.engine.scrubNext < 255 ∧ u = { s with
        cell := { s.cell with cells := writeCells s.cell.cells s.engine.scrubNext emptyCell }
        engine := { s.engine with scrubNext := s.engine.scrubNext + 1 } })) ∧
      (clockPeriod s = passTick u ∨ u.port.divider + 1 < u.port.tickLength ∧
        clockPeriod s = { u with port := { u.port with divider := u.port.divider + 1 } }) := by
  unfold clockPeriod
  split
  · exact .inl rfl
  rename_i hr
  simp only
  generalize hu : (if scrubRuns s = true then
      (if Config.cellCount ≤ s.engine.scrubNext + 1 then endScrub s
       else { s with
         cell := { s.cell with cells := writeCells s.cell.cells s.engine.scrubNext emptyCell }
         engine := { s.engine with scrubNext := s.engine.scrubNext + 1 } })
      else s) = u
  refine .inr ⟨by simpa using hr, u, ?_, ?_⟩
  · subst hu
    split
    · rename_i h
      refine .inr ⟨h, ?_⟩
      split
      · exact .inl rfl
      · rename_i hn
        exact .inr ⟨by simp only [Config.cellCount] at hn; omega, rfl⟩
    · exact .inl rfl
  · split
    · exact .inl rfl
    · rename_i hn
      exact .inr ⟨not_le.1 hn, rfl⟩

/-- With no job at the place named nothing completes. -/
theorem completeJob_of_none {n : Nat} (h : s.issue.inflight[n]? = none) : completeJob n s = s := by
  simp [completeJob, h]

/-- An examination of a head changes nothing, or the head of one queue issues, after the arbiter has set
the starvation counter. -/
theorem examineHead_cases (q : QueueId) (s : State) :
    examineHead q s = s ∨ ∃ w j n, issuable s w = true ∧ headJob (s.queue w) = some j ∧
      (n = s.issue.starvation ∨ n ≤ s.issue.guardK.toNat) ∧
      examineHead q s = issueJob w j { s with issue := { s.issue with starvation := n } } := by
  have hh : ∀ w, issuable s w = true → ∃ j, headJob (s.queue w) = some j := by
    intro w h
    simp only [issuable, meetsAllButSlot, Bool.and_eq_true] at h
    cases hj : headJob (s.queue w) with
    | none => simp [hj] at h
    | some j => exact ⟨j, rfl⟩
  have hq : ∀ w n, ({ s with issue := { s.issue with starvation := n } } : State).queue w = s.queue w := by
    intro w n; cases w <;> rfl
  unfold examineHead
  split
  · rename_i hc
    simp only [inConflict, Bool.and_eq_true] at hc
    have hw : issuable s (arbitrate s.issue).1 = true := by
      cases q <;> cases h : (arbitrate s.issue).1 <;> first | exact hc.1.1 | exact hc.1.2
    obtain ⟨j, hj⟩ := hh _ hw
    refine .inr ⟨_, j, (arbitrate s.issue).2, hw, hj, .inr ?_, by simp only [issueHead, hq, hj]⟩
    unfold arbitrate
    split
    · exact Nat.zero_le _
    · split
      · rename_i h; exact h
      · exact Nat.zero_le _
  · split
    · rename_i h
      obtain ⟨j, hj⟩ := hh _ h
      exact .inr ⟨q, j, s.issue.starvation, h, hj, .inl rfl, by simp only [issueHead, hj]⟩
    · exact .inl rfl

end Sys2Proof.Machine
end

