-- ==== Sys2Proof/Laws/Frames.lean ====
section
/-! SUPPORT. Frames: for each shared operation the parts of the state it leaves as they were, and for those
that have few outcomes the list of them. -/

namespace Sys2Proof.Machine

variable (s : State) (q : QueueId) (j : Job) (n : Nat)

theorem passTick_frame : (passTick s).cell.cells = s.cell.cells ∧ (passTick s).engine = s.engine ∧
    (passTick s).issue = s.issue ∧ (passTick s).event = s.event ∧ (passTick s).q0 = s.q0 ∧
    (passTick s).q1 = s.q1 ∧ (passTick s).cq.ring = s.cq.ring ∧
    (passTick s).cq.reserved = s.cq.reserved ∧ (passTick s).pending = s.pending := by
  unfold passTick; split
  · exact ⟨rfl, rfl, rfl, rfl, rfl, rfl, rfl, rfl, rfl⟩
  · simp only; rw [advanceWait_frame]
    refine ⟨rfl, rfl, rfl, rfl, rfl, rfl, ?_, ?_, rfl⟩ <;> simp only [advanceTimer] <;> split <;>
      (try split) <;> rfl

theorem issueJob_frame : (issueJob q j s).cell = s.cell ∧ (issueJob q j s).engine = s.engine ∧
    (issueJob q j s).port = s.port ∧ (issueJob q j s).issue.starvation = s.issue.starvation ∧
    (issueJob q j s).issue.guardK = s.issue.guardK ∧
    (issueJob q j s).issue.preferred = s.issue.preferred ∧ (issueJob q j s).pending = s.pending ∧
    (issueJob q j s).event.starved = s.event.starved := by
  unfold issueJob; simp only
  split
  · simp only [haltAtIssue]; split <;> simp [haltQueue]
  · split
    · rename_i c _; cases c <;> simp [startJob, captureEntry, claimUnits]
    · cases isFence j.desc <;> simp [endReservation, signalFence, setFrame]

theorem completeJob_frame : (completeJob n s).engine = s.engine ∧ (completeJob n s).port = s.port ∧
    (completeJob n s).issue.starvation = s.issue.starvation ∧
    (completeJob n s).issue.guardK = s.issue.guardK ∧ (completeJob n s).pending = s.pending ∧
    (completeJob n s).event.starved = s.event.starved := by
  unfold completeJob; split
  · exact ⟨rfl, rfl, rfl, rfl, rfl, rfl⟩
  · split
    · rename_i e _ _
      simp only [completeHalting, haltQueue, setQueue_engine, setQueue_port, setQueue_issue,
        setQueue_pending, setQueue_event, settleHeld_engine, settleHeld_port, settleHeld_issue,
        settleHeld_pending, settleHeld_event, retireJob]
      cases e.claim <;> simp [releaseUnits]
    · rename_i e _ _
      simp only [completeWriting]; rw [(settleQueue_frame _ _).2.2]
      simp only [setSticky, setQueue_engine, setQueue_port, setQueue_issue, setQueue_pending,
        setQueue_event, endReservation, settleHeld_engine, settleHeld_port, settleHeld_issue,
        settleHeld_pending, settleHeld_event, retireJob]
      rw [putResults_eq]
      cases e.claim <;> simp [releaseUnits]

theorem resumeCommand_frame : (resumeCommand q s).engine = s.engine ∧
    (resumeCommand q s).issue = s.issue ∧ (resumeCommand q s).event = s.event ∧
    (resumeCommand q s).pending = s.pending ∧
    (resumeCommand q s).port = { s.port with cmdResult := (resumeCommand q s).port.cmdResult } ∧
    (resumeCommand q s).cell = { s.cell with cells := (resumeCommand q s).cell.cells } ∧
    ((resumeCommand q s).cq = s.cq ∨ ∃ r, (resumeCommand q s).cq = postRecord r s.cq) := by
  have stay : ∀ r, (setResult r s).engine = s.engine ∧ (setResult r s).issue = s.issue ∧
      (setResult r s).event = s.event ∧ (setResult r s).pending = s.pending ∧
      (setResult r s).port = { s.port with cmdResult := (setResult r s).port.cmdResult } ∧
      (setResult r s).cell = { s.cell with cells := (setResult r s).cell.cells } ∧
      ((setResult r s).cq = s.cq ∨ ∃ r', (setResult r s).cq = postRecord r' s.cq) :=
    fun r => ⟨rfl, rfl, rfl, rfl, rfl, rfl, .inl rfl⟩
  unfold resumeCommand; simp only
  split
  · exact stay _
  · split
    · split
      · simp [setQState]
      · exact stay _
    · exact stay _
    · exact stay _
    · exact stay _
    · split
      · simp [retryHeld]
      · split
        · simp only [skipHeld]; split
          · simp only [setQState, setResult_cell, setResult_issue, setResult_cq, setResult_event,
              setResult_port_eq, setResult_engine, setResult_pending, setQueue_cell, setQueue_issue,
              setQueue_cq, setQueue_event, setQueue_port, setQueue_engine, setQueue_pending]
            exact ⟨trivial, trivial, trivial, trivial, trivial, trivial, .inr ⟨_, rfl⟩⟩
          · exact stay _
        · split
          · simp only [substituteHeld]; split
            · exact stay _
            · split
              · exact stay _
              · simp only [setQState, setResult_cell, setResult_issue, setResult_cq, setResult_event,
                  setResult_port_eq, setResult_engine, setResult_pending, setQueue_cell,
                  setQueue_issue, setQueue_cq, setQueue_event, setQueue_port, setQueue_engine,
                  setQueue_pending, putCell]
                exact ⟨trivial, trivial, trivial, trivial, trivial, trivial, .inr ⟨_, rfl⟩⟩
          · exact stay _

theorem pauseCommand_frame : (pauseCommand q s).engine = s.engine ∧
    (pauseCommand q s).issue = s.issue ∧ (pauseCommand q s).pending = s.pending ∧
    (pauseCommand q s).event = { s.event with paused := (pauseCommand q s).event.paused } ∧
    (pauseCommand q s).port = { s.port with cmdResult := (pauseCommand q s).port.cmdResult } ∧
    (pauseCommand q s).cell = s.cell ∧ (pauseCommand q s).cq = s.cq := by
  unfold pauseCommand; split <;> (try split) <;> simp [setQState]

theorem flushCommand_frame : (flushCommand q s).engine = s.engine ∧
    (flushCommand q s).issue = s.issue ∧ (flushCommand q s).pending = s.pending ∧
    (flushCommand q s).event = s.event ∧
    (flushCommand q s).port = { s.port with cmdResult := (flushCommand q s).port.cmdResult } ∧
    (flushCommand q s).cell = s.cell ∧ (flushCommand q s).cq = s.cq := by
  unfold flushCommand; split <;> simp

theorem clearStickyCommand_frame : (clearStickyCommand q s).engine = s.engine ∧
    (clearStickyCommand q s).issue = s.issue ∧ (clearStickyCommand q s).pending = s.pending ∧
    (clearStickyCommand q s).event = s.event ∧
    (clearStickyCommand q s).port =
      { s.port with cmdResult := (clearStickyCommand q s).port.cmdResult } ∧
    (clearStickyCommand q s).cell = s.cell ∧ (clearStickyCommand q s).cq = s.cq := by
  simp [clearStickyCommand]

theorem cellCommand_frame (t : Tag) : cellCommand t s = { s with
    cell := { s.cell with cells := (cellCommand t s).cell.cells }
    port := { s.port with cmdResult := (cellCommand t s).port.cmdResult } } := by
  unfold cellCommand; split <;> rfl

theorem cellAccess_frame (k : AccessKind) : cellAccess k s = { s with
    cell := (cellAccess k s).cell, port := (cellAccess k s).port,
    readData := (cellAccess k s).readData } := by
  unfold cellAccess; split
  · cases k <;> rfl
  · split
    · split
      · cases k <;> rfl
      · rfl
    · rw [doAccess_frame]

/-- The three outcomes of a commit. -/
theorem commitJob_cases :
    (s.engine.state = .starting ∧ commitJob q s = enterFault .notReady (commitAddr q) s) ∨
    (s.engine.state ≠ .starting ∧ 16 ≤ (s.queue q).ring.length ∧
      commitJob q s = enterFault .queueFull (commitAddr q) s) ∨
    (s.engine.state ≠ .starting ∧ (s.queue q).ring.length < 16 ∧
      commitJob q s = reportStall s (s.setQueue q
        { s.queue q with ring := (s.queue q).ring ++ [⟨s.jobStage, (s.queue q).nextSeq⟩],
                         nextSeq := (s.queue q).nextSeq + 1#8 })) := by
  unfold commitJob; simp only
  split
  · rename_i h; exact .inl ⟨h, rfl⟩
  · rename_i h; split
    · rename_i h2; exact .inr (.inl ⟨h, h2, rfl⟩)
    · rename_i h2; exact .inr (.inr ⟨h, by simpa [Config.ringCapacity] using h2, rfl⟩)

/-- The two outcomes of a pop. -/
theorem writeCqPop_cases :
    (s.cq.ring = [] ∧ writeCqPop s = enterFault .cqEmptyPop 0x4C#8 s) ∨
    (s.cq.ring ≠ [] ∧ writeCqPop s = reportStall s { s with cq := popRecord s.cq }) := by
  unfold writeCqPop; split
  · rename_i h; exact .inl ⟨h, rfl⟩
  · rename_i h; exact .inr ⟨by simp [h], rfl⟩

/-- The conditions of an issuable head that later proofs ask for. -/
theorem issuable_parts {s : State} {q : QueueId} {j : Job} (h : issuable s q = true)
    (hj : headJob (s.queue q) = some j) :
    (s.queue q).state = .active ∧ slotFree s.cq = true ∧
    (guardedUnder (fullMask (s.queue q).haltMask) j.desc = true → (s.queue q).inflight = 0) ∧
    (∀ e ∈ s.issue.inflight, e.queue = q → e.guarded = false) ∧
    claimFits s.issue (claimOf j.desc) = true ∧
    (∀ n ∈ sourceCells (s.queue q) j.desc ++ destCells (s.queue q) j.desc,
      isMarked s.issue.marks n = false) := by
  simp only [issuable, meetsAllButSlot, hj, Bool.and_eq_true, beq_iff_eq, Bool.not_eq_true',
    guardedInFlight_eq_false_iff, anyMarked_eq_false_iff, Bool.or_eq_true] at h
  obtain ⟨⟨⟨⟨⟨⟨⟨h1, h2⟩, h3⟩, h4⟩, h5⟩, h6⟩, h7⟩, h8⟩ := h
  refine ⟨h1, h8, fun hg => ?_, h7, h2, h3⟩
  rcases h4 with h4 | h4
  · rw [hg] at h4; cases h4
  · exact h4

/-- A property that every happening and every part of a clock period keeps holds after a step. -/
theorem step_ind {p : State → Prop} {s t : State} (hst : step s = .next t)
    (happen : ∀ rest, Happenings p { s with pending := rest })
    (tick : ∀ u, p u → p (passTick u))
    (count : ∀ u : State, u.port.divider + 1 < u.port.tickLength → p u →
      p { u with port := { u.port with divider := u.port.divider + 1 } })
    (same : p s) (last : scrubRuns s = true → p (endScrub s))
    (scrub : scrubRuns s = true → s.engine.scrubNext < 255 → p { s with
      cell := { s.cell with cells := writeCells s.cell.cells s.engine.scrubNext emptyCell }
      engine := { s.engine with scrubNext := s.engine.scrubNext + 1 } }) : p t := by
  unfold step at hst
  split at hst
  · cases hst
    rcases clockPeriod_cases s with e | ⟨-, u, hu, htt⟩
    · rw [e]; exact same
    · have hcu : p u := by
        rcases hu with rfl | ⟨hr, rfl | ⟨hn, rfl⟩⟩
        · exact same
        · exact last hr
        · exact scrub hr hn
      rcases htt with e | ⟨hl, e⟩
      · rw [e]; exact tick u hcu
      · rw [e]; exact count u hl hcu
  · rename_i c rest _
    obtain ⟨u, h1, h2⟩ := (happen rest).exec c
    rw [h1] at hst; cases hst; exact h2

end Sys2Proof.Machine
end

