-- ==== Sys2Proof/Tests/Slice0.lean ====
section
/-! SUPPORT. The model's own tests: the smoke test of well-formedness, the worked examples of the manual on one
happening each, and for every obligation with hypotheses a named witness that meets them. -/

namespace Sys2Proof.Tests

open Sys2Proof Sys2Proof.Machine

/-! ## Small states -/

/-- The state a command leaves. -/
def after (c : Instr) (s : State) : State :=
  match exec c s with
  | .next t => t
  | .fault _ | .refused _ => s

/-- READY after reset. -/
def ready : State := { State.reset with engine := { State.reset.engine with state := .ready } }

/-- READY, held reset by the power-on reset, by RESET#, or by both. -/
def inPor : State := after .powerOn ready
def inPin : State := after .resetAssert ready
def inBoth : State := after .resetAssert inPor

/-- A descriptor with the fields the tests vary. -/
def desc (code : BitVec 6) (dst srcA srcB : BitVec 5) (frac : BitVec 5 := 0#5) (imm : BitVec 16 := 0#16)
    (tag : Byte := 0#8) (count : BitVec 4 := 0#4) (bcast flag signal : Bool := false)
    (report : BitVec 2 := 0#2) : Desc :=
  packDesc imm tag 0#3 signal flag bcast report count 0#2 frac srcB srcA dst code

/-- ADD of cells 0 and 1 into cell 2. -/
def addJob : Desc := desc 0x10#6 2#5 0#5 1#5
/-- ADD of cells 0 and 1 into cell 3, which needs the same unit. -/
def otherAdd : Desc := desc 0x10#6 3#5 0#5 1#5
/-- MUL at q = 16 of cells 0 and 1 into cell 2, host tag 0x33. -/
def mulJob : Desc := desc 0x20#6 2#5 0#5 1#5 (frac := 16#5) (tag := 0x33#8)
/-- NEG of count 4 with BCAST: malformed. -/
def badJob : Desc := desc 0x12#6 2#5 0#5 0#5 (count := 3#4) (bcast := true)
/-- FENCE, scope OWN, SIGNAL 1. -/
def fenceJob : Desc := desc 0x02#6 0#5 0#5 0#5 (signal := true)
/-- SETFRAME of pointer B to 5. -/
def frameJob : Desc := desc 0x01#6 0#5 0#5 0#5 (imm := 5#16) (flag := true)

/-- READY, cells 0 and 1 as given, and an ACTIVE Q0 with the one job `d`, sequence 4, under the mask
`m`. -/
def active (d : Desc) (c0 c1 : Cell) (m : BitVec 5 := 0#5) : State :=
  { ready with
    cell := { ready.cell with cells := writeCells (writeCells [] 0 c0) 1 c1 }
    q0 := { Queue.reset with state := .active, ring := [⟨d, 4#8⟩], nextSeq := 5#8, haltMask := m } }

def five : Cell := ⟨5#32, .valid⟩
def seven : Cell := ⟨7#32, .valid⟩

/-- An ADD of 5 and 7 at the head, and the same in flight. -/
def queued : State := active addJob five seven
def flying : State := after (.issue .q0) queued

/-- A MUL of 256.0 and 512.0 at q = 16, guarded by a mask that holds OVERFLOW, in flight and halted. -/
def guardedMul : State :=
  after (.issue .q0) (active mulJob ⟨16777216#32, .valid⟩ ⟨33554432#32, .valid⟩ 2#5)
def haltedMul : State := after (.jobCompletion 0) guardedMul

/-- A job in flight while the next one, `d`, stands at the head. -/
def followed (d : Desc) : State :=
  { flying with q0 := { flying.q0 with ring := [⟨d, 5#8⟩], nextSeq := 6#8 } }
/-- MUL of the EMPTY cell 9 by itself into cell 3. -/
def emptyMul : Desc := desc 0x20#6 3#5 9#5 9#5

/-- Q0 DRAINING behind the ADD in flight. -/
def drainingAdd : State := after (.issue .q0) (followed emptyMul)

/-- Both queues ACTIVE, with an ADD each, K and the counter as given. -/
def contending (k : BitVec 4) (count : Nat) : State :=
  { queued with
    q1 := { Queue.reset with state := .active, ring := [⟨otherAdd, 0#8⟩], nextSeq := 1#8 }
    issue := { queued.issue with guardK := k, starvation := count } }

/-- The host's access of the marked cell 2, held. -/
def aimed : State := { flying with cell := { flying.cell with addr := 2#8 } }
def heldRead : State := after .cellDataRead aimed
def heldWrite : State :=
  after (.cellWrite 0#8)
    { aimed with cell := { aimed.cell with staging := 0x012345#24, autoInc := true } }

/-- `s` with its held access at count `n`. -/
def heldAt (n : Nat) : State :=
  { heldRead with cell := { heldRead.cell with held := some ⟨.read, 2#8, n⟩ } }

/-- A DONE record, and READY with `n` of them in the ring. -/
def doneRec : Record := doneOf .q0 ⟨addJob, 4#8⟩ 0#7 (some 12#32)
def filled (n : Nat) : State := { ready with cq := { ready.cq with ring := List.replicate n doneRec } }

/-- One record, and the coalescing timer at count `n` of `l`. -/
def timing (n l : Nat) : State :=
  { filled 1 with cq := { (filled 1).cq with timer := .running n l } }

/-- `s` with CMD_ARG holding `b`. -/
def withArg (b : Byte) (s : State) : State := { s with port := { s.port with cmdArg := b } }

/-- READY with Q0 in the state `q`. -/
def inState (q : QState) : State := { ready with q0 := { Queue.reset with state := q } }

/-- A held job: a MUL halted by OVERFLOW. -/
def heldMul : HeldJob := ⟨⟨mulJob, 4#8⟩, 0x03#7, false⟩

/-! ## Well-formedness and decoding -/

/-- The write of an address with a row of its own is no REGISTER_WRITE. -/
theorem test_wf_refuses_own_row : (Instr.registerWrite 0x10#7 0#8).wellFormed = false ∧
    (Instr.registerWrite 0x11#7 0#8).wellFormed = true := by decide

/-- A known code is no UNKNOWN_COMMAND. -/
theorem test_wf_refuses_known_code : (Instr.unknownCommand 0x21#8).wellFormed = false ∧
    (Instr.unknownCommand 0x51#8).wellFormed = true := by decide

/-- The table gives no bits, so a word spells no command and the queue stays. -/
theorem test_no_word_decodes : decodeTableWord 8 0x21 = none ∧
    State.reset.withFetchWord 8 0x21 = State.reset := ⟨rfl, rfl⟩

/-! ## The manual's examples -/

/-- The MAC and the SETFRAME of 10_register_and_record_layouts.md, Decoding examples. -/
theorem test_descriptor_examples :
    packDesc 0#16 0x2A#8 0#3 false false false 0#2 2#4 0#2 16#5 16#5 2#5 30#5 0x21#6
      = 0x00002A00221017A1#64 ∧
    packDesc 5#16 0#8 0#3 false true false 0#2 0#4 0#2 0#5 0#5 0#5 0#5 0x01#6
      = 0x0005000800000001#64 := by decide

/-- The cells of that MAC (03_jobs.md, Worked examples). -/
theorem test_mac_cells :
    destCells { Queue.reset with frameB := 5#5 } 0x00002A00221017A1#64 = [54#8, 55#8, 56#8] ∧
    aCells { Queue.reset with frameB := 5#5 } 0x00002A00221017A1#64 = [2#8, 3#8, 4#8] ∧
    bCells { Queue.reset with frameB := 5#5 } 0x00002A00221017A1#64 = [40#8, 41#8, 42#8] := by decide

/-- Its three lanes. -/
theorem test_mac_lanes :
    laneResult 0x00002A00221017A1#64 .mac 65536 32768 131072 = ⟨⟨163840#32, .valid⟩, 0#7⟩ ∧
    laneResult 0x00002A00221017A1#64 .mac 3 3 0 = ⟨⟨0#32, .valid⟩, 0x01#7⟩ ∧
    laneResult 0x00002A00221017A1#64 .mac 65536 65536 2147418112
      = ⟨⟨2147483647#32, .valid⟩, 0x03#7⟩ := by decide

/-- The four rounding modes on 2.5, −2.5, 3.25 and −3.75 (R25). -/
theorem test_rounding_examples :
    ([(5, 2), (-5, 2), (13, 4), (-15, 4)] : List (Int × Int)).map (fun x =>
        [RoundMode.nearestEven, .towardZero, .towardMinusInf, .towardPlusInf].map
          fun m => roundQuot m x.1 x.2)
      = [[2, 2, 2, 3], [-2, -2, -3, -2], [3, 3, 3, 4], [-4, -3, -4, -3]] := by decide

/-- A DIV that saturates at q = 16 (R28, last paragraph). -/
theorem test_div_saturates :
    laneResult (desc 0x22#6 0#5 0#5 0#5 (frac := 16#5)) .div 1073741824 1 0
      = ⟨⟨2147483647#32, .valid⟩, 0x03#7⟩ := by decide

/-- The largest SQRT stays in range, toward plus infinity (R29, note). -/
theorem test_sqrt_largest : roundRoot .towardPlusInf (2147483647 * 2 ^ 30) = 1518500250 := by decide

/-- The RESCALE by 16 of the dot product example. -/
theorem test_rescale_example :
    laneResult (desc 0x17#6 9#5 8#5 0#5 (frac := 16#5) (imm := 0x003C#16)) .rescale 425984 0 0
      = ⟨⟨26624#32, .valid⟩, 0#7⟩ := by decide

/-- The records of the OVERFLOW example and of the EMPTY_SOURCE example. -/
theorem test_record_examples :
    recordBytes (heldRecord .halted .q1 heldMul none) = 0x000000000333040A#64 ∧
    recordBytes (heldRecord .substituted .q1 heldMul (some 0x7FFF0000#32)) = 0x7FFF00000333041C#64 ∧
    recordBytes (heldRecord .halted .q0
      ⟨⟨desc 0x20#6 0#5 0#5 0#5 (tag := 0x12#8), 12#8⟩, 0x20#7, true⟩ none)
      = 0x0000000020120C22#64 := by decide

/-- The guarded MUL halts with OVERFLOW and INEXACT, and writes nothing. -/
theorem test_overflow_halt : isHalted haltedMul.q0 = true ∧ haltedMul.q0.haltCond = 0x03#7 ∧
    haltedMul.cellAt 2#8 = emptyCell ∧ haltedMul.cq.ring.length = 1 ∧ haltedMul.cq.reserved = 0 ∧
    haltedMul.q0.sticky = 0#5 := by decide

/-- Its SUBSTITUTE. -/
theorem test_substitute_recovers :
    let t := after (.resumeSubstitute .q0)
      (withArg 3#8 { haltedMul with substitute := 0x7FFF0000#32 })
    t.cellAt 2#8 = ⟨0x7FFF0000#32, .valid⟩ ∧ t.q0.state = .active ∧ t.cq.ring.length = 2 := by decide

/-- Contention with K = 2: Q0 wins twice, then Q1. -/
theorem test_contention :
    (after (.issue .q0) (contending 2#4 0)).issue.starvation = 1 ∧
    (after (.issue .q1) (contending 2#4 1)).q0.ring = [] ∧
    (after (.issue .q0) (contending 2#4 2)).q1.ring = [] ∧
    (after (.issue .q0) (contending 2#4 2)).issue.starvation = 0 := by decide

/-- The read of the marked cell, one tick before and at WAIT_LIMIT 32. -/
theorem test_wait_timeout :
    (after .tickBoundary (heldAt 30)).port.faultCode = .none ∧
    (after .waitTimeout (heldAt 31)).port.faultCode = .waitTimeout ∧
    (after .waitTimeout (heldAt 31)).port.faultAddr = 0x14#8 ∧
    (after .waitTimeout (heldAt 31)).readData = some 0#8 := by decide

/-- A held write lands after the job's result, and CELL_ADDR advances. -/
theorem test_held_write_lands :
    let t := after (.jobCompletion 0) heldWrite
    t.cellAt 2#8 = ⟨0x00012345#32, .valid⟩ ∧ t.cell.addr = 3#8 ∧
      t.cq.ring.map (·.echo) = [12#32] := by decide

/-- The EMPTY_SOURCE halt drains the job in flight; then two records stand in order. -/
theorem test_drain_then_halt :
    isDraining drainingAdd.q0 = true ∧ drainingAdd.cq.reserved = 2 ∧
    (after (.jobCompletion 0) drainingAdd).cq.ring.map (·.status) = [.done, .halted] := by decide

/-! ## One small test for the other commands -/

theorem test_scrub_end : (after .scrubEnd State.reset).engine.state = .ready := by decide
theorem test_reset_release :
    (after (.resetRelease .pin) inPin).port.resetCause = .pin ∧
    inReset (after (.resetRelease .powerOn) inBoth) = true := by decide
theorem test_coalescing_expiry : (after .coalescingTimerExpiry (timing 4 5)).cq.expired = true ∧
    (after .coalescingTimerExpiry (timing 3 5)).cq.expired = false := by decide
theorem test_cell_addr_write : (after (.cellAddrWrite 200#8) ready).cell.addr = 200#8 := by decide
theorem test_cell_read :
    (after .cellDataRead queued).readData = some 5#8 ∧
    (after .cellReadComplete (after .cellDataRead queued)).cell.readOpen = false := by decide
theorem test_cell_write :
    (after (.cellWrite 0x80#8) { ready with cell := { ready.cell with staging := 0x010203#24 } }).cellAt
      0#8 = ⟨0x80010203#32, .valid⟩ := by decide
theorem test_commit_wraps :
    let t := after (.commit .q1 0#8) { ready with q1 := { Queue.reset with nextSeq := 255#8 } }
    t.q1.nextSeq = 0#8 ∧ t.q1.ring.map (·.seq) = [255#8] := by decide
theorem test_halt_mask : readWindow (after (.haltMaskWrite .q1 0xFF#8) ready) 0x34#7 = 0x7F#8 := by
  decide
theorem test_arb_ctrl : readWindow (after (.arbCtrlWrite 0xF2#8) ready) 0x0E#7 = 0x82#8 := by decide
theorem test_cq_head : (after .cqHeadRead (filled 1)).readData = some 0x11#8 ∧
    (after .cqHeadRead ready).readData = some 0#8 := by decide
theorem test_cq_pop : (after (.cqPop 0#8) (filled 2)).cq.ring.length = 1 ∧
    (after (.cqPop 0#8) ready).port.faultCode = .cqEmptyPop := by decide
theorem test_threshold : (after (.cqThresholdWrite 0#8) ready).cq.threshold = 1#8 ∧
    (after (.cqThresholdWrite 33#8) ready).cq.threshold = 32#8 := by decide
theorem test_event_code :
    (after .eventCodeRead { ready with event :=
      { EventUnit.reset with startDone := true, signal := true, enable := 0x41#8,
                             level1 := 0x10#8 } }).readData = some 0x96#8 := by decide
theorem test_evt_ack :
    (after (.evtAck 6#8) { ready with event := { EventUnit.reset with signal := true } }).event.signal
      = false := by decide
theorem test_fault_clear : (after (.faultClear 0#8) (after (.cqPop 0#8) ready)).port.faultCode = .none := by
  decide
theorem test_register_write : (after (.registerWrite 0x0C#7 0#8) ready).port.timebase = 1#8 ∧
    (after (.registerWrite 0x0C#7 255#8) ready).port.timebase = 64#8 := by decide
theorem test_resume_plain : (after (.resumePlain .q1) ready).q1.state = .active := by decide
theorem test_resume_retry : headJob (after (.resumeRetry .q0) (withArg 1#8 haltedMul)).q0
    = some ⟨mulJob, 4#8⟩ := by decide
theorem test_resume_skip : (after (.resumeSkip .q0) (withArg 2#8 haltedMul)).cq.ring.map (·.status)
    = [.halted, .skipped] := by decide
theorem test_resume_other : (after (.resumeOtherArgument .q0) (withArg 4#8 ready)).port.cmdResult
    = .refusedArg := by decide
theorem test_pause : (after (.pause .q0) flying).q0.state = .pausing ∧
    (after (.pause .q0) queued).q0.state = .paused := by decide
theorem test_flush : (after (.flush .q0) haltedMul).q0.flushCount = 1 ∧
    (after (.flush .q0) queued).port.cmdResult = .refusedState := by decide
theorem test_clear_sticky :
    (after (.clearSticky .q0) { ready with q0 := { Queue.reset with sticky := 3#5 } }).q0.sticky
      = 0#5 := by decide
theorem test_cell_empty : (after .cellEmpty (withArg 1#8 queued)).cellAt 1#8 = emptyCell := by decide
theorem test_cell_poison : (after .cellPoison (withArg 2#8 flying)).port.cmdResult = .refusedBusy := by
  decide
theorem test_soft_reset : (after .softReset flying).issue.marks = 0#256 ∧
    (after .softReset flying).cellAt 0#8 = five := by decide
theorem test_unknown_command : (after (.unknownCommand 0x51#8) State.reset).port.cmdResult
    = .unknownCommand := by decide
theorem test_issue_fence : (after (.issue .q0) (active fenceJob five seven)).event.signal = true := by
  decide
theorem test_issue_frame : (after (.issue .q0) (active frameJob five seven)).q0.frameB = 5#5 := by decide

/-! ## Witnesses: states that meet the hypotheses of the statements -/

/-- READY with two commands waiting. -/
def waiting (c : Instr) (s : State) : State := { s with pending := [c, .cqHeadRead] }

theorem witness_StepRunsFrontCommand :
    (waiting .softReset flying).pending = .softReset :: [.cqHeadRead] := rfl

/-- READY, the divider at `n` of 16. -/
def dividerAt (n : Nat) : State := { ready with port := { ready.port with divider := n } }

theorem witness_IdleStepIsOneClockPeriod :
    (inPor.pending = [] ∧ inReset inPor = true) ∧
    ((dividerAt 14).pending = [] ∧ inReset (dividerAt 14) = false ∧
      (dividerAt 14).engine.state = .ready ∧
      (dividerAt 14).port.divider + 1 < (dividerAt 14).port.tickLength) ∧
    ((dividerAt 15).pending = [] ∧ inReset (dividerAt 15) = false ∧
      (dividerAt 15).engine.state = .ready ∧
      (dividerAt 15).port.tickLength ≤ (dividerAt 15).port.divider + 1) := by decide

theorem witness_ImpossibleHappeningsChangeNothing :
    inPin.engine.pin = true ∧ ready.engine.por = false ∧ ready.engine.pin = false ∧
    ready.engine.state = .ready ∧ inReset inPor = true ∧ ready.cell.held = none ∧
    (∃ h, (heldAt 30).cell.held = some h ∧ h.count + 1 < (heldAt 30).port.waitLimit.toNat) ∧
    ready.cq.timer = .idle ∧ (timing 3 5).cq.timer = .running 3 5 ∧ 3 + 1 < 5 ∧
    flying.issue.inflight.length ≤ (1 : Fin 4).val ∧ ∀ j, ¬MayIssue ready .q0 j :=
  ⟨by decide, by decide, by decide, by decide, by decide, by decide, ⟨⟨.read, 2#8, 30⟩, by decide⟩,
    by decide, by decide, by decide, by decide, fun j h => absurd h.2.1 nofun⟩

theorem witness_HardResetTakesResetValues : flying.engine.pin = false := by decide

theorem witness_ReleaseStartsAndScrubEndMakesReady :
    (inPor.engine.por = true ∧ inPor.engine.pin = false) ∧
    (inPin.engine.pin = true ∧ inPin.engine.por = false) ∧
    (inBoth.engine.por = true ∧ inBoth.engine.pin = true) ∧
    (State.reset.engine.state = .starting ∧ inReset State.reset = false) := by decide

theorem witness_ResetCauseFollowsItsSource :
    flying.engine.pin = false ∧ inReset flying = false ∧ inPin.engine.pin = true := by decide

theorem witness_ScrubEndsAfter256ClockPeriods :
    CellsSound State.reset ∧ State.reset.pending = [] ∧ inReset State.reset = false ∧
    State.reset.engine.state = .starting ∧ State.reset.engine.scrubNext = 0 :=
  ⟨rfl, by decide, by decide, by decide, by decide⟩

theorem hostReady_of {s : State} (h : takesAccess s = true ∧ s.engine.state = .ready) : HostReady s := h

theorem timerSound_timing : TimerSound (timing 4 5).cq := by
  refine ⟨?_, by decide, by decide, by decide⟩
  intro n l h
  obtain ⟨rfl, rfl⟩ := Timer.running.inj h
  decide

theorem witness_SoftResetKeepsCellsAndConfiguration :
    HostReady (timing 4 5) ∧ TimerSound (timing 4 5).cq := ⟨hostReady_of (by decide), timerSound_timing⟩

theorem witness_TickBoundaryAdvancesTimers :
    inReset (timing 3 5) = false ∧ (timing 3 5).cq.timer = .running 3 5 ∧
    inReset (timing 4 5) = false ∧ (timing 4 5).cq.timer = .running 4 5 ∧
    inReset ready = false ∧ ready.cq.timer = .idle ∧ ready.cell.held = none ∧
    inReset (heldAt 30) = false ∧ (heldAt 30).cell.held = some ⟨.read, 2#8, 30⟩ ∧
    30 + 1 < (heldAt 30).port.waitLimit.toNat := by decide

theorem witness_TimeoutAndExpiryAtTheirTick :
    inReset (heldAt 31) = false ∧ (heldAt 31).cell.held = some ⟨.read, 2#8, 31⟩ ∧
    isMarked (heldAt 31).issue.marks 2#8 = true ∧ (heldAt 31).port.waitLimit.toNat ≤ 31 + 1 ∧
    inReset heldWrite = false ∧
    inReset (timing 4 5) = false ∧ (timing 4 5).cq.timer = .running 4 5 ∧ 5 ≤ 4 + 1 ∧
    (timing 4 5).cell.held = none := by decide

theorem witness_TimersEndAtTheirLength :
    inReset heldRead = false ∧ heldRead.cell.held = some ⟨.read, 2#8, 0⟩ ∧
    isMarked heldRead.issue.marks 2#8 = true ∧ 0 < heldRead.port.waitLimit.toNat ∧
    heldRead.port.faultCode = .none ∧
    inReset (timing 0 5) = false ∧ (timing 0 5).cq.timer = .running 0 5 ∧ 0 < 5 := by decide

/-- READY with a read open. -/
def openRead : State := after .cellDataRead queued

theorem witness_CellSelectionAndReads :
    takesAccess queued = true ∧ queued.engine.state = .ready ∧
    isMarked queued.issue.marks queued.cell.addr = false ∧ queued.cell.readOpen = false ∧
    takesAccess openRead = true ∧ openRead.cell.readOpen = true := by decide

theorem witness_CellWriteStoresStagedValue :
    HostReady flying ∧ CellsSound flying ∧ isMarked flying.issue.marks flying.cell.addr = false :=
  ⟨hostReady_of (by decide), rfl, by decide⟩

/-- The host aims at the marked cell 2 with WAIT_LIMIT `w`. -/
def waitLimited (w : Byte) : State := { aimed with port := { aimed.port with waitLimit := w } }

theorem witness_CellAccessFaults :
    (takesAccess State.reset = true ∧ State.reset.engine.state = .starting) ∧
    (takesAccess (waitLimited 0#8) = true ∧ (waitLimited 0#8).engine.state = .ready ∧
      isMarked (waitLimited 0#8).issue.marks (waitLimited 0#8).cell.addr = true ∧
      (waitLimited 0#8).port.waitLimit = 0#8) := by decide

theorem witness_MarkedCellAccessIsHeld :
    ∀ w ∈ [1#8, 255#8], HostReady (waitLimited w) ∧
      isMarked (waitLimited w).issue.marks (waitLimited w).cell.addr = true ∧
      (waitLimited w).port.waitLimit ≠ 0#8 := by
  unfold HostReady; decide

theorem witness_NoAccessTakenWhileHeldOrReset :
    isHostAccess .cellDataRead = true ∧ heldRead.cell.held ≠ none ∧ inPor.engine.por = true ∧
    inPin.engine.pin = true := by decide

theorem witness_CellCommandsSetTag :
    (takesAccess State.reset = true ∧ State.reset.engine.state = .starting) ∧
    (takesAccess (withArg 2#8 flying) = true ∧ (withArg 2#8 flying).engine.state = .ready ∧
      isMarked (withArg 2#8 flying).issue.marks (withArg 2#8 flying).port.cmdArg = true) ∧
    (takesAccess (withArg 1#8 flying) = true ∧ (withArg 1#8 flying).engine.state = .ready ∧
      isMarked (withArg 1#8 flying).issue.marks (withArg 1#8 flying).port.cmdArg = false ∧
      Memory.wf (withArg 1#8 flying).cell.cells = true) := by decide

theorem witness_PlainRegistersReadBack : takesAccess State.reset = true ∧ takesAccess flying = true ∧
    storedPlain 0x0C#7 = true ∧ storedPlain 0x56#7 = true := by decide

theorem witness_IgnoredWritesAndStaging : takesAccess flying = true ∧ ignoresWrite 0x00#7 = true ∧
    ignoresWrite 0x7F#7 = true := by decide

theorem witness_HaltMaskWriteStoresFiveBits : takesAccess State.reset = true ∧
    takesAccess guardedMul = true := by decide

theorem witness_ControlWritesStoreTheirFields : takesAccess State.reset = true ∧
    takesAccess flying = true := by decide

/-- READY with `n` jobs in Q0's ring. -/
def committed (n : Nat) : State :=
  { ready with q0 := { Queue.reset with ring := List.replicate n ⟨addJob, 4#8⟩, nextSeq := 5#8 } }

theorem witness_CommitAppendsOrFaults :
    (takesAccess (committed 15) = true ∧ (committed 15).engine.state = .ready ∧
      ((committed 15).queue .q0).ring.length < 16) ∧
    (takesAccess State.reset = true ∧ State.reset.engine.state = .starting) ∧
    (takesAccess (committed 16) = true ∧ (committed 16).engine.state = .ready ∧
      16 ≤ ((committed 16).queue .q0).ring.length) := by decide

/-- A PAUSING queue: PAUSE behind the ADD in flight. -/
def pausingAdd : State := after (.pause .q0) flying

theorem witness_PauseByQueueState :
    (HostReady queued ∧ (queued.queue .q0).state = .active ∧ (queued.queue .q0).inflight = 0) ∧
    (HostReady flying ∧ (flying.queue .q0).state = .active ∧ 0 < (flying.queue .q0).inflight) ∧
    (HostReady ready ∧ (ready.queue .q0).state = .paused) ∧
    (HostReady pausingAdd ∧ (pausingAdd.queue .q0).state = .pausing) ∧
    (HostReady drainingAdd ∧ ∃ h, (drainingAdd.queue .q0).state = .draining h) ∧
    (HostReady haltedMul ∧ ∃ h, (haltedMul.queue .q0).state = .halted h) := by
  unfold HostReady
  exact ⟨by decide, by decide, by decide, by decide, ⟨by decide, ⟨⟨emptyMul, 5#8⟩, 0x20#7, true⟩, by decide⟩,
    ⟨by decide, heldMul, by decide⟩⟩

theorem witness_ResumeByQueueState :
    (HostReady ready ∧ ready.port.cmdArg = 0#8 ∧ (ready.queue .q0).state = .paused) ∧
    (HostReady flying ∧ flying.port.cmdArg = 0#8 ∧ (flying.queue .q0).state = .active) ∧
    (HostReady haltedMul ∧ haltedMul.port.cmdArg = 0#8 ∧
      (haltedMul.queue .q0).state = .halted heldMul) ∧
    (∀ n ∈ [1#8, 2#8, 3#8], (HostReady (withArg n ready) ∧ (withArg n ready).port.cmdArg = n ∧
        ((withArg n ready).queue .q0).state = .paused) ∧
      HostReady (withArg n flying) ∧ (withArg n flying).port.cmdArg = n ∧
        ((withArg n flying).queue .q0).state = .active) ∧
    ∀ n ∈ [4#8, 255#8], HostReady (withArg n ready) ∧ 4 ≤ (withArg n ready).port.cmdArg.toNat := by
  unfold HostReady; decide

/-- A PAUSED queue with a job in the retry position. -/
def retried : State :=
  { ready with q0 := { Queue.reset with retry := some ⟨mulJob, 4#8⟩, nextSeq := 5#8 } }

theorem witness_FlushAndClearSticky :
    (HostReady ready ∧ (ready.queue .q0).state = .paused ∧ (ready.queue .q0).retry = none) ∧
    (HostReady retried ∧ (retried.queue .q0).state = .paused ∧
      (retried.queue .q0).retry = some ⟨mulJob, 4#8⟩) ∧
    (HostReady haltedMul ∧ (haltedMul.queue .q0).state = .halted heldMul ∧
      (haltedMul.queue .q0).retry = none) ∧
    (HostReady pausingAdd ∧ (pausingAdd.queue .q0).state = .pausing) := by
  unfold HostReady; decide

theorem witness_RetryPutsHeldJobAtHead :
    HostReady (withArg 1#8 haltedMul) ∧ (withArg 1#8 haltedMul).port.cmdArg = 1#8 ∧
    ((withArg 1#8 haltedMul).queue .q0).state = .halted heldMul := by
  unfold HostReady; decide

/-- The halted MUL with `n` records in the ring, its argument `a`. -/
def haltedFilled (n : Nat) (a : Byte) : State :=
  { withArg a haltedMul with cq := { haltedMul.cq with ring := List.replicate n doneRec } }

theorem witness_SkipPostsSkippedRecord :
    ∀ n ∈ [31, 32], HostReady (haltedFilled n 2#8) ∧ (haltedFilled n 2#8).port.cmdArg = 2#8 ∧
      ((haltedFilled n 2#8).queue .q0).state = .halted heldMul ∧
      (haltedFilled n 2#8).cq.ring.length + (haltedFilled n 2#8).cq.reserved = n := by
  unfold HostReady; decide

/-- The halted MUL while a job of the other queue marks its destination. -/
def haltedMarked : State :=
  { haltedFilled 0 3#8 with issue := { haltedMul.issue with marks := markOf 2#8 } }

/-- A queue HALTED by BAD_JOB. -/
def haltedBad : State := withArg 3#8 (after (.issue .q0) (active badJob five seven))

theorem witness_SubstituteWritesDestination :
    (HostReady haltedBad ∧ haltedBad.port.cmdArg = 3#8 ∧
      (haltedBad.queue .q0).state = .halted ⟨⟨badJob, 4#8⟩, badJobBit, true⟩) ∧
    (∀ s ∈ [haltedFilled 31 3#8, haltedFilled 32 3#8, haltedMarked], HostReady s ∧ s.port.cmdArg = 3#8 ∧
      (s.queue .q0).state = .halted heldMul ∧ Memory.wf s.cell.cells = true) ∧
    (countOf mulJob = 1 ∧ opOfCode (mulJob.extractLsb' 0 6) = some .mul ∧ heldMul.conds ≠ badJobBit) ∧
    isMarked haltedMarked.issue.marks (resolve (haltedMarked.queue .q0) (mulJob.extractLsb' 6 5)) = true ∧
    isMarked (haltedFilled 31 3#8).issue.marks
      (resolve ((haltedFilled 31 3#8).queue .q0) (mulJob.extractLsb' 6 5)) = false ∧
    (haltedFilled 31 3#8).cq.ring.length + (haltedFilled 31 3#8).cq.reserved < 32 ∧
    32 ≤ (haltedFilled 32 3#8).cq.ring.length + (haltedFilled 32 3#8).cq.reserved := by
  unfold HostReady
  exact ⟨by decide, by decide, by decide, by decide, by decide, by decide, by decide⟩

theorem witness_UnknownAndStartingCommandsAreRefused :
    takesAccess ready = true ∧ takesAccess State.reset = true ∧ State.reset.engine.state = .starting ∧
    (0x51#8).extractLsb' 4 4 ∉ [0x1#4, 0x2#4, 0x3#4, 0x4#4, 0x8#4, 0x9#4, 0xF#4] := by decide

/-! ### Issue -/

/-- What one `decide` shows of a head that lacks nothing but a completion slot. -/
theorem meetsAllButSlot_of {s : State} {q : QueueId} {j : Job}
    (h : headJob (s.queue q) = some j ∧ (s.queue q).state = .active ∧
      claimFits s.issue (claimOf j.desc) = true ∧
      anyMarked s (sourceCells (s.queue q) j.desc ++ destCells (s.queue q) j.desc) = false ∧
      (guardedUnder (fullMask (s.queue q).haltMask) j.desc = true → (s.queue q).inflight = 0) ∧
      drained s q j.desc = true ∧ holdsBothFence (s.queue q.other) = false ∧
      guardedInFlight s q = false) : MeetsAllButSlot s q j := by
  obtain ⟨h1, h2, h4, h5, h6, h7, h8, h9⟩ := h
  refine ⟨h1, h2, (claimFits_iff _ _).1 h4, fun n hn => ?_, h6, (drained_iff _ _ _).1 h7,
    fun hb => ?_, (guardedInFlight_eq_false_iff _ _).1 h9⟩
  · exact (anyMarked_eq_false_iff _ _).1 h5 n (List.mem_append.2 hn)
  · rw [(holdsBothFence_iff _).2 hb] at h8; cases h8

/-- What one `decide` shows of an issuable head. -/
theorem mayIssue_of {s : State} {q : QueueId} {j : Job}
    (h3 : s.cq.ring.length + s.cq.reserved < 32)
    (h : headJob (s.queue q) = some j ∧ (s.queue q).state = .active ∧
      claimFits s.issue (claimOf j.desc) = true ∧
      anyMarked s (sourceCells (s.queue q) j.desc ++ destCells (s.queue q) j.desc) = false ∧
      (guardedUnder (fullMask (s.queue q).haltMask) j.desc = true → (s.queue q).inflight = 0) ∧
      drained s q j.desc = true ∧ holdsBothFence (s.queue q.other) = false ∧
      guardedInFlight s q = false) : MayIssue s q j := ⟨h3, meetsAllButSlot_of h⟩

theorem issuesAlone_of {s : State} {q : QueueId} {j : Job} (h : MayIssue s q j)
    (ho : (s.queue q.other).state ≠ .active) : IssuesAlone s q j :=
  ⟨h, fun _ h' => absurd h'.2.2.1 ho⟩

/-- Q0 with the one job `d`, issuable. -/
theorem alone (d : Desc) (c0 c1 : Cell) (m : BitVec 5)
    (h : MayIssue (active d c0 c1 m) .q0 ⟨d, 4#8⟩) : IssuesAlone (active d c0 c1 m) .q0 ⟨d, 4#8⟩ :=
  issuesAlone_of h (by simp [active, ready, State.reset, State.queue, QueueId.other, Queue.reset])

theorem witness_IssuableIsTheEightConditions : IssuesAlone queued .q0 ⟨addJob, 4#8⟩ :=
  alone _ _ _ _ (mayIssue_of (by decide) (by decide))

/-- Below K the preferred queue Q0 wins, and at K the other; each has a head. -/
theorem witness_ArbiterChoosesTheWinner :
    (∀ p ∈ [(0#4, 0), (2#4, 1), (2#4, 2)],
      MayIssue (contending p.1 p.2) .q0 ⟨addJob, 4#8⟩ ∧
      MayIssue (contending p.1 p.2) .q1 ⟨otherAdd, 0#8⟩ ∧
      Conflict (contending p.1 p.2) .q0 ⟨addJob, 4#8⟩ ⟨otherAdd, 0#8⟩ ∧
      (contending p.1 p.2).issue.guardK = p.1 ∧ (contending p.1 p.2).issue.starvation = p.2) ∧
    (∀ p ∈ [(0#4, 0), (2#4, 1)], Wins (contending p.1 p.2) .q0 ∧
      headJob ((contending p.1 p.2).queue .q0) = some ⟨addJob, 4#8⟩) ∧
    Wins (contending 2#4 2) .q1 ∧ headJob ((contending 2#4 2).queue .q1) = some ⟨otherAdd, 0#8⟩ := by
  refine ⟨fun p hp => ?_, by unfold Wins; decide, by unfold Wins; decide, by decide⟩
  simp only [List.mem_cons, List.not_mem_nil, or_false] at hp
  obtain rfl | rfl | rfl := hp <;>
    exact ⟨mayIssue_of (by decide) (by decide), mayIssue_of (by decide) (by decide),
      .inl ⟨.su, .su, by decide, by decide, nofun⟩, rfl, rfl⟩

/-- The worked BAD_JOB descriptor is malformed by BCAST, and the others used here are not. -/
theorem malformed_jobs : Malformed badJob ∧ ¬Malformed emptyMul ∧ ¬Malformed addJob := by
  refine ⟨?_, ?_, ?_⟩ <;> unfold Malformed <;> decide

/-- An ADD of the POISON cell 0 under the mask `m`. -/
def poisonedAdd (m : BitVec 5) : State := active addJob ⟨0#32, .poison⟩ seven m

theorem witness_FailedCheckHaltsAtIssue :
    (IssuesAlone (active badJob five seven) .q0 ⟨badJob, 4#8⟩ ∧
      CheckFails (active badJob five seven) .q0 ⟨badJob, 4#8⟩ badJobBit ∧
      ((active badJob five seven).queue .q0).inflight = 0) ∧
    (IssuesAlone (followed emptyMul) .q0 ⟨emptyMul, 5#8⟩ ∧
      CheckFails (followed emptyMul) .q0 ⟨emptyMul, 5#8⟩ emptySourceBit ∧
      0 < ((followed emptyMul).queue .q0).inflight) ∧
    (IssuesAlone (poisonedAdd 0x10#5) .q0 ⟨addJob, 4#8⟩ ∧
      CheckFails (poisonedAdd 0x10#5) .q0 ⟨addJob, 4#8⟩ poisonInBit) :=
  ⟨⟨alone _ _ _ _ (mayIssue_of (by decide) (by decide)), .inl ⟨malformed_jobs.1, rfl⟩, by decide⟩,
    ⟨issuesAlone_of (mayIssue_of (by decide) (by decide)) (by decide),
      .inr (.inl ⟨malformed_jobs.2.1, by decide, rfl⟩), by decide⟩,
    ⟨alone _ _ _ _ (mayIssue_of (by decide) (by decide)),
      .inr (.inr ⟨malformed_jobs.2.2, by decide, by decide, by decide, rfl⟩)⟩⟩

theorem witness_ControlJobsCompleteAtIssue :
    (IssuesAlone (active frameJob five seven) .q0 ⟨frameJob, 4#8⟩ ∧ jobOp frameJob = some .setframe) ∧
    (IssuesAlone (active fenceJob five seven) .q0 ⟨fenceJob, 4#8⟩ ∧ jobOp fenceJob = some .fence) :=
  ⟨⟨alone _ _ _ _ (mayIssue_of (by decide) (by decide)), by decide⟩,
    ⟨alone _ _ _ _ (mayIssue_of (by decide) (by decide)), by decide⟩⟩

theorem witness_PassedChecksStartTheJob :
    IssuesAlone (poisonedAdd 0#5) .q0 ⟨addJob, 4#8⟩ ∧
    ChecksPass (poisonedAdd 0#5) .q0 ⟨addJob, 4#8⟩ .add .su ∧
    .poison ∈ inspectedTags (poisonedAdd 0#5) .q0 ⟨addJob, 4#8⟩ :=
  ⟨alone _ _ _ _ (mayIssue_of (by decide) (by decide)),
    ⟨by decide, by decide, by decide, by decide⟩, by decide⟩

/-! ### Completion -/

/-- The entry of the ADD in flight, of the guarded MUL, and of an unguarded MUL into cell 3. -/
def addEntry : InFlight :=
  { queue := .q0, job := ⟨addJob, 4#8⟩, mask := 0x60#7, guarded := false, poisonIn := false,
    dests := [2#8], srcA := [five], srcB := [seven], srcD := [], claim := .su }
def mulEntry : InFlight :=
  { queue := .q0, job := ⟨mulJob, 4#8⟩, mask := 0x62#7, guarded := true, poisonIn := false,
    dests := [2#8], srcA := [⟨16777216#32, .valid⟩], srcB := [⟨33554432#32, .valid⟩], srcD := [],
    claim := .puScalar }
def nextMul : Desc := desc 0x20#6 3#5 0#5 1#5

/-- The ADD and the MUL behind it in flight, and the host's read of cell 3 held. -/
def twoFlying : State :=
  after .cellDataRead (after (.cellAddrWrite 3#8) (after (.issue .q0) (followed nextMul)))

/-- The host's read of the guarded MUL's destination, held. -/
def heldOverHalt : State := after .cellDataRead (after (.cellAddrWrite 2#8) guardedMul)

theorem cellsSound_flying : CellsSound flying ∧ CellsSound guardedMul ∧ CellsSound heldRead ∧
    CellsSound heldWrite ∧ CellsSound twoFlying :=
  ⟨rfl, rfl, rfl, rfl, rfl⟩

/-- The marks of a state, from their list. -/
theorem marksSound_of {s : State} {ns : List CellNo} (h : s.issue.marks = setMarks ns 0#256)
    (hn : markedCells s.issue = ns) (hd : ns.Nodup) : MarksSound s := by
  refine ⟨hn ▸ hd, fun n => ?_⟩
  rw [h, isMarked_setMarks, hn]; simp

theorem marksSound_states : MarksSound flying ∧ MarksSound heldRead ∧ MarksSound heldWrite ∧
    MarksSound heldOverHalt :=
  ⟨marksSound_of (ns := [2#8]) (by decide) (by decide) (by decide),
    marksSound_of (ns := [2#8]) (by decide) (by decide) (by decide),
    marksSound_of (ns := [2#8]) (by decide) (by decide) (by decide),
    marksSound_of (ns := [2#8]) (by decide) (by decide) (by decide)⟩

theorem entrySound_add : EntrySound addEntry :=
  ⟨.add, by decide, by decide, by decide, by decide, by decide, by decide, by decide, by decide,
    by decide, by decide⟩

theorem entrySound_mul : EntrySound mulEntry :=
  ⟨.mul, by decide, by decide, by decide, by decide, by decide, by decide, by decide, by decide,
    by decide, by decide⟩

/-- With no access held, with one held on another job's cell, and with a read and a write held on the
completing job's own. -/
theorem witness_CompletionWritesEveryElement :
    (CellsSound flying ∧ EntrySound addEntry ∧
      flying.issue.inflight[(0 : Fin 4).val]? = some addEntry ∧ addEntry.guarded = false ∧
      flying.cell.held = none) ∧
    (CellsSound twoFlying ∧ twoFlying.issue.inflight[(0 : Fin 4).val]? = some addEntry ∧
      ∀ h, twoFlying.cell.held = some h →
        isMarked twoFlying.issue.marks h.cell = true ∧ h.cell ∉ addEntry.dests) ∧
    ∀ s ∈ [heldRead, heldWrite], Memory.wf s.cell.cells = true ∧
      s.issue.inflight[(0 : Fin 4).val]? = some addEntry ∧ s.cell.held ≠ none ∧
      ∀ h ∈ s.cell.held, isMarked s.issue.marks h.cell = true ∧ h.cell ∈ addEntry.dests :=
  ⟨⟨cellsSound_flying.1, entrySound_add, by decide, by decide, by decide⟩,
    ⟨cellsSound_flying.2.2.2.2, by decide, fun h hh => by
      have : some h = some ⟨.read, 3#8, 0⟩ := hh.symm.trans (by decide)
      obtain rfl := Option.some.inj this
      decide⟩,
    by decide⟩

theorem witness_LastCompletionEndsPausingOrDraining :
    (∀ s ∈ [flying, pausingAdd, drainingAdd],
      s.issue.inflight[(0 : Fin 4).val]? = some addEntry ∧ addEntry.guarded = false ∧
      0 < s.cq.reserved ∧ (s.queue .q0).inflight = 1) ∧
    (twoFlying.issue.inflight[(0 : Fin 4).val]? = some addEntry ∧ 0 < twoFlying.cq.reserved ∧
      1 < (twoFlying.queue .q0).inflight) ∧
    (flying.queue .q0).state = .active ∧ (pausingAdd.queue .q0).state = .pausing ∧
    (drainingAdd.queue .q0).state = .draining ⟨⟨emptyMul, 5#8⟩, emptySourceBit, true⟩ :=
  ⟨by decide, by decide, by decide, by decide, by decide⟩

/-- The counts of a state with no queue DRAINING, and no guarded entry or `e` alone. -/
theorem queuesSound_of {s : State} (h0 : QueueSound s.q0) (h1 : QueueSound s.q1)
    (h : s.q0.inflight = flightCount s.issue .q0 ∧ s.q1.inflight = flightCount s.issue .q1 ∧
      (∀ e ∈ s.issue.inflight, e.guarded = true →
        (s.queue e.queue).inflight = 1 ∧
        ((s.queue e.queue).state = .active ∨ (s.queue e.queue).state = .pausing)) ∧
      s.cq.reserved = s.issue.inflight.length + (if isDraining s.q0 then 1 else 0) +
        (if isDraining s.q1 then 1 else 0) ∧
      slotsUsed s.cq ≤ 32) : QueuesSound s :=
  ⟨h0, h1, h⟩

theorem queueSound_of {Q : Queue} (h : (Q.state = .paused ∧ Q.inflight = 0 ∨ Q.state = .active) ∧
    Q.retry = none ∧ Q.ring.length ≤ 16 ∧ Q.flushCount ≤ 17) : QueueSound Q := by
  obtain ⟨⟨h1, h2⟩ | h1, h3, h4⟩ := h
  · exact ⟨by simp only [h1, h2], by simp [h3], h4⟩
  · exact ⟨by simp only [h1], by simp [h3], h4⟩

theorem queuesSound_states : QueuesSound flying ∧ QueuesSound guardedMul :=
  ⟨queuesSound_of (queueSound_of (by decide)) (queueSound_of (by decide)) (by decide),
    queuesSound_of (queueSound_of (by decide)) (queueSound_of (by decide)) (by decide)⟩

/-- The guarded MUL with no access held, and with a read held on its own cell. -/
theorem witness_ExecutionHaltWritesNothing :
    (QueuesSound guardedMul ∧ CellsSound guardedMul ∧
      guardedMul.issue.inflight[(0 : Fin 4).val]? = some mulEntry ∧ mulEntry.guarded = true ∧
      jobConds mulEntry &&& mulEntry.mask ≠ 0#7 ∧ guardedMul.cell.held = none) ∧
    (QueuesSound heldOverHalt ∧ CellsSound heldOverHalt ∧
      heldOverHalt.issue.inflight[(0 : Fin 4).val]? = some mulEntry ∧
      heldOverHalt.cell.held = some ⟨.read, 2#8, 0⟩ ∧
      isMarked heldOverHalt.issue.marks 2#8 = true ∧ 2#8 ∈ mulEntry.dests) :=
  ⟨⟨queuesSound_states.2, cellsSound_flying.2.1, by decide, by decide, by decide, by decide⟩,
    ⟨queuesSound_of (queueSound_of (by decide)) (queueSound_of (by decide)) (by decide), rfl,
      by decide, by decide, by decide, by decide⟩⟩

theorem witness_HeldAccessCarriedOutAtCompletion :
    (CellsSound heldRead ∧ MarksSound heldRead ∧ EntrySound addEntry ∧
      heldRead.issue.inflight[(0 : Fin 4).val]? = some addEntry ∧
      heldRead.cell.held = some ⟨.read, 2#8, 0⟩ ∧ addEntry.dests[0]? = some 2#8) ∧
    (CellsSound heldWrite ∧ MarksSound heldWrite ∧
      heldWrite.issue.inflight[(0 : Fin 4).val]? = some addEntry ∧
      heldWrite.cell.held = some ⟨.write 0#8, 2#8, 0⟩) ∧
    (CellsSound heldOverHalt ∧ MarksSound heldOverHalt ∧ EntrySound mulEntry ∧
      heldOverHalt.issue.inflight[(0 : Fin 4).val]? = some mulEntry ∧
      heldOverHalt.cell.held = some ⟨.read, 2#8, 0⟩ ∧ mulEntry.dests[0]? = some 2#8 ∧
      mulEntry.guarded = true ∧ jobConds mulEntry &&& mulEntry.mask ≠ 0#7) :=
  ⟨⟨cellsSound_flying.2.2.1, marksSound_states.2.1, entrySound_add, by decide, by decide, by decide⟩,
    ⟨cellsSound_flying.2.2.2.1, marksSound_states.2.2.1, by decide, by decide⟩,
    ⟨rfl, marksSound_states.2.2.2, entrySound_mul,
      by decide, by decide, by decide, by decide, by decide⟩⟩

/-! ### Completion queue, events, arithmetic -/

theorem witness_CqHeadReadLatchesRecord : takesAccess (filled 1) = true ∧ takesAccess ready = true := by
  decide

theorem witness_PopRemovesHeadOrFaults :
    (takesAccess (filled 2) = true ∧ (filled 2).cq.ring = doneRec :: doneRec :: []) ∧
    (takesAccess (timing 4 5) = true ∧ (timing 4 5).cq.ring = [doneRec]) ∧
    (takesAccess ready = true ∧ ready.cq.ring = []) := by decide

/-- SIGNAL and START_DONE pending and enabled, SIGNAL at level 1. -/
def calling : State :=
  { ready with event := { EventUnit.reset with startDone := true, signal := true, enable := 0x41#8,
                                               level1 := 0x10#8 } }

theorem witness_StatusReadsAndEventLine :
    State.reset.engine.state = .starting ∧ calling.engine.state = .ready := by decide

theorem witness_EventCodeReturnsTopSource :
    (∀ n, n < 8 → ¬((readWindow ready 0x50#7).getLsbD n = true ∧
      ready.event.enable.getLsbD n = true)) ∧
    ((readWindow calling 0x50#7).getLsbD 6 = true ∧ calling.event.enable.getLsbD 6 = true ∧
      (readWindow calling 0x50#7).getLsbD 0 = true ∧ calling.event.enable.getLsbD 0 = true) := by decide

theorem witness_EventReadAndAckClearLatchedSources : takesAccess calling = true := by decide

theorem witness_ElementIsExactResultRoundedOnce :
    (∃ x, exactResult mulJob .mul 16777216 33554432 0 = some x) ∧
    ∃ x, exactResult mulJob .div 1 3 0 = some x := ⟨⟨_, rfl⟩, ⟨_, rfl⟩⟩

theorem witness_DivisionByZero : (0 : Int) < 1 ∧ (-1 : Int) < 0 ∧ (0 : Int) = 0 := by decide

theorem witness_RootsSumsAndInvalid :
    (-1 : Int) < 0 ∧ (0 : Int) ≤ 2147483647 ∧ fracField mulJob ≠ 31#5 ∧
    ∀ c ∈ addEntry.srcA ++ addEntry.srcB, c.tag ≠ .poison := by decide

/-- The entry of a job with the descriptor `d` and the captured A and B sources given. -/
def entryOf (d : Desc) (as bs : List Cell) : InFlight :=
  { addEntry with job := ⟨d, 4#8⟩, srcA := as, srcB := bs }

/-- Sources of every kind for each shape of operation: two lanes, one of them POISON; a reduction with and
without a POISON input; MOVE, LOADK and CLEAR. -/
theorem witness_JobResultsByOperation :
    let poison : Cell := ⟨0#32, .poison⟩
    let add2 := entryOf (desc 0x10#6 2#5 0#5 1#5 (count := 1#4) (bcast := true)) [five, poison] [seven]
    (jobOp add2.job.desc = some .add ∧ .add ∈ elementWiseOps ∧
      jobResults add2 = [⟨⟨12#32, .valid⟩, 0#7⟩, ⟨poison, 0#7⟩]) ∧
    (∀ c ∈ [five, poison], jobOp (entryOf (desc 0x18#6 2#5 0#5 0#5) [c] []).job.desc = some .sumv) ∧
    jobOp (entryOf (desc 0x24#6 2#5 0#5 1#5) [five] [seven]).job.desc = some .dot ∧
    jobResults (entryOf (desc 0x18#6 2#5 0#5 0#5 (count := 1#4)) [five, seven] []) =
      [⟨⟨12#32, .valid⟩, 0#7⟩] ∧
    jobOp (entryOf (desc 0x08#6 2#5 0#5 0#5) [poison] []).job.desc = some .move ∧
    jobResults (entryOf (desc 0x08#6 2#5 0#5 0#5) [poison] []) = [⟨poison, 0#7⟩] ∧
    jobOp (entryOf (desc 0x09#6 2#5 0#5 0#5 (imm := 0xFFFE#16)) [] []).job.desc = some .loadk ∧
    jobResults (entryOf (desc 0x09#6 2#5 0#5 0#5 (imm := 0xFFFE#16)) [] []) =
      [⟨⟨0xFFFFFFFE#32, .valid⟩, 0#7⟩] ∧
    jobOp (entryOf (desc 0x0A#6 2#5 0#5 0#5) [] []).job.desc = some .clear ∧
    jobResults (entryOf (desc 0x0A#6 2#5 0#5 0#5) [] []) = [⟨⟨0#32, .empty⟩, 0#7⟩] := by decide

/-- R64, one descriptor for each of its causes; the manual's MAC is well formed. -/
theorem witness_DescriptorsReadAsTheTablesSay :
    opOfCode 0x21#6 = some .mac ∧ jobOp addJob = some .add ∧ Malformed badJob ∧
    ([desc 0x00#6 0#5 0#5 0#5, 0x2000000010#64, desc 0x10#6 0#5 0#5 0#5 (frac := 31#5),
      desc 0x10#6 0#5 0#5 0#5 (report := 3#2), desc 0x02#6 0#5 0#5 0#5 (count := 1#4), badJob,
      desc 0x01#6 0#5 0#5 0#5 (imm := 0x20#16), desc 0x17#6 0#5 0#5 0#5 (imm := 0x40#16),
      desc 0x17#6 0#5 0#5 0#5 (imm := 0x20#16)].all malformed = true) ∧
    malformed 0x00002A00221017A1#64 = false :=
  ⟨by decide, by decide, malformed_jobs.1, by decide, by decide⟩

/-! ### Laws of the whole part -/

theorem witness_MarkedCellsKeepTheirContents :
    CellsSound flying ∧ flying.engine.state = .ready ∧ (∃ t, exec (.jobCompletion 0) flying = .next t) ∧
    (∃ t, exec .cellEmpty flying = .next t ∧ isMarked t.issue.marks 2#8 = true) ∧
    isMarked flying.issue.marks 2#8 = true ∧ ∀ k, Instr.cellEmpty ≠ .jobCompletion k :=
  ⟨cellsSound_flying.1, by decide, ⟨_, rfl⟩, ⟨after .cellEmpty flying, rfl, by decide⟩, by decide, nofun⟩

/-- A full completion queue, and an issuable ADD in a queue not yet ACTIVE. -/
def nearStall : State :=
  { filled 32 with q0 := { Queue.reset with ring := [⟨addJob, 4#8⟩], nextSeq := 5#8 } }

theorem witness_StallIsReportedExactlyAtItsStart :
    exec (.resumePlain .q0) nearStall = .next (after (.resumePlain .q0) nearStall) ∧
    ¬StalledOnSlots nearStall ∧ StalledOnSlots (after (.resumePlain .q0) nearStall) ∧
    nearStall.event.starved = false ∧ (after (.resumePlain .q0) nearStall).event.starved = true := by
  refine ⟨rfl, ?_, ⟨by decide, .q0, ⟨addJob, 4#8⟩, meetsAllButSlot_of (by decide)⟩, by decide, by decide⟩
  rintro ⟨-, q, j, -, h, -⟩
  cases q <;> exact absurd h (by decide)

theorem witness_QueuesMoveAsTheTableLists :
    QueuesSound flying ∧ (Instr.commit .q1 0#8).wellFormed = true ∧
    (∃ t, exec (.commit .q1 0#8) flying = .next t) :=
  ⟨queuesSound_states.1, by decide, ⟨_, rfl⟩⟩

/-- The ADD in flight and its completion at the front of the queue. -/
def completing : State := waiting (.jobCompletion 0) flying

theorem step_completing : ∃ t, step completing = .next t := ⟨_, rfl⟩

theorem witness_StepKeepsCellsSound : CellsSound completing ∧ ∃ t, step completing = .next t :=
  ⟨cellsSound_flying.1, step_completing⟩

theorem witness_StepKeepsInFlightSound :
    MarksSound completing ∧ UnitsSound completing.issue ∧ EntriesSound completing.issue ∧
    ∃ t, step completing = .next t :=
  ⟨marksSound_states.1, by unfold UnitsSound; decide, fun e he => by
      have : completing.issue.inflight = [addEntry] := by decide
      rw [this, List.mem_singleton] at he
      exact he ▸ entrySound_add, step_completing⟩

theorem witness_StepKeepsQueuesSound : QueuesSound completing ∧ ∃ t, step completing = .next t :=
  ⟨queuesSound_states.1, step_completing⟩

/-- The state of `queued` and of `flying` numbers its jobs as R70 has it. -/
theorem witness_StepKeepsSequenceNumbers :
    (QueuesSound completing ∧ SeqSound completing .q0 ∧ ∃ t, step completing = .next t) ∧
    SeqSound queued .q0 ∧ SeqSound haltedMul .q0 := by
  refine ⟨⟨queuesSound_states.1, ⟨by decide, nofun, nofun, by decide⟩, step_completing⟩,
    ⟨by decide, nofun, nofun, by decide⟩, ⟨by decide, nofun, ?_, by decide⟩⟩
  intro h hh
  have : some h = some heldMul := hh.symm.trans (by decide)
  obtain rfl := Option.some.inj this
  decide

theorem witness_StepKeepsPortAndTimersSound :
    (HeldSound heldRead ∧ TimerSound (timing 4 5).cq ∧ PortSound heldRead.port ∧
      ArbiterSound (contending 2#4 2).issue ∧ StartingSound State.reset) ∧
    (∃ t, step (waiting .tickBoundary heldRead) = .next t) ∧
    (∃ t, step (waiting .tickBoundary (timing 4 5)) = .next t) ∧
    (∃ t, step (waiting (.issue .q0) (contending 2#4 2)) = .next t) ∧
    ∃ t, step State.reset = .next t := by
  refine ⟨⟨fun h hh => ?_, timerSound_timing, ⟨by decide, by decide, by decide, by decide, by decide⟩,
    by unfold ArbiterSound; decide, by unfold StartingSound; decide⟩, ⟨_, rfl⟩, ⟨_, rfl⟩, ⟨_, rfl⟩,
    ⟨_, rfl⟩⟩
  have : some h = some ⟨.read, 2#8, 0⟩ := hh.symm.trans (by decide)
  obtain rfl := Option.some.inj this
  decide

end Sys2Proof.Tests
end

/-! The proofs for division by 0 (02_number_format_and_arithmetic_conditions.md, R28). -/

namespace Sys2Proof.Machine

/-! ## DIV by 0 -/

section

variable (d : Desc) (acc : Int) {a : Int}

theorem laneResult_div_zero_of_pos (ha : 0 < a) :
    laneResult d .div a 0 acc = ⟨⟨BitVec.ofInt 32 Config.rawMax, .valid⟩, zeroDivideBit⟩ := by
  simp only [laneResult, if_true, if_neg ha.ne', if_pos ha]

theorem laneResult_div_zero_of_neg (ha : a < 0) :
    laneResult d .div a 0 acc = ⟨⟨BitVec.ofInt 32 Config.rawMin, .valid⟩, zeroDivideBit⟩ := by
  simp only [laneResult, if_true, if_neg ha.ne, if_neg ha.not_gt]

theorem laneResult_div_zero_zero : laneResult d .div 0 0 acc = poisonResult invalidBit := by
  simp only [laneResult, if_true]

end

theorem ofInt_rawMax : BitVec.ofInt 32 Config.rawMax = 2147483647#32 := by decide

theorem ofInt_rawMin : BitVec.ofInt 32 Config.rawMin = 0x80000000#32 := by decide

theorem poisonResult_eq (c : CondSet) : poisonResult c = ⟨⟨0#32, .poison⟩, c⟩ := rfl

/-- Settles O48: the divisor 0 is decided before the rounding mode and the scale are used, so only the
dividend's sign is left to split on. -/
theorem divisionByZero : Obligations.DivisionByZero := by
  intro d a acc
  refine ⟨fun hpos => ?_, fun hneg => ?_, fun hzero => ?_⟩
  · rw [laneResult_div_zero_of_pos d acc hpos, ofInt_rawMax]
  · rw [laneResult_div_zero_of_neg d acc hneg, ofInt_rawMin]
  · rw [hzero, laneResult_div_zero_zero, poisonResult_eq]

end Sys2Proof.Machine

/-! The proofs for commits and PAUSE (04_job_queues.md, R68, R69, R74). -/

namespace Sys2Proof.Machine

/-! ## What a command ends in -/

section

variable {c : Instr} {s u : State}

/-- A command that ends in `u` with its stall report, as a statement about one command gives it. -/
theorem exists_withStarved_of_reportStall (h : exec c s = .next (reportStall s u)) :
    ∃ t, exec c s = .next t ∧ t = withStarved u t.event.starved :=
  ⟨_, h, reportStall_withStarved s u⟩

/-- A command that ends in a port fault alone (R168). -/
theorem exists_faultEntered_of_enterFault {f : PortFault} {a : Byte}
    (h : exec c s = .next (enterFault f a s)) :
    ∃ t, exec c s = .next t ∧ FaultEntered f a s.port t.port ∧ t = { s with port := t.port } :=
  ⟨_, h, faultEntered_enterFault f a s, rfl⟩

end

/-! ## Commits -/

section

variable {s : State} {q : QueueId}

theorem commitAddr_eq (q : QueueId) : commitAddr q = if q = .q0 then 0x2F#8 else 0x3F#8 := by
  cases q <;> rfl

theorem exec_commit_of_takesAccess (b : Byte) (h : takesAccess s = true) :
    exec (.commit q b) s = .next (commitJob q s) :=
  congrArg Host.Outcome.next (hostAccess_taken s h)

theorem commitJob_of_starting (h : s.engine.state = .starting) :
    commitJob q s = enterFault .notReady (commitAddr q) s := by
  obtain ⟨-, h'⟩ | ⟨hne, -⟩ | ⟨hne, -⟩ := commitJob_cases s q
  · exact h'
  · exact absurd h hne
  · exact absurd h hne

theorem commitJob_of_full (h : s.engine.state = .ready) (hfull : 16 ≤ (s.queue q).ring.length) :
    commitJob q s = enterFault .queueFull (commitAddr q) s := by
  obtain ⟨hs, -⟩ | ⟨-, -, h'⟩ | ⟨-, hroom, -⟩ := commitJob_cases s q
  · exact absurd (h.symm.trans hs) (by decide)
  · exact h'
  · exact absurd hfull hroom.not_ge

theorem commitJob_of_room (h : s.engine.state = .ready) (hroom : (s.queue q).ring.length < 16) :
    commitJob q s = reportStall s (s.setQueue q
      { s.queue q with ring := (s.queue q).ring ++ [⟨s.jobStage, (s.queue q).nextSeq⟩],
                       nextSeq := (s.queue q).nextSeq + 1#8 }) := by
  obtain ⟨hs, -⟩ | ⟨-, hfull, -⟩ | ⟨-, -, h'⟩ := commitJob_cases s q
  · exact absurd (h.symm.trans hs) (by decide)
  · exact absurd hfull hroom.not_ge
  · exact h'

end

/-- Settles O24: a taken commit is `commitJob`, which has one outcome for each engine state and, in READY, for
room and no room in the ring. -/
theorem commitAppendsOrFaults : Obligations.CommitAppendsOrFaults := by
  intro s q b ht
  have hexec := exec_commit_of_takesAccess (q := q) b ht
  refine ⟨fun hready hroom => ?_, fun hstart => ?_, fun hready hfull => ?_⟩
  · rw [commitJob_of_room hready hroom] at hexec
    exact exists_withStarved_of_reportStall hexec
  · rw [commitJob_of_starting hstart, commitAddr_eq] at hexec
    exact exists_faultEntered_of_enterFault hexec
  · rw [commitJob_of_full hready hfull, commitAddr_eq] at hexec
    exact exists_faultEntered_of_enterFault hexec

/-! ## PAUSE -/

section

variable {s : State} {q : QueueId}

theorem exec_pause_of_hostReady (hs : HostReady s) :
    exec (.pause q) s = .next (reportStall s (pauseCommand q s)) :=
  congrArg Host.Outcome.next (hostAccess_takeCommand hs q (by decide))

@[simp] theorem queue_with_event (e : EventUnit) : ({ s with event := e } : State).queue q = s.queue q := by
  cases q <;> rfl

theorem pauseCommand_of_idle (ha : (s.queue q).state = .active) (hn : (s.queue q).inflight = 0) :
    pauseCommand q s = setResult .accepted
      ({ s with event := { s.event with paused := true } }.setQueue q
        { s.queue q with state := .paused }) := by
  simp only [pauseCommand, ha, hn, if_true, setQState, queue_with_event]

theorem pauseCommand_of_busy (ha : (s.queue q).state = .active) (hn : 0 < (s.queue q).inflight) :
    pauseCommand q s = setResult .accepted (s.setQueue q { s.queue q with state := .pausing }) := by
  simp only [pauseCommand, ha, if_neg hn.ne', setQState]

theorem pauseCommand_of_stopping (h : (s.queue q).state = .paused ∨ (s.queue q).state = .pausing ∨
    ∃ j, (s.queue q).state = .draining j) : pauseCommand q s = setResult .accepted s := by
  obtain h | h | ⟨j, h⟩ := h <;> simp only [pauseCommand, h]

theorem pauseCommand_of_halted {j : HeldJob} (h : (s.queue q).state = .halted j) :
    pauseCommand q s = setResult .refusedState s := by
  simp only [pauseCommand, h]

end

/-- Settles O25: PAUSE reaches `pauseCommand`, which splits on the queue's state. Where the queue stays in its
state the stall report has nothing to report, so CQ_STARVED is fixed there. -/
theorem pauseByQueueState : Obligations.PauseByQueueState := by
  intro s q hs
  have hexec := exec_pause_of_hostReady (q := q) hs
  refine ⟨fun ha hn => ?_, fun ha hn => ?_, fun h => ?_, fun j h => ?_⟩
  · rw [pauseCommand_of_idle ha hn] at hexec
    exact exists_withStarved_of_reportStall hexec
  · rw [pauseCommand_of_busy ha hn] at hexec
    exact exists_withStarved_of_reportStall hexec
  · rwa [pauseCommand_of_stopping h, reportStall_setResult] at hexec
  · rwa [pauseCommand_of_halted h, reportStall_setResult] at hexec

end Sys2Proof.Machine

/-! The proofs for the issue of a head that no other head contends with, and for its checks
(05_issue_and_execution.md, R88, R97, R104, R113). -/

namespace Sys2Proof.Machine

/-! ## The conditions of R88 and of R104, together -/

section

variable {s : State} {q : QueueId} {j j' : Job}

theorem meetsAllButSlot_iff_of_head (hj : headJob (s.queue q) = some j) :
    meetsAllButSlot s q = true ↔ MeetsAllButSlot s q j := by
  simp only [meetsAllButSlot, MeetsAllButSlot, hj, true_and, Bool.and_eq_true, beq_iff_eq,
    Bool.not_eq_true', Bool.or_eq_true, claimFits_iff, anyMarked_eq_false_iff, List.mem_append,
    drained_iff, guardedInFlight_eq_false_iff, ← holdsBothFence_iff, ← isBothFence_iff, and_assoc]
  simp only [← Bool.not_eq_true, ← imp_iff_not_or]

theorem meetsAllButSlot_iff : meetsAllButSlot s q = true ↔ ∃ j, MeetsAllButSlot s q j := by
  constructor
  · intro h
    cases hj : headJob (s.queue q) with
    | none => simp [meetsAllButSlot, hj] at h
    | some j => exact ⟨j, (meetsAllButSlot_iff_of_head hj).1 h⟩
  · rintro ⟨j, h⟩
    exact (meetsAllButSlot_iff_of_head h.1).2 h

theorem issuable_iff : issuable s q = true ↔ ∃ j, MayIssue s q j := by
  simp only [issuable, MayIssue, Bool.and_eq_true, meetsAllButSlot_iff, slotFree_iff,
    exists_and_left, and_comm]

theorem MayIssue.headJob_eq (h : MayIssue s q j) : headJob (s.queue q) = some j := by
  obtain ⟨-, hj, -⟩ := h
  exact hj

theorem MayIssue.claimFree (h : MayIssue s q j) :
    ∀ c, claimOf j.desc = some c → ClaimFree s.issue c := by
  obtain ⟨-, -, -, hc, -⟩ := h
  exact hc

/-- Of two issuable heads the model's test of a conflict is R104's. -/
theorem headsConflict_iff (h : MayIssue s q j) (h' : MayIssue s q.other j') :
    headsConflict s q j.desc j'.desc = true ↔ Conflict s q j j' := by
  simp only [headsConflict, Conflict, Bool.or_eq_true, Bool.not_eq_true',
    claimFits_both s.issue _ _ h.claimFree h'.claimFree, beq_iff_eq, slotsUsed, Config.cqCapacity,
    Nat.reduceEqDiff, List.any_eq_true, List.contains_iff_mem, List.mem_append, isBothFence_iff,
    or_assoc]

theorem inConflict_eq_false_of_issuesAlone (h : IssuesAlone s q j) : inConflict s q = false := by
  obtain ⟨hmay, hfree⟩ := h
  rw [← Bool.not_eq_true, inConflict, Bool.and_eq_true, Bool.and_eq_true]
  rintro ⟨⟨-, hother⟩, hconf⟩
  obtain ⟨j', hmay'⟩ := issuable_iff.1 hother
  rw [hmay.headJob_eq, hmay'.headJob_eq] at hconf
  exact hfree j' hmay' ((headsConflict_iff hmay hmay').1 hconf)

theorem examineHead_of_issuesAlone (h : IssuesAlone s q j) : examineHead q s = issueJob q j s := by
  have hmay : issuable s q = true := issuable_iff.2 ⟨j, h.1⟩
  simp [examineHead, inConflict_eq_false_of_issuesAlone h, hmay, issueHead, h.1.headJob_eq]

/-- A head that faces no conflict issues, and the stall report follows (R88, R90). -/
theorem exec_issue_of_issuesAlone (h : IssuesAlone s q j) :
    exec (.issue q) s = .next (reportStall s (issueJob q j s)) :=
  congrArg (fun t => Host.Outcome.next (reportStall s t)) (examineHead_of_issuesAlone h)

end

/-! ## A head leaves its queue -/

section

variable {s : State} {q : QueueId} {j : Job}

@[simp] theorem queue_with_cq (c : CompletionQueue) : ({ s with cq := c } : State).queue q = s.queue q := by
  cases q <;> rfl

@[simp] theorem queue_with_issue (il : IssueLogic) :
    ({ s with issue := il } : State).queue q = s.queue q := by
  cases q <;> rfl

/-- The state after step 1 and the head's leaving, from which the rest of an issue goes on (R71, R94). -/
def reservedHead (q : QueueId) (s : State) : State :=
  { s with cq := takeSlot s.cq }.setQueue q (dropHead (s.queue q))

theorem headTaken_reservedHead : HeadTaken s (reservedHead q s) q := by
  simp [HeadTaken, reservedHead]

/-- A head once taken stays taken while its queue's ring and retry position and the other queue stand. -/
theorem HeadTaken.of_queues {t u : State} (h : HeadTaken s t q)
    (hring : (u.queue q).ring = (t.queue q).ring) (hretry : (u.queue q).retry = (t.queue q).retry)
    (hother : u.queue q.other = t.queue q.other) : HeadTaken s u q := by
  unfold HeadTaken
  rw [hring, hretry, hother]
  exact h

theorem HeadTaken.haltAtIssue {t : State} (h : HeadTaken s t q) (c : CondSet) :
    HeadTaken s (haltAtIssue q j c t) q := by
  unfold Machine.haltAtIssue
  dsimp only
  split
  · exact h.of_queues (by simp [haltQueue]) (by simp [haltQueue]) (by simp [haltQueue])
  · exact h.of_queues (by simp) (by simp) (by simp)

theorem HeadTaken.startJob {t : State} (h : HeadTaken s t q) {e : InFlight} (he : e.queue = q) :
    HeadTaken s (startJob e t) q := by
  subst he
  exact h.of_queues (by simp [Machine.startJob]) (by simp [Machine.startJob])
    (by simp [Machine.startJob])

theorem HeadTaken.signalFence {t : State} (h : HeadTaken s t q) (d : Desc) :
    HeadTaken s (signalFence d t) q :=
  h.of_queues (by simp [Machine.signalFence]) (by simp [Machine.signalFence])
    (by simp [Machine.signalFence])

theorem HeadTaken.setFrame {t : State} (h : HeadTaken s t q) (d : Desc) :
    HeadTaken s (setFrame q d t) q := by
  cases hf : flagField d <;>
    exact h.of_queues (by simp [Machine.setFrame, hf]) (by simp [Machine.setFrame, hf])
      (by simp [Machine.setFrame])

theorem HeadTaken.endReservation {t : State} (h : HeadTaken s t q) (cs : CondSet) (echo : Option Raw) :
    HeadTaken s (endReservation q j cs echo t) q :=
  h.of_queues (by simp [Machine.endReservation]) (by simp [Machine.endReservation])
    (by simp [Machine.endReservation])

theorem HeadTaken.reportStall {t : State} (h : HeadTaken s t q) (r : State) :
    HeadTaken s (reportStall r t) q :=
  h.of_queues (by simp) (by simp) (by simp)

/-- However an issue ends, its head has left its queue. -/
theorem headTaken_issueJob : HeadTaken s (issueJob q j s) q := by
  have htaken : HeadTaken s (reservedHead q s) q := headTaken_reservedHead
  unfold issueJob
  dsimp only
  rw [← reservedHead]
  split
  case h_1 c _ => exact htaken.haltAtIssue c
  case h_2 =>
    split
    case h_1 => exact htaken.startJob rfl
    case h_2 =>
      split
      · exact (htaken.signalFence _).endReservation _ _
      · exact (htaken.setFrame _).endReservation _ _

end

/-- Settles O32: the model's test is `MayIssue` condition by condition, and a head alone goes through
`issueJob`, each of whose ends has taken the head. -/
theorem issuableIsTheEightConditions : Obligations.IssuableIsTheEightConditions := by
  intro s q
  refine ⟨issuable_iff, fun j halone => ?_⟩
  exact ⟨_, exec_issue_of_issuesAlone halone, headTaken_issueJob.reportStall s⟩

/-! ## Malformed descriptors (R64) -/

theorem opOfCode_of_mem_codeTable : ∀ p ∈ codeTable, opOfCode p.1 = some p.2 := by decide

theorem opOfCode_eq_some_iff (c : BitVec 6) (o : Op) : opOfCode c = some o ↔ (c, o) ∈ codeTable := by
  constructor
  · intro h
    unfold opOfCode at h
    split at h <;> cases h <;> decide
  · exact opOfCode_of_mem_codeTable (c, o)

theorem opOfCode_eq_none_iff (c : BitVec 6) : opOfCode c = none ↔ c ∉ codeTable.map (·.1) := by
  simp [Option.eq_none_iff_forall_ne_some, opOfCode_eq_some_iff]

theorem isControl_iff (o : Op) : isControl o = true ↔ o ∈ [.setframe, .fence] := by
  simp [isControl]

theorem readsB_eq_false_iff (o : Op) : readsB o = false ↔
    o ∈ [.move, .loadk, .clear, .neg, .abs, .rescale, .sumv, .sqrt, .setframe, .fence] := by
  cases o <;> decide

theorem extractLsb'_immField (d : Desc) {k n : Nat} (h : k + n ≤ 16) :
    (immField d).extractLsb' k n = d.extractLsb' (48 + k) n := by
  ext i hi
  have : k + i < 16 := by omega
  simp [immField, this, Nat.add_assoc]

theorem setWidth_immField (d : Desc) {n : Nat} (h : n ≤ 16) :
    (immField d).setWidth n = d.extractLsb' 48 n := by
  rw [BitVec.setWidth_eq_extractLsb' h, extractLsb'_immField d (by omega)]

/-- What R64 asks of a descriptor by its operation. -/
theorem malformedFor_iff (o : Op) (d : Desc) : malformedFor o d = true ↔
    (o ∈ [.setframe, .fence] ∧ d.extractLsb' 28 4 ≠ 0#4 ∨
     o ∈ [.move, .loadk, .clear, .neg, .abs, .rescale, .sumv, .sqrt, .setframe, .fence] ∧
       d.getLsbD 34 = true ∨
     o = .setframe ∧ d.extractLsb' 53 11 ≠ 0#11 ∨
     o = .rescale ∧ (d.extractLsb' 54 10 ≠ 0#10 ∨ d.extractLsb' 48 6 = 0b100000#6)) := by
  rw [← isControl_iff, ← readsB_eq_false_iff]
  simp only [malformedFor, countField, bcastField, Bool.or_eq_true, Bool.and_eq_true,
    Bool.not_eq_true', bne_iff_ne, beq_iff_eq, or_assoc,
    extractLsb'_immField d (show 5 + 11 ≤ 16 by decide),
    extractLsb'_immField d (show 6 + 10 ≤ 16 by decide), setWidth_immField d (show 6 ≤ 16 by decide)]

theorem malformed_iff (d : Desc) : malformed d = true ↔ Malformed d := by
  cases ho : opField d with
  | none =>
    have hcode : d.extractLsb' 0 6 ∉ codeTable.map (·.1) := (opOfCode_eq_none_iff _).1 ho
    simp only [malformed, ho, Malformed, hcode, not_false_eq_true, true_or]
  | some o =>
    have hmem : (d.extractLsb' 0 6, o) ∈ codeTable := (opOfCode_eq_some_iff _ _).1 ho
    have honly : ∀ p ∈ codeTable, p.1 = d.extractLsb' 0 6 → p.2 = o := by
      intro p hp hc
      have hp' : opOfCode p.1 = some p.2 := (opOfCode_eq_some_iff _ _).2 hp
      rw [hc] at hp'
      exact Option.some.inj (hp'.symm.trans ho)
    have hcode : d.extractLsb' 0 6 ∈ codeTable.map (·.1) := List.mem_map.2 ⟨_, hmem, rfl⟩
    have hop : malformedFor o d = true ↔ ∃ p ∈ codeTable, p.1 = d.extractLsb' 0 6 ∧
        malformedFor p.2 d = true :=
      ⟨fun h => ⟨_, hmem, rfl, h⟩, fun ⟨p, hp, hc, h⟩ => honly p hp hc ▸ h⟩
    simp only [malformedFor_iff] at hop
    simp only [malformed, ho, Malformed, hcode, not_true_eq_false, false_or, ← hop, Bool.or_eq_true,
      bne_iff_ne, beq_iff_eq, malformedFor_iff, reservedField, fracField, reportField, or_assoc]

/-! ## The checks of an issue (R36) -/

section

variable {s : State} {q : QueueId} {j : Job} {c : CondSet}

theorem issueCheck_of_checkFails (h : CheckFails s q j c) :
    issueCheck s (s.queue q) j.desc (fullMask (s.queue q).haltMask) = some c := by
  simp only [CheckFails, inspectedTags, ← malformed_iff] at h
  simp only [issueCheck, fullMask_poisonIn, List.contains_iff_mem, Bool.and_eq_true]
  obtain ⟨hbad, rfl⟩ | ⟨hok, hempty, rfl⟩ | ⟨hok, hfull, hpoison, hmask, rfl⟩ := h
  · exact if_pos hbad
  · rw [if_neg hok]
    exact if_pos hempty
  · rw [if_neg hok, if_neg hfull]
    exact if_pos ⟨hpoison, hmask⟩

theorem issueJob_of_checkFails (h : CheckFails s q j c) :
    issueJob q j s = haltAtIssue q j c (reservedHead q s) := by
  simp only [issueJob, issueCheck_of_checkFails h, reservedHead]

theorem haltAtIssue_of_idle (h : (s.queue q).inflight = 0) :
    haltAtIssue q j c s = haltQueue q ⟨j, c, true⟩ s := if_pos h

theorem haltAtIssue_of_busy (h : 0 < (s.queue q).inflight) :
    haltAtIssue q j c s = s.setQueue q { s.queue q with state := .draining ⟨j, c, true⟩ } :=
  if_neg h.ne'

/-- The record of a job halted at issue fills the slot that its issue reserved. -/
theorem haltQueue_reservedHead (h : HeldJob) : haltQueue q h (reservedHead q s) =
    { s with cq := postRecord (heldOf .halted q h none) s.cq }.setQueue q
      (haltedWith h (dropHead (s.queue q))) := by
  cases q <;> rfl

/-- An issue that a check stops ends as R97 and R113 have it, whatever the stall report adds. -/
theorem haltsAtIssue_issueJob (h : CheckFails s q j c) (b : Bool) :
    HaltsAtIssue s q j c (withStarved (issueJob q j s) b) := by
  rw [issueJob_of_checkFails h]
  have hflight : ((reservedHead q s).queue q).inflight = (s.queue q).inflight := by
    simp [reservedHead]
  constructor
  · intro hidle
    rw [haltAtIssue_of_idle (hflight.trans hidle), haltQueue_reservedHead]
    cases q <;> exact ⟨posted_postRecord _ _, rfl⟩
  · intro hbusy
    rw [haltAtIssue_of_busy (hflight ▸ hbusy)]
    cases q <;> rfl

end

/-- Settles O34: the failed check sends the head that issues alone into `haltAtIssue`, from the state with
its slot reserved and its head taken. -/
theorem failedCheckHaltsAtIssue : Obligations.FailedCheckHaltsAtIssue := by
  intro s q j c halone hfails
  refine ⟨_, exec_issue_of_issuesAlone halone, ?_⟩
  rw [reportStall_withStarved]
  exact haltsAtIssue_issueJob hfails _

end Sys2Proof.Machine

/-! The proofs for RESUME on a HALTED queue: RETRY, SKIP and SUBSTITUTE (R119, R122, R124 to R126). -/

namespace Sys2Proof.Machine

section

variable {s : State} {q : QueueId} {h : HeldJob}

/-! ## The five RESUME rows are one write of CMD -/

theorem exec_resume_of_hostReady (hs : HostReady s) {c : Instr}
    (hc : c ∈ [.resumePlain q, .resumeRetry q, .resumeSkip q, .resumeSubstitute q,
      .resumeOtherArgument q]) :
    exec c s = .next (reportStall s (resumeCommand q s)) := by
  have hwrite : hostAccess (takeCommand 0x1#4 q) s = reportStall s (resumeCommand q s) :=
    hostAccess_takeCommand hs q (by decide)
  simp only [List.mem_cons, List.not_mem_nil, or_false] at hc
  obtain rfl | rfl | rfl | rfl | rfl := hc <;> exact congrArg Host.Outcome.next hwrite

/-- CMD_ARG chooses the recovery action on a HALTED queue (R75, R119). -/
theorem resumeCommand_of_halted (hh : (s.queue q).state = .halted h) :
    resumeCommand q s =
      if s.port.cmdArg = 1#8 then retryHeld q h s
      else if s.port.cmdArg = 2#8 then skipHeld q h s
      else if s.port.cmdArg = 3#8 then substituteHeld q h s
      else setResult .refusedArg s := by
  simp only [resumeCommand, hh, ← BitVec.toNat_inj, BitVec.toNat_ofNat, Nat.reducePow, Nat.reduceMod]
  split
  case isTrue hlarge =>
    rw [if_neg (by omega), if_neg (by omega), if_neg (by omega)]
  case isFalse => rfl

/-! ## RETRY -/

theorem retryHeld_eq : retryHeld q h s =
    { s with port := { s.port with cmdResult := .accepted } }.setQueue q
      { s.queue q with retry := some h.job, state := .active } := by
  cases q <;> rfl

@[simp] theorem retryHeld_queue : (retryHeld q h s).queue q =
    { s.queue q with retry := some h.job, state := .active } := by
  simp [retryHeld]

/-! ## SKIP -/

theorem skipHeld_of_slotFree (hf : slotFree s.cq = true) : skipHeld q h s =
    { s with port := { s.port with cmdResult := .accepted },
             cq := postRecord (heldOf .skipped q h none) s.cq }.setQueue q
      { s.queue q with state := .active } := by
  rw [skipHeld, if_pos hf, heldOf_eq]
  cases q <;> rfl

theorem skipHeld_of_no_slot (hf : slotFree s.cq = false) :
    skipHeld q h s = setResult .refusedBusy s := by
  simp only [skipHeld, hf, Bool.false_eq_true, if_false]

/-! ## SUBSTITUTE -/

theorem substituteHeld_of_not_substitutable (hn : substitutable h = false) :
    substituteHeld q h s = setResult .refusedArg s := by
  simp only [substituteHeld, hn, Bool.not_false, if_true]

theorem substituteHeld_of_busy (hsub : substitutable h = true)
    (hbusy : slotFree s.cq = false ∨ isMarked s.issue.marks (heldDest (s.queue q) h) = true) :
    substituteHeld q h s = setResult .refusedBusy s := by
  have hc : (!slotFree s.cq || isMarked s.issue.marks (heldDest (s.queue q) h)) = true := by
    simpa only [Bool.or_eq_true, Bool.not_eq_true'] using hbusy
  simp only [substituteHeld, hsub, Bool.not_true, Bool.false_eq_true, if_false, hc, if_true]

/-- The write of the destination, the record and the queue's new state (R126). -/
theorem substituteHeld_of_free (hsub : substitutable h = true) (hf : slotFree s.cq = true)
    (hm : isMarked s.issue.marks (heldDest (s.queue q) h) = false) :
    substituteHeld q h s =
      { s with port := { s.port with cmdResult := .accepted },
               cq := postRecord (heldOf .substituted q h (some s.substitute)) s.cq,
               cell := (putCell (heldDest (s.queue q) h) ⟨s.substitute, .valid⟩ s).cell }.setQueue q
        { s.queue q with state := .active } := by
  simp only [substituteHeld, hsub, hf, hm, Bool.not_true, Bool.or_self, Bool.false_eq_true, if_false,
    heldOf_eq]
  cases q <;> rfl

theorem cellAt_congr {t u : State} (hc : t.cell = u.cell) (k : CellNo) : t.cellAt k = u.cellAt k := by
  rw [State.cellAt, hc, State.cellAt]

end

/-- Settles O28: with the argument 1 the RESUME is `retryHeld`, which writes the retry position, and the
retry position is the head whatever the ring holds. -/
theorem retryPutsHeldJobAtHead : Obligations.RetryPutsHeldJobAtHead := by
  intro s q h hs harg hh
  have hretry : resumeCommand q s = retryHeld q h s := by
    rw [resumeCommand_of_halted hh, if_pos harg]
  have hexec : exec (.resumeRetry q) s = .next (reportStall s (retryHeld q h s)) :=
    hretry ▸ exec_resume_of_hostReady hs (by simp)
  have hqueue : (reportStall s (retryHeld q h s)).queue q =
      { s.queue q with retry := some h.job, state := .active } := by simp
  refine ⟨_, hexec, ?_, ?_, ?_⟩
  · rw [hqueue]; rfl
  · rw [hqueue]; rfl
  · rw [← retryHeld_eq]
    exact reportStall_withStarved _ _

/-- Settles O29: with the argument 2 the RESUME is `skipHeld`, which splits on a free slot alone. -/
theorem skipPostsSkippedRecord : Obligations.SkipPostsSkippedRecord := by
  intro s q h hs harg hh
  have hskip : resumeCommand q s = skipHeld q h s := by
    rw [resumeCommand_of_halted hh, harg]; rfl
  have hexec : exec (.resumeSkip q) s = .next (reportStall s (skipHeld q h s)) :=
    hskip ▸ exec_resume_of_hostReady hs (by simp)
  refine ⟨fun hroom => ?_, fun hfull => ?_⟩
  · rw [skipHeld_of_slotFree ((slotFree_iff _).2 hroom)] at hexec
    refine ⟨_, hexec, ?_, ?_⟩
    · rw [reportStall_cq, setQueue_cq]
      exact posted_postRecord _ _
    · rw [reportStall_cq, setQueue_cq]
      exact reportStall_withStarved _ _
  · rwa [skipHeld_of_no_slot ((slotFree_eq_false_iff _).2 hfull), reportStall_setResult] at hexec

/-- Settles O30: with the argument 3 the RESUME is `substituteHeld`, whose tests are R125's requirements: the
held job's own first, then the slot and the mark. -/
theorem substituteWritesDestination : Obligations.SubstituteWritesDestination := by
  intro s q h hs harg hh
  have hsubst : resumeCommand q s = substituteHeld q h s := by
    rw [resumeCommand_of_halted hh, harg]; rfl
  have hexec : exec (.resumeSubstitute q) s = .next (reportStall s (substituteHeld q h s)) :=
    hsubst ▸ exec_resume_of_hostReady hs (by simp)
  refine ⟨fun hno => ?_, fun htakes hbusy => ?_, fun htakes hroom hmark hcells => ?_⟩
  · have hn : substitutable h = false := by
      rw [← Bool.not_eq_true, substitutable_iff]
      exact hno
    rwa [substituteHeld_of_not_substitutable hn, reportStall_setResult] at hexec
  · rw [← slotFree_eq_false_iff] at hbusy
    rwa [substituteHeld_of_busy ((substitutable_iff h).2 htakes) hbusy, reportStall_setResult] at hexec
  · rw [substituteHeld_of_free ((substitutable_iff h).2 htakes) ((slotFree_iff _).2 hroom) hmark] at hexec
    refine ⟨_, hexec, fun k => ?_, ?_, ?_⟩
    · rw [cellAt_congr ((reportStall_cell _ _).trans (setQueue_cell _ _ _))]
      exact cellAt_putCell hcells
    · rw [reportStall_cq, setQueue_cq]
      exact posted_postRecord _ _
    · rw [reportStall_cq, setQueue_cq, reportStall_cell, setQueue_cell]
      exact reportStall_withStarved _ _

end Sys2Proof.Machine

/-! The proofs for the events and EVENT_CODE (08_events_and_the_evt_line.md, R155, R157). -/

namespace Sys2Proof.Machine

/-! ## Levels (R155) -/

theorem getLsbD_levels (e : EventUnit) (j : Nat) : (e.level1 ++ e.level0 : BitVec 16).getLsbD j =
    if j < 8 then e.level0.getLsbD j else e.level1.getLsbD (j - 8) :=
  BitVec.getLsbD_append

/-- The two level bytes are one register of 16 bits, two for each source. -/
theorem sourceLevel_eq_extractLsb' (e : EventUnit) {n : Nat} (hn : n < 8) :
    sourceLevel e n = ((e.level1 ++ e.level0 : BitVec 16).extractLsb' (2 * n) 2).toNat := by
  rw [sourceLevel]
  congr 1
  split <;> ext i hi <;>
    rw [BitVec.getElem_extractLsb', BitVec.getElem_extractLsb', getLsbD_levels]
  case isTrue hlow => rw [if_pos (by omega)]
  case isFalse hhigh => rw [if_neg (by omega), show 2 * (n - 4) + i = 2 * n + i - 8 by omega]

theorem sourceLevel_lt_four (e : EventUnit) (n : Nat) : sourceLevel e n < 4 := BitVec.isLt _

section

variable {s : State} {k m n : Nat} {best : Option Nat}

/-! ## The ranking of the sources (R157) -/

theorem sourceCalls_iff (hn : n < 8) :
    sourceCalls s n = true ↔ (evtPending s).getLsbD n = true ∧ s.event.enable.getLsbD n = true := by
  rw [sourceCalls, Bool.and_eq_true, evtPending_bit s hn]

/-- Source `n` goes before source `m`, or is the same one: it has the higher level, or the lower number at
the same level. -/
def GoesBefore (s : State) (n m : Nat) : Prop :=
  sourceLevel s.event m < sourceLevel s.event n ∨
    sourceLevel s.event m = sourceLevel s.event n ∧ n ≤ m

theorem GoesBefore.refl (s : State) (n : Nat) : GoesBefore s n n := .inr ⟨rfl, le_rfl⟩

theorem GoesBefore.trans (h : GoesBefore s k n) (h' : GoesBefore s n m) : GoesBefore s k m := by
  unfold GoesBefore at *
  omega

theorem GoesBefore.antisymm (h : GoesBefore s n m) (h' : GoesBefore s m n) : n = m := by
  unfold GoesBefore at *
  omega

/-- `best` is R157's choice among the sources below `k`. -/
def IsTopBelow (s : State) (k : Nat) : Option Nat → Prop
  | none => ∀ m, m < k → ¬sourceCalls s m = true
  | some n => n < k ∧ sourceCalls s n = true ∧ ∀ m, m < k → sourceCalls s m = true → GoesBefore s n m

/-! ## What the choice of the model is -/

/-- One more source that does not call leaves the choice. -/
theorem IsTopBelow.succ_of_not_calls (h : IsTopBelow s k best) (hk : ¬sourceCalls s k = true) :
    IsTopBelow s (k + 1) best := by
  have below {m : Nat} (hm : m < k + 1) (hc : sourceCalls s m = true) : m < k :=
    Nat.lt_of_le_of_ne (Nat.le_of_lt_succ hm) fun hmk => hk (hmk ▸ hc)
  match best, h with
  | none, hnone => exact fun m hm hc => hnone m (below hm hc) hc
  | some _, ⟨hn, hcalls, htop⟩ =>
    exact ⟨Nat.lt_succ_of_lt hn, hcalls, fun m hm hc => htop m (below hm hc) hc⟩

/-- One more source that calls is compared with the best of those before it. -/
theorem IsTopBelow.succ_some (hn : n < k + 1) (hcalls : sourceCalls s n = true)
    (hbelow : ∀ m, m < k → sourceCalls s m = true → GoesBefore s n m) (hk : GoesBefore s n k) :
    IsTopBelow s (k + 1) (some n) := by
  refine ⟨hn, hcalls, fun m hm hc => ?_⟩
  obtain hlt | rfl := Nat.lt_succ_iff_lt_or_eq.1 hm
  · exact hbelow m hlt hc
  · exact hk

theorem isTopBelow_betterSource (h : IsTopBelow s k best) :
    IsTopBelow s (k + 1) (betterSource s best k) := by
  unfold betterSource
  split
  case isFalse hk => exact h.succ_of_not_calls hk
  case isTrue hk =>
    match best, h with
    | none, hnone =>
      exact .succ_some k.lt_succ_self hk (fun m hm hc => absurd hc (hnone m hm)) (.refl s k)
    | some n, ⟨hn, hcalls, htop⟩ =>
      dsimp only
      split
      case isTrue hlt =>
        have hkn : GoesBefore s k n := .inl hlt
        exact .succ_some k.lt_succ_self hk (fun m hm hc => hkn.trans (htop m hm hc)) (.refl s k)
      case isFalse hge =>
        have hnk : GoesBefore s n k := (Nat.lt_or_eq_of_le (Nat.le_of_not_lt hge)).imp_right
          fun heq => ⟨heq, hn.le⟩
        exact .succ_some (Nat.lt_succ_of_lt hn) hcalls htop hnk

theorem isTopBelow_foldl_range (s : State) (k : Nat) :
    IsTopBelow s k ((List.range k).foldl (betterSource s) none) := by
  induction k with
  | zero => exact fun m hm => absurd hm m.not_lt_zero
  | succ k ih =>
    rw [List.range_succ, List.foldl_append]
    exact isTopBelow_betterSource ih

theorem isTopBelow_topSource (s : State) : IsTopBelow s 8 (topSource s) := isTopBelow_foldl_range s 8

/-- R157 leaves one choice at most. -/
theorem IsTopBelow.unique {best' : Option Nat} (h : IsTopBelow s k best) (h' : IsTopBelow s k best') :
    best = best' := by
  match best, best', h, h' with
  | none, none, _, _ => rfl
  | none, some n, hnone, ⟨hn, hc, _⟩ => exact absurd hc (hnone n hn)
  | some n, none, ⟨hn, hc, _⟩, hnone => exact absurd hc (hnone n hn)
  | some n, some m, ⟨hn, hcn, htopn⟩, ⟨hm, hcm, htopm⟩ =>
    exact congrArg some ((htopn m hm hcm).antisymm (htopm n hn hcn))

theorem topSource_eq_iff : topSource s = best ↔ IsTopBelow s 8 best :=
  ⟨fun h => h ▸ isTopBelow_topSource s, (isTopBelow_topSource s).unique⟩

/-! ## EVENT_CODE -/

theorem eventCode_of_none (h : topSource s = none) : eventCode s = 0x00#8 := by
  simp only [eventCode, h]

/-- The level and the number of a source fit below bit 7 of the code. -/
theorem eventCode_toNat_of_some (h : topSource s = some n) :
    (eventCode s).toNat = 0x80 + 16 * sourceLevel s.event n + n := by
  obtain ⟨hn, -, -⟩ := topSource_eq_iff.1 h
  have hlevel := sourceLevel_lt_four s.event n
  simp only [eventCode, h, BitVec.toNat_ofNat]
  omega

end

/-- Settles O45: the sources named in the statement are R157's choice, which is unique, so they are the
choice of the model. -/
theorem eventCodeReturnsTopSource : Obligations.EventCodeReturnsTopSource := by
  intro s calls level
  have hcalls {n : Nat} (hn : n < 8) : calls n ↔ sourceCalls s n = true := (sourceCalls_iff hn).symm
  have hlevel {n : Nat} (hn : n < 8) : level n = sourceLevel s.event n :=
    (sourceLevel_eq_extractLsb' s.event hn).symm
  refine ⟨fun hnone => ?_, fun n hn hcall htop => ?_⟩
  · exact eventCode_of_none (topSource_eq_iff.2 fun m hm => mt (hcalls hm).2 (hnone m hm))
  · have htopSource : topSource s = some n := topSource_eq_iff.2 ⟨hn, (hcalls hn).1 hcall,
      fun m hm hc => by
        have := htop m hm ((hcalls hm).2 hc)
        rwa [hlevel hm, hlevel hn] at this⟩
    rw [hlevel hn]
    exact eventCode_toNat_of_some htopSource

end Sys2Proof.Machine

/-! The proofs for the cells over all commands (01_the_cell_store.md, R1, R3; R86). -/

namespace Sys2Proof.Machine

/-! ## What a command makes of the cells -/

section

variable {s : State} {m : Cells} {n : CellNo} {q : QueueId}

/-- What a command other than a completion makes of the cells of `s`: it keeps them, writes one cell that
carries no mark, or, in STARTING, empties them all. -/
inductive CellChange (s : State) : Cells → Prop
  | keep : CellChange s s.cell.cells
  | write (n : CellNo) (c : Cell) (h : isMarked s.issue.marks n = false) :
      CellChange s (putCell n c s).cell.cells
  | scrub (h : s.engine.state = .starting) : CellChange s []

theorem CellChange.of_eq (h : m = s.cell.cells) : CellChange s m := h ▸ .keep

theorem CellChange.wf (h : CellChange s m) (hs : CellsSound s) : Memory.wf m = true := by
  cases h with
  | keep => exact hs
  | write n c _ => exact wf_putCell hs
  | scrub _ => rfl

/-- Outside STARTING a marked cell is not the one that such a command writes. -/
theorem CellChange.cellAt_of_marked {t : State} (h : CellChange s t.cell.cells) (hs : CellsSound s)
    (hready : s.engine.state = .ready) (hn : isMarked s.issue.marks n = true) :
    t.cellAt n = s.cellAt n := by
  unfold State.cellAt
  generalize t.cell.cells = m at h
  cases h with
  | keep => rfl
  | write k c hk =>
    have hne : n ≠ k := by rintro rfl; rw [hn] at hk; cases hk
    exact (cellAt_putCell hs).trans (if_neg hne)
  | scrub h => rw [hready] at h; cases h

@[simp] theorem advanceAddr_cells (c : CellStore) : (advanceAddr c).cells = c.cells := by
  unfold advanceAddr; split <;> rfl

theorem cellChange_doAccess (k : AccessKind) (hn : isMarked s.issue.marks n = false) :
    CellChange s (doAccess k n s).cell.cells := by
  cases k with
  | read => exact .keep
  | write b =>
    simp only [doAccess, doCellWrite, advanceAddr_cells]
    exact .write n _ hn

theorem faultAccess_cells (k : AccessKind) (f : PortFault) (s : State) :
    (faultAccess k f s).cell.cells = s.cell.cells := by
  cases k <;> rfl

theorem cellChange_cellAccess (k : AccessKind) : CellChange s (cellAccess k s).cell.cells := by
  unfold cellAccess
  split
  · exact .of_eq (faultAccess_cells _ _ _)
  · split
    · split
      · exact .of_eq (faultAccess_cells _ _ _)
      · exact .keep
    next hn => exact cellChange_doAccess k (by simpa using hn)

/-- A held access whose cell lost its mark is the only one that is carried out. -/
theorem cellChange_settleHeld : CellChange s (settleHeld s).cell.cells := by
  unfold settleHeld
  split
  · exact .keep
  next a _ =>
    split
    · exact .keep
    next hn =>
      have hn : isMarked s.issue.marks a.cell = false := by simpa using hn
      cases a.kind with
      | read => exact .keep
      | write b =>
        simp only [doAccess, doCellWrite, advanceAddr_cells]
        exact .write a.cell _ hn

/-- A RESUME writes a cell as SUBSTITUTE alone, and then one without a mark (R125). -/
theorem cellChange_resumeCommand : CellChange s (resumeCommand q s).cell.cells := by
  unfold resumeCommand
  dsimp only
  split
  · exact .keep
  · split
    · split
      · exact .of_eq (by simp [setQState])
      · exact .keep
    iterate 3 exact .keep
    · split
      · exact .of_eq (by simp [retryHeld])
      split
      · unfold skipHeld
        split
        · exact .of_eq (by simp [setQState])
        · exact .keep
      split
      · unfold substituteHeld
        dsimp only
        split
        · exact .keep
        split
        · exact .keep
        next hfree =>
          have hn := (Bool.or_eq_false_iff.1 (Bool.eq_false_iff.2 hfree)).2
          simpa [setQState] using CellChange.write (s := s) _ ⟨s.substitute, .valid⟩ hn
      · exact .keep

theorem cellChange_cellCommand (t : Tag) : CellChange s (cellCommand t s).cell.cells := by
  unfold cellCommand
  split
  · exact .keep
  next hn => exact .write s.port.cmdArg ⟨0#32, t⟩ (by simpa using hn)

theorem cellChange_takeCommand (code : BitVec 4) : CellChange s (takeCommand code q s).cell.cells := by
  unfold takeCommand ownerCommand
  split
  · exact .keep
  split
  · exact .keep
  split
  · rw [reportStall_cell]; exact cellChange_resumeCommand
  split
  · exact .of_eq (by rw [reportStall_cell, (pauseCommand_frame s q).2.2.2.2.2.1])
  split
  · exact .of_eq (by rw [(flushCommand_frame s q).2.2.2.2.2.1])
  split
  · exact .of_eq (by rw [(clearStickyCommand_frame s q).2.2.2.2.2.1])
  split
  · exact cellChange_cellCommand _
  split
  · exact cellChange_cellCommand _
  · exact .keep

theorem cellChange_hostAccess {f : State → State}
    (hf : CellChange s (f s).cell.cells) : CellChange s (hostAccess f s).cell.cells :=
  ite_ind (p := fun t : State => CellChange s t.cell.cells) (fun _ => hf) fun _ => .keep

theorem completeRead_cells (s : State) : (completeRead s).cell.cells = s.cell.cells := by
  unfold completeRead
  split <;> simp

theorem commitJob_cell (q : QueueId) (s : State) : (commitJob q s).cell = s.cell := by
  obtain ⟨-, h⟩ | ⟨-, -, h⟩ | ⟨-, -, h⟩ := commitJob_cases s q <;> simp [h]

theorem writeHaltMask_cell (q : QueueId) (b : Byte) (s : State) : (writeHaltMask q b s).cell = s.cell := by
  simp [writeHaltMask]

theorem writeCqPop_cell (s : State) : (writeCqPop s).cell = s.cell := by
  obtain ⟨-, h⟩ | ⟨-, h⟩ := writeCqPop_cases s <;> simp [h]

theorem writePlain_cells (a : WindowAddr) (b : Byte) (s : State) :
    (writePlain a b s).cell.cells = s.cell.cells := by
  rw [(plainChange_writePlain a b s).2]

theorem cellChange_writeWindow (a : WindowAddr) (b : Byte) :
    CellChange s (writeWindow a b s).cell.cells :=
  writeWindow_ind (p := fun t : State => CellChange s t.cell.cells) (cellChange_takeCommand _) .keep .keep
    (cellChange_cellAccess _) (fun q => .of_eq (by rw [writeHaltMask_cell]))
    (fun q => .of_eq (by rw [commitJob_cell])) .keep (.of_eq (by rw [writeCqPop_cell])) .keep .keep
    (.of_eq (writePlain_cells a b s))

theorem leaveReset_cell (s : State) : (leaveReset s).cell = s.cell := by
  unfold leaveReset; split <;> rfl

theorem examineHead_cell (q : QueueId) (s : State) : (examineHead q s).cell = s.cell := by
  obtain h | ⟨w, j, n, -, -, -, h⟩ := examineHead_cases q s
  · rw [h]
  · rw [h, (issueJob_frame _ w j).1]

theorem cellChange_exec {t : State} (c : Instr) (hc : ∀ k, c ≠ .jobCompletion k)
    (hexec : exec c s = .next t) : CellChange s t.cell.cells := by
  cases c <;> cases hexec
  case jobCompletion k => exact absurd rfl (hc k)
  case powerOn => exact .keep
  case resetAssert => exact .of_eq (by split <;> rfl)
  case resetRelease src =>
    cases src <;> refine .of_eq ?_ <;> dsimp only <;> split <;> simp [leaveReset_cell]
  case scrubEnd =>
    split
    next h => exact .scrub (by simp only [scrubRuns, Bool.and_eq_true, beq_iff_eq] at h; exact h.1)
    · exact .keep
  case tickBoundary => exact .of_eq (passTick_frame s).1
  case waitTimeout => exact .of_eq (by split <;> simp [(passTick_frame s).1])
  case coalescingTimerExpiry => exact .of_eq (by split <;> simp [(passTick_frame s).1])
  case cellAddrWrite => exact cellChange_hostAccess .keep
  case cellDataRead | cellWrite => exact cellChange_hostAccess (cellChange_cellAccess _)
  case cellReadComplete => exact cellChange_hostAccess (.of_eq (completeRead_cells s))
  case commit => exact cellChange_hostAccess (.of_eq (by rw [commitJob_cell]))
  case haltMaskWrite => exact cellChange_hostAccess (.of_eq (by rw [writeHaltMask_cell]))
  case arbCtrlWrite | cqHeadRead | cqThresholdWrite | eventCodeRead | evtAck | faultClear =>
    exact cellChange_hostAccess .keep
  case cqPop => exact cellChange_hostAccess (.of_eq (by rw [writeCqPop_cell]))
  case registerWrite => exact cellChange_hostAccess (cellChange_writeWindow _ _)
  case issue => exact .of_eq (by rw [reportStall_cell, examineHead_cell])
  all_goals exact cellChange_hostAccess (cellChange_takeCommand _)

/-! ## Completions -/

/-- The state in which a completion has written, or halted, and retired its job, and the held access is
not yet looked at (R101, R102). -/
def retired (n : Nat) (e : InFlight) (s : State) : State :=
  retireJob n e (if haltsAtCompletion e then s else putResults e.dests (jobResults e) s)

theorem isMarked_retired {k : CellNo} {i : Nat} {e : InFlight} :
    isMarked (retired i e s).issue.marks k = true ↔ isMarked s.issue.marks k = true ∧ k ∉ e.dests := by
  rw [retired, retireJob_marks, isMarked_clearMarks]
  split <;> simp

theorem completeJob_of_some {i : Nat} {e : InFlight} (h : s.issue.inflight[i]? = some e) :
    completeJob i s = if haltsAtCompletion e then completeHalting i e s else completeWriting i e s := by
  simp [completeJob, h]

/-- After the held access a completion changes neither a cell nor the issue logic any more. -/
theorem completeJob_cell_issue {i : Nat} {e : InFlight} (h : s.issue.inflight[i]? = some e) :
    (completeJob i s).cell = (settleHeld (retired i e s)).cell ∧
    (completeJob i s).issue = (retired i e s).issue := by
  rw [completeJob_of_some h, retired]
  split
  · simp [completeHalting, haltQueue]
  · rw [completeWriting, (settleQueue_frame _ _).2.2]
    simp [setSticky, endReservation]

theorem retired_cells {i : Nat} {e : InFlight} : (retired i e s).cell.cells =
    if haltsAtCompletion e then s.cell.cells else (putResults e.dests (jobResults e) s).cell.cells := by
  rw [retired, retireJob_cell]
  split <;> rfl

theorem wf_retired {i : Nat} {e : InFlight} (hs : CellsSound s) :
    Memory.wf (retired i e s).cell.cells = true := by
  rw [retired_cells]
  split
  · exact hs
  · exact wf_putResults hs

theorem cellAt_retired_of_not_mem {i : Nat} {e : InFlight} (hs : CellsSound s) (hn : n ∉ e.dests) :
    (retired i e s).cellAt n = s.cellAt n := by
  unfold State.cellAt
  rw [retired_cells]
  split
  · rfl
  · exact cellAt_putResults_of_not_mem hs hn

theorem retired_engine {i : Nat} {e : InFlight} : (retired i e s).engine = s.engine := by
  rw [retired, (retireJob_frame _ _ _).2.2]
  split
  · rfl
  · rw [putResults_eq]

theorem cellsSound_completeJob (i : Nat) (hs : CellsSound s) : CellsSound (completeJob i s) := by
  cases h : s.issue.inflight[i]? with
  | none => rwa [completeJob_of_none h]
  | some e =>
    unfold CellsSound
    rw [(completeJob_cell_issue h).1]
    exact cellChange_settleHeld.wf (wf_retired hs)

/-- A completion changes no cell whose mark it leaves. -/
theorem cellAt_completeJob {i : Nat} (hs : CellsSound s) (hready : s.engine.state = .ready)
    (hn : isMarked (completeJob i s).issue.marks n = true) :
    (completeJob i s).cellAt n = s.cellAt n := by
  cases h : s.issue.inflight[i]? with
  | none => rw [completeJob_of_none h]
  | some e =>
    obtain ⟨hcell, hissue⟩ := completeJob_cell_issue h
    rw [hissue] at hn
    have hchange : CellChange (retired i e s) (completeJob i s).cell.cells :=
      hcell ▸ cellChange_settleHeld
    rw [hchange.cellAt_of_marked (wf_retired hs) (by rwa [retired_engine]) hn]
    exact cellAt_retired_of_not_mem hs (isMarked_retired.1 hn).2

end

theorem CellsSound.exec {s t : State} {c : Instr} (hs : CellsSound s) (hexec : exec c s = .next t) :
    CellsSound t := by
  by_cases hc : ∃ k, c = .jobCompletion k
  · obtain ⟨k, rfl⟩ := hc
    cases hexec
    rw [CellsSound, reportStall_cell]
    exact cellsSound_completeJob k.val hs
  · exact (cellChange_exec c (fun k h => hc ⟨k, h⟩) hexec).wf hs

theorem CellsSound.clockPeriod {s : State} (hs : CellsSound s) : CellsSound (clockPeriod s) := by
  obtain h | ⟨-, u, hu, h⟩ := clockPeriod_cases s
  · rwa [h]
  have hwf : CellsSound u := by
    obtain rfl | ⟨-, rfl | ⟨hn, rfl⟩⟩ := hu
    · exact hs
    · rfl
    · exact wf_writeCells hs (by omega) rfl
  obtain h | ⟨-, h⟩ := h
  · rw [h, CellsSound, (passTick_frame u).1]
    exact hwf
  · rw [h]
    exact hwf

/-- Settles O55: a command other than a completion writes at most one cell, a completion writes results in
the form of R1, and a clock period writes at most an empty cell. -/
theorem stepKeepsCellsSound : Obligations.StepKeepsCellsSound := by
  intro s t hs hstep
  unfold step at hstep
  split at hstep
  · cases hstep
    exact hs.clockPeriod
  next c rest _ =>
    have hrest : CellsSound { s with pending := rest } := hs
    exact hrest.exec hstep

/-- Settles O52: a command other than a completion writes none but unmarked cells, and a completion none but
cells that carry no mark after it. -/
theorem markedCellsKeepTheirContents : Obligations.MarkedCellsKeepTheirContents := by
  intro c s t n hs hready hexec hn
  by_cases hc : ∃ k, c = .jobCompletion k
  · obtain ⟨k, rfl⟩ := hc
    cases hexec
    refine ⟨fun hn' => ?_, fun h => absurd rfl (h k)⟩
    rw [reportStall_issue] at hn'
    rw [cellAt_congr (reportStall_cell _ _)]
    exact cellAt_completeJob hs hready hn'
  · have h := (cellChange_exec c (fun k h => hc ⟨k, h⟩) hexec).cellAt_of_marked hs hready hn
    exact ⟨fun _ => h, fun _ => h⟩

end Sys2Proof.Machine

/-! The proofs for the stall report over all commands (07_the_completion_queue.md, R145; R90). -/

namespace Sys2Proof.Machine

/-! ## When a head is stalled -/

section

variable {s t u : State} {q : QueueId}

theorem eq_or_eq_other (q q' : QueueId) : q' = q ∨ q' = q.other := by
  cases q <;> cases q' <;> simp [QueueId.other]

theorem exists_queueId {p : QueueId → Prop} : (∃ q, p q) ↔ p .q0 ∨ p .q1 :=
  ⟨fun ⟨q, h⟩ => by cases q; exacts [.inl h, .inr h], fun h => h.elim (⟨_, ·⟩) (⟨_, ·⟩)⟩

theorem stalled_iff : stalled s = true ↔ StalledOnSlots s := by
  simp only [stalled, StalledOnSlots, Bool.and_eq_true, Bool.not_eq_true', slotFree_eq_false_iff,
    Bool.or_eq_true, exists_queueId, meetsAllButSlot_iff]

/-- What R88 asks of a head, a slot apart, is asked of the queues and the issue logic. -/
theorem meetsAllButSlot_congr (hq : t.queue = s.queue) (hi : t.issue = s.issue) (q : QueueId) :
    meetsAllButSlot t q = meetsAllButSlot s q := by
  simp only [meetsAllButSlot, anyMarked, drained, guardedInFlight, hq, hi]

theorem stalled_of_meets (hc : slotsUsed t.cq = slotsUsed s.cq)
    (h : ∀ q, meetsAllButSlot t q = true → meetsAllButSlot s q = true) (ht : stalled t = true) :
    stalled s = true := by
  simp only [stalled, slotFree, hc, Bool.and_eq_true, Bool.or_eq_true] at ht ⊢
  exact ⟨ht.1, ht.2.imp (h _) (h _)⟩

theorem stalled_of_slotsUsed (hc : slotsUsed t.cq = slotsUsed s.cq) (hq : t.queue = s.queue)
    (hi : t.issue = s.issue) (ht : stalled t = true) : stalled s = true :=
  stalled_of_meets hc (fun q h => meetsAllButSlot_congr hq hi q ▸ h) ht

theorem not_stalled_of_no_slot_used (h : slotsUsed t.cq = 0) : stalled t ≠ true := by
  simp [stalled, slotFree, h, Config.cqCapacity]

theorem queue_eq_of (h0 : t.q0 = s.q0) (h1 : t.q1 = s.q1) : t.queue = s.queue := by
  funext q; cases q; exacts [h0, h1]

/-! ## The law of the report -/

/-- From `s` to `t` CQ_STARVED becomes pending when a stall begins, and at no other time. -/
def StallLaw (s t : State) : Prop :=
  (¬StalledOnSlots s → StalledOnSlots t → t.event.starved = true) ∧
  (s.event.starved = false → t.event.starved = true → ¬StalledOnSlots s ∧ StalledOnSlots t)

/-- A happening that begins no stall and leaves CQ_STARVED, or clears it, obeys the law. -/
theorem StallLaw.of_no_start (h : stalled t = true → stalled s = true)
    (he : t.event.starved = true → s.event.starved = true) : StallLaw s t := by
  rw [StallLaw, ← stalled_iff, ← stalled_iff]
  refine ⟨fun hs ht => absurd (h ht) hs, fun hs ht => ?_⟩
  rw [he ht] at hs
  cases hs

/-- A happening that leaves the queues, the issue logic and the slots in use. -/
theorem StallLaw.of_frame (h0 : t.q0 = s.q0) (h1 : t.q1 = s.q1) (hi : t.issue = s.issue)
    (hc : slotsUsed t.cq = slotsUsed s.cq) (he : t.event.starved = true → s.event.starved = true) :
    StallLaw s t :=
  .of_no_start (stalled_of_slotsUsed hc (queue_eq_of h0 h1) hi) he

/-- After a reset no slot is used. -/
theorem StallLaw.of_no_slot_used (hc : slotsUsed t.cq = 0) (he : t.event.starved = false) :
    StallLaw s t :=
  .of_no_start (fun h => absurd h (not_stalled_of_no_slot_used hc)) fun h => by rw [he] at h; cases h

/-- A happening that ends with a report obeys the law. -/
theorem StallLaw.reportStall (he : u.event.starved = s.event.starved) :
    StallLaw s (reportStall s u) := by
  have hst : stalled (Machine.reportStall s u) = stalled u :=
    stalled_congr (reportStall_q0 _ _) (reportStall_q1 _ _) (reportStall_issue _ _) (reportStall_cq _ _)
  have hev : (Machine.reportStall s u).event.starved =
      (s.event.starved || (stalled u && !stalled s)) := by rw [reportStall_event, he]
  rw [StallLaw, ← stalled_iff, ← stalled_iff, hst, hev]
  cases s.event.starved <;> simp +contextual

/-! ## The happenings without a report -/

theorem meetsAllButSlot_writeArbCtrl (b : Byte) : meetsAllButSlot (writeArbCtrl b s) q =
    meetsAllButSlot s q := by
  cases q <;> rfl

theorem not_meetsAllButSlot (h : (s.queue q).state ≠ .active) : meetsAllButSlot s q ≠ true := by
  rw [ne_eq, meetsAllButSlot_iff]
  rintro ⟨j, -, hactive, -⟩
  exact h hactive

/-- A FLUSH makes its queue PAUSED, and was no hindrance to the other queue before. -/
theorem meetsAllButSlot_of_flushCommand {q' : QueueId}
    (h : meetsAllButSlot (flushCommand q s) q' = true) : meetsAllButSlot s q' = true := by
  have hqueue : (flushCommand q s).queue q.other = s.queue q.other ∧
      ((flushCommand q s = setResult .refusedState s) ∨
        (s.queue q).state ≠ .active ∧ ((flushCommand q s).queue q).state = .paused ∧
        ((flushCommand q s).queue q).inflight = (s.queue q).inflight) := by
    unfold flushCommand
    split <;> simp_all
  obtain ⟨hother, hresult | ⟨hold, hpaused, hflight⟩⟩ := hqueue
  · rw [hresult] at h
    exact h
  obtain rfl | rfl := eq_or_eq_other q q'
  · exact absurd h (not_meetsAllButSlot (by simp [hpaused]))
  · have hfence {Q : Queue} (hQ : Q.state ≠ .active) : holdsBothFence Q = false := by
      simp [holdsBothFence, hQ]
    rw [← h]
    simp only [meetsAllButSlot, anyMarked, drained, guardedInFlight, other_other, hother, hflight,
      hfence hold, hfence (show ((flushCommand q s).queue q).state ≠ .active by simp [hpaused]),
      (flushCommand_frame s q).2.1]

theorem leaveReset_frame (s : State) : (leaveReset s).cell = s.cell ∧ (leaveReset s).q0 = s.q0 ∧
    (leaveReset s).q1 = s.q1 ∧ (leaveReset s).issue = s.issue ∧ (leaveReset s).cq = s.cq ∧
    (leaveReset s).event = s.event ∧ (leaveReset s).pending = s.pending := by
  unfold leaveReset; split <;> exact ⟨rfl, rfl, rfl, rfl, rfl, rfl, rfl⟩

theorem StallLaw.leaveReset (e : Engine) : StallLaw s (leaveReset { s with engine := e }) := by
  obtain ⟨-, h0, h1, hi, hc, he, -⟩ := leaveReset_frame { s with engine := e }
  exact .of_frame h0 h1 hi (by rw [hc]) (by rw [he]; exact id)

theorem clearSource_starved (n : Nat) {e : EventUnit} (h : (clearSource n e).starved = true) :
    e.starved = true := by
  unfold clearSource at h
  split at h <;> first | exact h | cases h

theorem StallLaw.completeRead : StallLaw s (completeRead s) := by
  unfold Machine.completeRead
  split <;> exact .of_frame rfl rfl rfl rfl id

theorem StallLaw.commitJob : StallLaw s (commitJob q s) := by
  obtain ⟨-, h⟩ | ⟨-, -, h⟩ | ⟨-, -, h⟩ := commitJob_cases s q <;> rw [h]
  · exact .of_frame rfl rfl rfl rfl id
  · exact .of_frame rfl rfl rfl rfl id
  · exact .reportStall (by simp)

theorem StallLaw.writeCqPop : StallLaw s (writeCqPop s) := by
  obtain ⟨-, h⟩ | ⟨-, h⟩ := writeCqPop_cases s <;> rw [h]
  · exact .of_frame rfl rfl rfl rfl id
  · exact .reportStall rfl

theorem StallLaw.examineHead (q : QueueId) : StallLaw s (Machine.reportStall s (examineHead q s)) := by
  refine .reportStall ?_
  obtain h | ⟨w, j, n, -, -, -, h⟩ := examineHead_cases q s
  · rw [h]
  · rw [h, (issueJob_frame _ w j).2.2.2.2.2.2.2]

theorem happenings_stallLaw (s : State) : Happenings (StallLaw s) s where
  same := .of_frame rfl rfl rfl rfl id
  powerOn := .of_no_slot_used rfl rfl
  resetAssert _ _ := .of_no_slot_used rfl rfl
  endPowerOn _ := .leaveReset _
  endPin _ := .leaveReset _
  scrubEnd _ := .of_frame rfl rfl rfl rfl id
  tick _ := by
    obtain ⟨-, -, hi, he, h0, h1, hring, hres, -⟩ := passTick_frame s
    exact .of_frame h0 h1 hi (by rw [slotsUsed, hring, hres, slotsUsed]) (by rw [he]; exact id)
  cellAddr _ _ := .of_frame rfl rfl rfl rfl id
  cellData k _ := by rw [cellAccess_frame]; exact .of_frame rfl rfl rfl rfl id
  completeRead _ := .completeRead
  commit _ _ := .commitJob
  haltMask q b _ := .reportStall (by simp)
  arbCtrl b _ := .of_no_start (stalled_of_meets rfl fun _ h => meetsAllButSlot_writeArbCtrl b ▸ h) id
  cqHead _ := .of_frame rfl rfl rfl rfl id
  cqPop _ := .writeCqPop
  threshold _ _ := .of_frame rfl rfl rfl rfl id
  eventCode _ := by
    refine .of_frame rfl rfl rfl rfl fun h => ?_
    change (eventAfterRead (topSource s) s.event).starved = true at h
    cases ht : topSource s with
    | none => rwa [ht] at h
    | some n => rw [ht] at h; exact clearSource_starved n h
  evtAck _ _ := .of_frame rfl rfl rfl rfl (clearSource_starved _)
  faultClear _ := .of_frame rfl rfl rfl rfl id
  plain a b _ := by rw [(plainChange_writePlain a b s).2]; exact .of_frame rfl rfl rfl rfl id
  result _ _ := .of_frame rfl rfl rfl rfl id
  resume q _ := .reportStall (by rw [(resumeCommand_frame s q).2.2.1])
  pause q _ := .reportStall (by rw [(pauseCommand_frame s q).2.2.2.1])
  flush q _ := by
    obtain ⟨-, -, -, he, -, -, hc⟩ := flushCommand_frame s q
    exact .of_no_start (stalled_of_meets (by rw [hc]) fun _ => meetsAllButSlot_of_flushCommand)
      (by rw [he]; exact id)
  clearSticky q _ := by
    refine .of_no_start (stalled_of_meets (by simp [clearStickyCommand]) fun q' h => ?_)
      (by simp [clearStickyCommand])
    rw [← h]
    cases q <;> cases q' <;> rfl
  cellCommand t _ _ := by rw [cellCommand_frame]; exact .of_frame rfl rfl rfl rfl id
  softReset _ := .of_no_slot_used rfl rfl
  issue q := .examineHead q
  completion n := .reportStall (completeJob_frame s n.val).2.2.2.2.2

end

/-- Settles O53: a happening that can begin a stall ends with the report; each of the others leaves what a
stall depends on, empties the completion queue, or takes a queue out of ACTIVE. -/
theorem stallIsReportedExactlyAtItsStart : Obligations.StallIsReportedExactlyAtItsStart := by
  intro c s t hexec
  obtain ⟨u, hu, hlaw⟩ := (happenings_stallLaw s).exec c
  cases hexec.symm.trans hu
  exact hlaw

end Sys2Proof.Machine

/-! What an issue and a completion do to the queues, the completion queue and the issue logic: each of their
ends said once (05_issue_and_execution.md, R94, R97 to R102; 06_halts_and_recovery.md, R113 to R115). -/

namespace Sys2Proof.Machine

/-! ## The ends of an issue -/

section

variable {s : State} {q : QueueId} {j : Job}

/-- The end of a control job at its issue: the frame pointers, SIGNAL and the completion queue alone. -/
def ControlEnd (q : QueueId) (s t : State) : Prop :=
  ∃ (fa fb : BitVec 5) (c : CompletionQueue) (b : Bool), (c = s.cq ∨ ∃ r, c = postRecord r s.cq) ∧
    t = { s with cq := c, event := { s.event with signal := b } }.setQueue q
      { dropHead (s.queue q) with frameA := fa, frameB := fb }

theorem endReservation_signalFence (cs : CondSet) (echo : Option Raw) (d : Desc) :
    endReservation q j cs echo (signalFence d (reservedHead q s)) =
      { s with cq := (endReservation q j cs echo (reservedHead q s)).cq
               event := { s.event with signal := s.event.signal || signalField d } }.setQueue q
        (dropHead (s.queue q)) := by
  cases q <;> rfl

theorem endReservation_setFrame (cs : CondSet) (echo : Option Raw) (d : Desc) :
    endReservation q j cs echo (setFrame q d (reservedHead q s)) =
      { s with cq := (endReservation q j cs echo (reservedHead q s)).cq }.setQueue q
        (if flagField d then { dropHead (s.queue q) with frameB := (immField d).setWidth 5 }
         else { dropHead (s.queue q) with frameA := (immField d).setWidth 5 }) := by
  cases q <;> rfl

/-- The slot that an issue reserved and its control job gives back or fills. -/
theorem endReservation_reservedHead_cq (cs : CondSet) (echo : Option Raw) :
    (endReservation q j cs echo (reservedHead q s)).cq = s.cq ∨
    ∃ r, (endReservation q j cs echo (reservedHead q s)).cq = postRecord r s.cq := by
  simp only [endReservation, fillSlot, reservedHead, setQueue_cq, releaseSlot_takeSlot]
  split
  · exact .inr ⟨_, rfl⟩
  · exact .inl rfl

theorem controlEnd_signalFence (cs : CondSet) (echo : Option Raw) (d : Desc) :
    ControlEnd q s (endReservation q j cs echo (signalFence d (reservedHead q s))) :=
  ⟨_, _, _, _, endReservation_reservedHead_cq cs echo, endReservation_signalFence cs echo d⟩

theorem controlEnd_setFrame (cs : CondSet) (echo : Option Raw) (d : Desc) :
    ControlEnd q s (endReservation q j cs echo (setFrame q d (reservedHead q s))) := by
  rw [endReservation_setFrame]
  split <;> exact ⟨_, _, _, s.event.signal, endReservation_reservedHead_cq cs echo, rfl⟩

/-- The start of a job in its unit, from the state with its slot reserved and its head taken (R96). -/
theorem startJob_reservedHead {e : InFlight} (he : e.queue = q) : startJob e (reservedHead q s) =
    { s with cq := takeSlot s.cq
             issue := { claimUnits s.issue (some e.claim) with
               marks := setMarks e.dests s.issue.marks, inflight := s.issue.inflight ++ [e] } }.setQueue q
      { dropHead (s.queue q) with inflight := (dropHead (s.queue q)).inflight + 1 } := by
  subst he
  cases e with
  | mk q => cases q <;> rfl

/-- Everything an issue can come to: a halt with the record posted, a halt that drains, a start in a unit, or
the end of a control job. -/
theorem issueJob_cases (q : QueueId) (j : Job) (s : State) :
    (∃ c, (s.queue q).inflight = 0 ∧ issueJob q j s =
      { s with cq := postRecord (heldOf .halted q ⟨j, c, true⟩ none) s.cq }.setQueue q
        (haltedWith ⟨j, c, true⟩ (dropHead (s.queue q)))) ∨
    (∃ c, 0 < (s.queue q).inflight ∧ issueJob q j s =
      { s with cq := takeSlot s.cq }.setQueue q
        { dropHead (s.queue q) with state := .draining ⟨j, c, true⟩ }) ∨
    (∃ cl, claimOf j.desc = some cl ∧
      issueCheck s (s.queue q) j.desc (fullMask (s.queue q).haltMask) = none ∧
      ∃ e, e = captureEntry s q j (fullMask (s.queue q).haltMask) cl ∧ issueJob q j s =
        { s with cq := takeSlot s.cq
                 issue := { claimUnits s.issue (some cl) with
                   marks := setMarks e.dests s.issue.marks, inflight := s.issue.inflight ++ [e] } }.setQueue q
          { dropHead (s.queue q) with inflight := (dropHead (s.queue q)).inflight + 1 }) ∨
    ControlEnd q s (issueJob q j s) := by
  unfold issueJob
  dsimp only
  rw [← reservedHead]
  have hflight : ((reservedHead q s).queue q).inflight = (s.queue q).inflight := by
    simp [reservedHead]
  split
  next c _ =>
    rcases Nat.eq_zero_or_pos (s.queue q).inflight with h | h
    · rw [haltAtIssue_of_idle (hflight.trans h), haltQueue_reservedHead]
      exact .inl ⟨c, h, rfl⟩
    · rw [haltAtIssue_of_busy (hflight ▸ h)]
      exact .inr (.inl ⟨c, h, by simp [reservedHead]⟩)
  next hcheck =>
    split
    next cl hcl => exact .inr (.inr (.inl ⟨cl, hcl, hcheck, _, rfl, startJob_reservedHead rfl⟩))
    · split
      · exact .inr (.inr (.inr (controlEnd_signalFence _ _ _)))
      · exact .inr (.inr (.inr (controlEnd_setFrame _ _ _)))

end

/-! ## The end of a queue's last job in flight -/

section

variable {s : State} {q : QueueId} {i : Nat} {e : InFlight}

/-- The last job of a PAUSING queue and of a DRAINING one ends that state; no other completion does. -/
theorem settleQueue_cases (q : QueueId) (s : State) :
    (settleQueue q s = s ∧ ((s.queue q).inflight = 0 → (s.queue q).state ≠ .pausing ∧
      ∀ h, (s.queue q).state ≠ .draining h)) ∨
    ((s.queue q).inflight = 0 ∧ (s.queue q).state = .pausing ∧
      settleQueue q s = { s with event := { s.event with paused := true } }.setQueue q
        { s.queue q with state := .paused }) ∨
    (∃ h, (s.queue q).inflight = 0 ∧ (s.queue q).state = .draining h ∧
      settleQueue q s = haltQueue q h s) := by
  unfold settleQueue
  split
  next hz =>
    split
    next hp => exact .inr (.inl ⟨hz, hp, rfl⟩)
    next h hd => exact .inr (.inr ⟨h, hz, hd, rfl⟩)
    all_goals next hst => exact .inl ⟨rfl, fun _ => by simp [hst]⟩
  next hz => exact .inl ⟨rfl, fun h => absurd h hz⟩

/-! ## The parts of a completion -/

theorem retired_queue : (retired i e s).queue e.queue =
      { s.queue e.queue with inflight := (s.queue e.queue).inflight - 1 } ∧
    (retired i e s).queue e.queue.other = s.queue e.queue.other := by
  obtain ⟨hq, ho, -⟩ := retireJob_frame i e
    (if haltsAtCompletion e then s else putResults e.dests (jobResults e) s)
  rw [retired, hq, ho]
  split <;> simp

theorem retired_cq : (retired i e s).cq = s.cq := by
  rw [retired, retireJob_cq]
  split <;> simp

theorem retired_issue : (retired i e s).issue = { releaseUnits s.issue e.claim with
    marks := clearMarks e.dests s.issue.marks, inflight := s.issue.inflight.eraseIdx i } := by
  rw [retired]
  split <;> simp [retireJob]

/-- The state of a writing completion before it looks at what its queue was waiting for (R102, R136). -/
def written (i : Nat) (e : InFlight) (s : State) : State :=
  setSticky e.queue (jobConds e) (endReservation e.queue e.job (jobConds e) (echoOf (jobResults e))
    (settleHeld (retired i e s)))

theorem completeJob_of_halts (h : s.issue.inflight[i]? = some e) (hh : haltsAtCompletion e = true) :
    completeJob i s = haltQueue e.queue ⟨e.job, jobConds e, false⟩ (settleHeld (retired i e s)) := by
  rw [completeJob_of_some h, if_pos hh, retired, if_pos hh]
  rfl

theorem completeJob_of_writes (h : s.issue.inflight[i]? = some e) (hh : haltsAtCompletion e = false) :
    completeJob i s = settleQueue e.queue (written i e s) := by
  rw [completeJob_of_some h, hh, written, retired, hh]
  rfl

section

variable (q q' : QueueId) (j : Job) (cs : CondSet) (echo : Option Raw) (s : State)

@[simp] theorem endReservation_queue : (endReservation q j cs echo s).queue q' = s.queue q' := by
  cases q' <;> rfl

end

/-- A job's reservation ends with a record or without one. -/
theorem endReservation_cq (q : QueueId) (j : Job) (cs : CondSet) (echo : Option Raw) (s : State) :
    (endReservation q j cs echo s).cq = releaseSlot s.cq ∨
    ∃ r, (endReservation q j cs echo s).cq = fillSlot r s.cq := by
  unfold endReservation
  dsimp only
  split
  · exact .inr ⟨_, rfl⟩
  · exact .inl rfl

theorem written_queue : (written i e s).queue e.queue = { s.queue e.queue with
      inflight := (s.queue e.queue).inflight - 1,
      sticky := (s.queue e.queue).sticky ||| stickyBits (jobConds e) } ∧
    (written i e s).queue e.queue.other = s.queue e.queue.other := by
  obtain ⟨hq, ho⟩ := retired_queue (i := i) (e := e) (s := s)
  simp [written, setSticky, hq, ho]

theorem written_cq :
    (written i e s).cq = (endReservation e.queue e.job (jobConds e) (echoOf (jobResults e)) s).cq := by
  simp [written, setSticky, endReservation, retired_cq]

end

/-! ## The ends of a completion -/

section

variable {s t : State} {i : Nat} {e : InFlight}

/-- The queue `Q` with one job in flight less. -/
def oneLess (Q : Queue) : Queue := { Q with inflight := Q.inflight - 1 }

/-- The reservation of a completing job has ended, with a record or without. -/
def SlotEnded (c c' : CompletionQueue) : Prop := c' = releaseSlot c ∨ ∃ r, c' = fillSlot r c

/-- Everything the completion of the entry `e` can do to its queue and to the completion queue: the job halts,
its queue goes on, or its queue was PAUSING or DRAINING and this was its last job. -/
inductive CompletionEnd (e : InFlight) (s t : State) : Prop
  | halted (hh : haltsAtCompletion e = true)
      (hq : t.queue e.queue = haltedWith ⟨e.job, jobConds e, false⟩ (oneLess (s.queue e.queue)))
      (hcq : ∃ r, t.cq = fillSlot r s.cq)
  | running (hlast : (s.queue e.queue).inflight - 1 = 0 → (s.queue e.queue).state ≠ .pausing ∧
        ∀ h, (s.queue e.queue).state ≠ .draining h)
      (hq : ∃ f, t.queue e.queue = { oneLess (s.queue e.queue) with sticky := f })
      (hcq : SlotEnded s.cq t.cq)
  | paused (hz : (s.queue e.queue).inflight - 1 = 0) (hst : (s.queue e.queue).state = .pausing)
      (hq : ∃ f, t.queue e.queue = { oneLess (s.queue e.queue) with state := .paused, sticky := f })
      (hcq : SlotEnded s.cq t.cq)
  | drained (h : HeldJob) (hz : (s.queue e.queue).inflight - 1 = 0)
      (hst : (s.queue e.queue).state = .draining h)
      (hq : ∃ f, t.queue e.queue = haltedWith h { oneLess (s.queue e.queue) with sticky := f })
      (hcq : ∃ c r, SlotEnded s.cq c ∧ t.cq = fillSlot r c)

theorem haltQueue_queue (q : QueueId) (h : HeldJob) (s : State) :
    (haltQueue q h s).queue q = haltedWith h (s.queue q) ∧
    (haltQueue q h s).queue q.other = s.queue q.other := by
  cases q <;> exact ⟨rfl, rfl⟩

theorem completionEnd_completeJob (h : s.issue.inflight[i]? = some e) :
    CompletionEnd e s (completeJob i s) := by
  cases hh : haltsAtCompletion e with
  | true =>
    refine .halted hh ?_ ⟨heldOf .halted e.queue ⟨e.job, jobConds e, false⟩ none, ?_⟩
    · rw [completeJob_of_halts h hh, (haltQueue_queue _ _ _).1, settleHeld_queue, retired_queue.1]
      rfl
    · rw [completeJob_of_halts h hh, haltQueue, setQueue_cq, settleHeld_cq, retired_cq, heldOf_eq]
  | false =>
    rw [completeJob_of_writes h hh]
    have hq := (written_queue (i := i) (e := e) (s := s)).1
    have hcq : SlotEnded s.cq (written i e s).cq := by
      rw [written_cq]
      exact endReservation_cq _ _ _ _ _
    obtain ⟨heq, hlast⟩ | ⟨hz, hst, heq⟩ | ⟨g, hz, hst, heq⟩ := settleQueue_cases e.queue (written i e s)
    · rw [heq]
      exact .running (by simpa [hq] using hlast) ⟨_, hq⟩ hcq
    · rw [heq]
      exact .paused (by simpa [hq] using hz) (by simpa [hq] using hst)
        ⟨_, by rw [setQueue_queue, hq]; rfl⟩ (by simpa using hcq)
    · rw [heq]
      exact .drained g (by simpa [hq] using hz) (by simpa [hq] using hst)
        ⟨_, by rw [(haltQueue_queue _ _ _).1, hq]; rfl⟩
        ⟨_, heldOf .halted e.queue g none, hcq, by rw [haltQueue, setQueue_cq, heldOf_eq]⟩

theorem completeJob_queue_other (h : s.issue.inflight[i]? = some e) :
    (completeJob i s).queue e.queue.other = s.queue e.queue.other := by
  cases hh : haltsAtCompletion e with
  | true => rw [completeJob_of_halts h hh, (haltQueue_queue _ _ _).2, settleHeld_queue, retired_queue.2]
  | false => rw [completeJob_of_writes h hh, (settleQueue_frame _ _).1, written_queue.2]

end

end Sys2Proof.Machine

/-! The proofs for the moves of a queue over all commands (04_job_queues.md, R70, R73). -/

namespace Sys2Proof.Machine

/-! ## The moves -/

/-- A queue that keeps NEXT_SEQ and makes at most a move of R73's table. -/
def QueueMove (Q Q' : Queue) : Prop :=
  (Q'.state = Q.state ∨ (stateName Q, stateName Q') ∈ allowedMoves) ∧ Q'.nextSeq = Q.nextSeq

theorem QueueMove.of_eq {Q Q' : Queue} (h : Q' = Q) : QueueMove Q Q' := h ▸ ⟨.inl rfl, rfl⟩

theorem QueueMove.of_move {Q Q' : Queue} (h : (stateName Q, stateName Q') ∈ allowedMoves)
    (hseq : Q'.nextSeq = Q.nextSeq) : QueueMove Q Q' := ⟨.inr h, hseq⟩

/-- Both queues of `t` come from those of `s` by such a move. -/
def QueuesMove (s t : State) : Prop := ∀ q, QueueMove (s.queue q) (t.queue q)

section

variable {s t : State} {q : QueueId} {Q : Queue}

theorem QueuesMove.of_eq (h : t.queue = s.queue) : QueuesMove s t := fun q => .of_eq (by rw [h])

theorem QueuesMove.reportStall {r : State} (h : QueuesMove s t) : QueuesMove s (reportStall r t) :=
  fun q => by rw [reportStall_queue]; exact h q

/-- One queue moves and the other stands. -/
theorem QueuesMove.of_queue (h : QueueMove (s.queue q) (t.queue q))
    (ho : t.queue q.other = s.queue q.other) : QueuesMove s t := by
  intro q'
  obtain rfl | rfl := eq_or_eq_other q q'
  · exact h
  · exact .of_eq ho

theorem QueuesMove.setQueue (ho : t.queue q.other = s.queue q.other) (h : QueueMove (s.queue q) Q) :
    QueuesMove s (t.setQueue q Q) :=
  .of_queue (by rwa [setQueue_queue]) (by rw [setQueue_queue_other, ho])

theorem QueuesMove.setResult {r : CmdResult} (h : QueuesMove s t) : QueuesMove s (setResult r t) :=
  fun q => by rw [setResult_queue]; exact h q

theorem QueuesMove.hostAccess {f : State → State} (h : QueuesMove s (f s)) :
    QueuesMove s (hostAccess f s) :=
  ite_ind (p := fun t => QueuesMove s t) (fun _ => h) fun _ => .of_eq rfl

/-! ## Commands on a queue -/

/-- Everything a RESUME can do to the queues and the completion queue: refuse, activate a PAUSED queue, or
recover a HALTED one, with a record posted unless it retries (R75, R122, R124, R126). -/
theorem resumeCommand_cases (q : QueueId) (s : State) :
    (∃ r, resumeCommand q s = setResult r s) ∨
    (resumeCommand q s).queue q.other = s.queue q.other ∧
    ((s.queue q).state = .paused ∧ (resumeCommand q s).cq = s.cq ∧
        (resumeCommand q s).queue q = { s.queue q with state := .active } ∨
     ∃ h, (s.queue q).state = .halted h ∧
      ((resumeCommand q s).cq = s.cq ∧
        (resumeCommand q s).queue q = { s.queue q with retry := some h.job, state := .active } ∨
       slotFree s.cq = true ∧ (∃ r, (resumeCommand q s).cq = postRecord r s.cq) ∧
        (resumeCommand q s).queue q = { s.queue q with state := .active })) := by
  cases hst : (s.queue q).state with
  | active | pausing | draining =>
    left
    simp only [resumeCommand, hst]
    split <;> exact ⟨_, rfl⟩
  | paused =>
    simp only [resumeCommand, hst]
    split
    · exact .inl ⟨_, rfl⟩
    split
    · exact .inr ⟨by simp [setQState], .inl ⟨trivial, by simp [setQState], by simp [setQState]⟩⟩
    · exact .inl ⟨_, rfl⟩
  | halted h =>
    rw [resumeCommand_of_halted hst]
    split
    · exact .inr ⟨by simp [retryHeld], .inr ⟨h, rfl, .inl ⟨by simp [retryHeld], retryHeld_queue⟩⟩⟩
    split
    · cases hf : slotFree s.cq with
      | false => exact .inl ⟨_, skipHeld_of_no_slot hf⟩
      | true =>
        rw [skipHeld_of_slotFree hf]
        exact .inr ⟨by cases q <;> rfl, .inr ⟨h, rfl, .inr ⟨rfl, ⟨_, setQueue_cq _ _ _⟩, by simp⟩⟩⟩
    split
    · cases hsub : substitutable h with
      | false => exact .inl ⟨_, substituteHeld_of_not_substitutable hsub⟩
      | true =>
        cases hf : slotFree s.cq with
        | false => exact .inl ⟨_, substituteHeld_of_busy hsub (.inl hf)⟩
        | true =>
          cases hm : isMarked s.issue.marks (heldDest (s.queue q) h) with
          | true => exact .inl ⟨_, substituteHeld_of_busy hsub (.inr hm)⟩
          | false =>
            rw [substituteHeld_of_free hsub hf hm]
            exact .inr ⟨by cases q <;> rfl, .inr ⟨h, rfl, .inr ⟨rfl, ⟨_, setQueue_cq _ _ _⟩, by simp⟩⟩⟩
    · exact .inl ⟨_, rfl⟩

theorem queuesMove_resumeCommand : QueuesMove s (resumeCommand q s) := by
  obtain ⟨r, h⟩ | ⟨ho, ⟨hst, -, hq⟩ | ⟨h, hst, ⟨-, hq⟩ | ⟨-, -, hq⟩⟩⟩ := resumeCommand_cases q s
  · rw [h]
    exact .of_eq rfl
  all_goals exact .of_queue (hq ▸ .of_move (by simp [stateName, hst, allowedMoves]) rfl) ho

theorem queuesMove_pauseCommand : QueuesMove s (pauseCommand q s) := by
  unfold pauseCommand
  split
  next hst =>
    split
    · exact .setResult (.setQueue (by simp) (.of_move (by simp [stateName, hst, allowedMoves]) (by simp)))
    · exact .setResult (.setQueue rfl (.of_move (by simp [stateName, hst, allowedMoves]) rfl))
  all_goals exact .of_eq rfl

theorem queuesMove_flushCommand : QueuesMove s (flushCommand q s) := by
  unfold flushCommand
  split
  next hst => exact .setResult (.setQueue rfl ⟨.inl hst.symm, rfl⟩)
  next h hst => exact .setResult (.setQueue rfl (.of_move (by simp [stateName, hst, allowedMoves]) rfl))
  all_goals exact .of_eq rfl

theorem queuesMove_clearStickyCommand : QueuesMove s (clearStickyCommand q s) :=
  .setResult (.setQueue rfl ⟨.inl rfl, rfl⟩)

theorem queuesMove_takeCommand {code : BitVec 4}
    (hcode : code ∈ [0x1#4, 0x2#4, 0x3#4, 0x4#4, 0x8#4, 0x9#4] ∨ knownCodes.contains code = false) :
    QueuesMove s (takeCommand code q s) := by
  unfold takeCommand
  split
  · exact .of_eq rfl
  next hk =>
    split
    · exact .of_eq rfl
    · have hcode := hcode.resolve_right (by simpa using hk)
      simp only [List.mem_cons, List.not_mem_nil, or_false] at hcode
      obtain rfl | rfl | rfl | rfl | rfl | rfl := hcode
      · exact queuesMove_resumeCommand.reportStall
      · exact queuesMove_pauseCommand.reportStall
      · exact queuesMove_flushCommand
      · exact queuesMove_clearStickyCommand
      all_goals exact .of_eq (by rw [show ownerCommand _ q s = cellCommand _ s from rfl, cellCommand_frame]; rfl)

/-! ## Issue and completion -/

theorem queuesMove_issueJob {j : Job} (ha : (s.queue q).state = .active) :
    QueuesMove s (issueJob q j s) := by
  obtain ⟨c, -, h⟩ | ⟨c, -, h⟩ | ⟨cl, -, -, e, -, h⟩ | ⟨fa, fb, c, b, -, h⟩ := issueJob_cases q j s
  · rw [h]
    exact .setQueue (queue_with_cq _)
      (.of_move (by simp [stateName, ha, haltedWith, allowedMoves]) (by simp [haltedWith]))
  · rw [h]
    exact .setQueue (queue_with_cq _) (.of_move (by simp [stateName, ha, allowedMoves]) (by simp))
  · rw [h]
    exact .setQueue (by cases q <;> rfl) ⟨.inl (by simp), by simp⟩
  · rw [h]
    exact .setQueue (by cases q <;> rfl) ⟨.inl (by simp), by simp⟩

theorem queuesMove_examineHead : QueuesMove s (examineHead q s) := by
  obtain h | ⟨w, j, n, hissue, hj, -, h⟩ := examineHead_cases q s
  · exact .of_eq (by rw [h])
  · rw [h]
    intro q'
    have hactive := (issuable_parts hissue hj).1
    simpa using queuesMove_issueJob (s := { s with issue := { s.issue with starvation := n } }) (j := j)
      (by simpa using hactive) q'

theorem queuesMove_completeJob (hs : QueuesSound s) (i : Nat) : QueuesMove s (completeJob i s) := by
  cases h : s.issue.inflight[i]? with
  | none => exact .of_eq (by rw [completeJob_of_none h])
  | some e =>
    refine .of_queue ?_ (completeJob_queue_other h)
    cases completionEnd_completeJob h with
    | halted hh hq =>
      rw [haltsAtCompletion, Bool.and_eq_true] at hh
      obtain ⟨-, -, -, -, hguarded, -⟩ := hs
      rw [hq]
      obtain hst | hst := (hguarded e (List.mem_of_getElem? h) hh.1).2 <;>
        exact .of_move (by simp [stateName, hst, haltedWith, allowedMoves]) rfl
    | running _ hq =>
      obtain ⟨f, hq⟩ := hq
      exact hq ▸ ⟨.inl rfl, rfl⟩
    | paused _ hst hq =>
      obtain ⟨f, hq⟩ := hq
      exact hq ▸ .of_move (by simp [stateName, hst, allowedMoves]) rfl
    | drained g _ hst hq =>
      obtain ⟨f, hq⟩ := hq
      exact hq ▸ .of_move (by simp [stateName, hst, haltedWith, allowedMoves]) rfl

/-! ## Every command -/

theorem commitJob_queue (q : QueueId) (s : State) :
    (commitJob q s).queue q.other = s.queue q.other ∧ ((commitJob q s).queue q).state = (s.queue q).state ∧
    (((commitJob q s).queue q).nextSeq = (s.queue q).nextSeq ∨
      ((commitJob q s).queue q).nextSeq = (s.queue q).nextSeq + 1#8) := by
  obtain ⟨-, h⟩ | ⟨-, -, h⟩ | ⟨-, -, h⟩ := commitJob_cases s q <;> simp [h]

theorem queuesMove_writeHaltMask (b : Byte) : QueuesMove s (writeHaltMask q b s) := by
  unfold writeHaltMask
  exact QueuesMove.reportStall (.setQueue rfl ⟨.inl rfl, rfl⟩)

theorem queue_writeCqPop (s : State) : (writeCqPop s).queue = s.queue := by
  funext q
  obtain ⟨-, h⟩ | ⟨-, h⟩ := writeCqPop_cases s <;> rw [h] <;> simp

theorem queue_writePlain (a : WindowAddr) (b : Byte) (s : State) :
    (writePlain a b s).queue = s.queue := by
  rw [(plainChange_writePlain a b s).2]
  exact queue_eq_of rfl rfl

/-- A REGISTER_WRITE of a well-formed address has no row of its own. -/
theorem writeWindow_of_wellFormed {a : WindowAddr} {b : Byte}
    (hw : (Instr.registerWrite a b).wellFormed = true) : writeWindow a b s = writePlain a b s := by
  have hne : ∀ x ∈ ownRowAddrs, a.toNat ≠ x.toNat := by
    intro x hx h
    rw [BitVec.toNat_inj] at h
    simp [Instr.wellFormed, h, hx] at hw
  simp only [ownRowAddrs, List.forall_mem_cons, BitVec.toNat_ofNat, Nat.reducePow, Nat.reduceMod] at hne
  simp [writeWindow, hne]

theorem queue_cellAccess (k : AccessKind) (s : State) : (cellAccess k s).queue = s.queue := by
  rw [cellAccess_frame]
  exact queue_eq_of rfl rfl

theorem queue_passTick (s : State) : (passTick s).queue = s.queue := by
  obtain ⟨-, -, -, -, h0, h1, -⟩ := passTick_frame s
  exact queue_eq_of h0 h1

/-- Every command but the resets and a commit moves the queues by R73's table and keeps NEXT_SEQ. -/
theorem queuesMove_exec {c : Instr} (hs : QueuesSound s) (hw : c.wellFormed = true) (hp : c ≠ .powerOn)
    (ha : c ≠ .resetAssert) (hr : c ≠ .softReset) (hc : ∀ q b, c ≠ .commit q b)
    (hexec : exec c s = .next t) : QueuesMove s t := by
  cases c <;> cases hexec
  case powerOn => exact absurd rfl hp
  case resetAssert => exact absurd rfl ha
  case softReset => exact absurd rfl hr
  case commit q b => exact absurd rfl (hc q b)
  case resetRelease src =>
    have hleave (e : Engine) : QueuesMove s (leaveReset { s with engine := e }) := by
      obtain ⟨-, h0, h1, -⟩ := leaveReset_frame { s with engine := e }
      exact .of_eq (queue_eq_of h0 h1)
    cases src <;> exact ite_ind (p := QueuesMove s) (fun _ => hleave _) fun _ => .of_eq rfl
  case scrubEnd => exact ite_ind (p := QueuesMove s) (fun _ => .of_eq rfl) fun _ => .of_eq rfl
  case tickBoundary => exact .of_eq (queue_passTick s)
  case waitTimeout | coalescingTimerExpiry =>
    exact ite_ind (p := QueuesMove s) (fun _ => .of_eq (queue_passTick s)) fun _ => .of_eq rfl
  case cellDataRead | cellWrite => exact .hostAccess (.of_eq (queue_cellAccess _ s))
  case cellReadComplete =>
    refine .hostAccess (.of_eq ?_)
    unfold completeRead
    split <;> rfl
  case cellAddrWrite | arbCtrlWrite | cqHeadRead | cqThresholdWrite | eventCodeRead | evtAck |
      faultClear =>
    exact .hostAccess (.of_eq rfl)
  case haltMaskWrite => exact .hostAccess (queuesMove_writeHaltMask _)
  case cqPop => exact .hostAccess (.of_eq (queue_writeCqPop s))
  case registerWrite a b =>
    refine .hostAccess (.of_eq ?_)
    rw [writeWindow_of_wellFormed hw, queue_writePlain]
  case unknownCommand b =>
    exact .hostAccess (queuesMove_takeCommand (.inr (by simpa [Instr.wellFormed] using hw)))
  case issue => exact queuesMove_examineHead.reportStall
  case jobCompletion n => exact (queuesMove_completeJob hs n.val).reportStall
  all_goals exact .hostAccess (queuesMove_takeCommand (.inl (by decide)))

end

/-- Settles O54: the commands on a queue, an issue and a completion make the moves of the table from the
state they start in, and a commit alone writes NEXT_SEQ. A completion needs the law of guarded issue: a
job that halts finds its queue ACTIVE or PAUSING. -/
theorem queuesMoveAsTheTableLists : Obligations.QueuesMoveAsTheTableLists := by
  intro c s t q hs hw hp ha hr hexec
  by_cases hc : ∃ q' b, c = .commit q' b
  · obtain ⟨q', b, rfl⟩ := hc
    obtain rfl : hostAccess (commitJob q') s = t := by cases hexec; rfl
    unfold hostAccess
    split
    · obtain ⟨ho, hst, hseq⟩ := commitJob_queue q' s
      obtain rfl | rfl := eq_or_eq_other q' q
      · exact ⟨.inl hst, hseq.imp_right fun h => ⟨⟨b, rfl⟩, h⟩⟩
      · rw [ho]
        exact ⟨.inl rfl, .inl rfl⟩
    · exact ⟨.inl rfl, .inl rfl⟩
  · have hmove := queuesMove_exec hs hw hp ha hr (fun q b h => hc ⟨q, b, h⟩) hexec q
    exact ⟨hmove.1, .inl hmove.2⟩

end Sys2Proof.Machine

/-! The proofs for the laws of the queues, of guarded issue and of the reservations (04_job_queues.md, R72, R73,
R79; 05_issue_and_execution.md, R93; 07_the_completion_queue.md, R131, R132). -/

namespace Sys2Proof.Machine

/-! ## The laws for either queue -/

/-- The slot that the held job of a DRAINING queue keeps reserved (R132). -/
def drainSlots (Q : Queue) : Nat := if isDraining Q then 1 else 0

/-- What a guarded job in flight asks of its queue (R93). -/
def GuardedPlace (Q : Queue) : Prop := Q.inflight = 1 ∧ (Q.state = .active ∨ Q.state = .pausing)

theorem forall_queueId {p : QueueId → Prop} : (∀ q, p q) ↔ p .q0 ∧ p .q1 :=
  ⟨fun h => ⟨h _, h _⟩, fun ⟨h0, h1⟩ q => by cases q; exacts [h0, h1]⟩

theorem queuesSound_iff {s : State} (q : QueueId) : QueuesSound s ↔
    (∀ w, QueueSound (s.queue w)) ∧ (∀ w, (s.queue w).inflight = flightCount s.issue w) ∧
    (∀ e ∈ s.issue.inflight, e.guarded = true → GuardedPlace (s.queue e.queue)) ∧
    s.cq.reserved = s.issue.inflight.length + drainSlots (s.queue q) + drainSlots (s.queue q.other) ∧
    slotsUsed s.cq ≤ 32 := by
  simp only [QueuesSound, forall_queueId, queue_q0, queue_q1, GuardedPlace, drainSlots, and_assoc]
  cases q
  · rfl
  · rw [Nat.add_right_comm]
    rfl

section

variable {s t : State} {q : QueueId} {Q : Queue}

theorem QueuesSound.reserved_eq (hs : QueuesSound s) (q : QueueId) : s.cq.reserved =
    s.issue.inflight.length + drainSlots (s.queue q) + drainSlots (s.queue q.other) := by
  obtain ⟨-, -, -, h, -⟩ := (queuesSound_iff q).1 hs
  exact h

theorem QueuesSound.queueSound (hs : QueuesSound s) (q : QueueId) : QueueSound (s.queue q) :=
  ((queuesSound_iff q).1 hs).1 q

theorem QueuesSound.inflight_eq (hs : QueuesSound s) (q : QueueId) :
    (s.queue q).inflight = flightCount s.issue q := by
  obtain ⟨-, h, -⟩ := (queuesSound_iff q).1 hs
  exact h q

theorem QueuesSound.guardedPlace (hs : QueuesSound s) {e : InFlight} (he : e ∈ s.issue.inflight)
    (hg : e.guarded = true) : GuardedPlace (s.queue e.queue) := by
  obtain ⟨-, -, h, -⟩ := (queuesSound_iff e.queue).1 hs
  exact h e he hg

theorem QueuesSound.slotsUsed_le (hs : QueuesSound s) : slotsUsed s.cq ≤ 32 := by
  obtain ⟨-, -, -, -, h⟩ := (queuesSound_iff .q0).1 hs
  exact h

/-- A happening that leaves the queues, the jobs in flight and the slots. -/
theorem QueuesSound.of_frame (hs : QueuesSound s) (hq : t.queue = s.queue)
    (hi : t.issue.inflight = s.issue.inflight) (hring : t.cq.ring.length ≤ s.cq.ring.length)
    (hres : t.cq.reserved = s.cq.reserved) : QueuesSound t := by
  obtain ⟨hQ, hf, hg, hr, hsl⟩ := (queuesSound_iff .q0).1 hs
  refine (queuesSound_iff .q0).2 ⟨hq ▸ hQ, ?_, ?_, ?_, ?_⟩
  · simpa only [hq, flightCount, hi] using hf
  · simpa only [hq, hi] using hg
  · simpa only [hq, hi, hres] using hr
  · simp only [slotsUsed] at hsl ⊢
    omega

/-- Everything that one queue's change, with the jobs in flight and the slots that go with it, has to keep. -/
theorem QueuesSound.update (hs : QueuesSound s) (ho : t.queue q.other = s.queue q.other)
    (hQ : QueueSound (t.queue q)) (hf : (t.queue q).inflight = flightCount t.issue q)
    (hfo : flightCount t.issue q.other = flightCount s.issue q.other)
    (hg : ∀ e ∈ t.issue.inflight, e.guarded = true →
      (e.queue = q → GuardedPlace (t.queue q)) ∧ (e.queue = q.other → e ∈ s.issue.inflight))
    (hres : t.cq.reserved + s.issue.inflight.length + drainSlots (s.queue q) =
      s.cq.reserved + t.issue.inflight.length + drainSlots (t.queue q))
    (hslots : slotsUsed t.cq ≤ 32) : QueuesSound t := by
  have hr := hs.reserved_eq q
  refine (queuesSound_iff q).2 ⟨fun w => ?_, fun w => ?_, fun e he hge => ?_, ?_, hslots⟩
  · obtain rfl | rfl := eq_or_eq_other q w
    · exact hQ
    · exact ho ▸ hs.queueSound _
  · obtain rfl | rfl := eq_or_eq_other q w
    · exact hf
    · rw [ho, hfo]
      exact hs.inflight_eq _
  · obtain ⟨hsame, hother⟩ := hg e he hge
    obtain heq | heq := eq_or_eq_other q e.queue
    · exact heq ▸ hsame heq
    · have hplace := hs.guardedPlace (hother heq) hge
      rw [heq] at hplace ⊢
      exact ho ▸ hplace
  · rw [ho]
    omega

/-- A change of one queue that leaves the jobs in flight. -/
theorem QueuesSound.of_queue (hs : QueuesSound s) (ho : t.queue q.other = s.queue q.other)
    (hi : t.issue.inflight = s.issue.inflight) (hQ : QueueSound (t.queue q))
    (hf : (t.queue q).inflight = (s.queue q).inflight)
    (hg : ∀ e ∈ s.issue.inflight, e.queue = q → e.guarded = true → GuardedPlace (s.queue q) →
      GuardedPlace (t.queue q))
    (hres : t.cq.reserved + drainSlots (s.queue q) = s.cq.reserved + drainSlots (t.queue q))
    (hslots : slotsUsed t.cq ≤ 32) : QueuesSound t := by
  refine hs.update ho hQ ?_ (by rw [flightCount, hi, flightCount]) ?_ (by rw [hi]; omega) hslots
  · rw [hf, flightCount, hi]
    exact hs.inflight_eq q
  · rw [hi]
    exact fun e he hge => ⟨fun heq => hg e he heq hge (heq ▸ hs.guardedPlace he hge), fun _ => he⟩

theorem QueuesSound.reportStall {r : State} (hs : QueuesSound t) : QueuesSound (reportStall r t) :=
  hs.of_frame (queue_eq_of (reportStall_q0 _ _) (reportStall_q1 _ _)) (by simp) (by simp) (by simp)

theorem QueuesSound.setResult (hs : QueuesSound t) (r : CmdResult) : QueuesSound (setResult r t) :=
  hs.of_frame rfl rfl le_rfl rfl

theorem QueuesSound.passTick (hs : QueuesSound s) : QueuesSound (passTick s) := by
  obtain ⟨-, -, hi, -, -, -, hring, hres, -⟩ := passTick_frame s
  exact hs.of_frame (queue_passTick s) (by rw [hi]) (by rw [hring]) hres

/-! ## The law of one queue -/

theorem queueSound_iff : QueueSound Q ↔
    (Q.state = .paused ∨ (∃ h, Q.state = .halted h) → Q.inflight = 0) ∧
    (Q.state = .pausing ∨ (∃ h, Q.state = .draining h) → 0 < Q.inflight) ∧
    (Q.retry.isSome → (Q.state = .active ∨ Q.state = .paused) ∧ Q.inflight = 0) ∧
    Q.ring.length ≤ 16 ∧ Q.flushCount ≤ 17 := by
  unfold QueueSound
  cases hst : Q.state <;> simp

theorem QueueSound.idle (h : QueueSound Q) (hst : Q.state = .paused ∨ ∃ h, Q.state = .halted h) :
    Q.inflight = 0 :=
  (queueSound_iff.1 h).1 hst

theorem QueueSound.ring_le (h : QueueSound Q) : Q.ring.length ≤ 16 := by
  obtain ⟨-, -, -, hring, -⟩ := queueSound_iff.1 h
  exact hring

/-- An ACTIVE queue asks of its retry position alone that nothing is in flight with it (R79). -/
theorem queueSound_of_active (ha : Q.state = .active) (hretry : Q.retry.isSome → Q.inflight = 0)
    (hring : Q.ring.length ≤ 16) (hflush : Q.flushCount ≤ 17) : QueueSound Q :=
  queueSound_iff.2 ⟨by simp [ha], by simp [ha], fun h => ⟨.inl ha, hretry h⟩, hring, hflush⟩

theorem queueSound_dropHead (h : QueueSound Q) : (dropHead Q).ring.length ≤ 16 := by
  have hring := h.ring_le
  unfold dropHead
  split
  · exact hring
  · simp only [List.length_tail]
    omega

theorem drainSlots_of_not_draining (h : ∀ h, Q.state ≠ .draining h) : drainSlots Q = 0 := by
  cases hst : Q.state with
  | draining g => exact absurd hst (h g)
  | paused | active | pausing | halted => simp [drainSlots, isDraining, hst]

theorem drainSlots_of_draining {h : HeldJob} (hst : Q.state = .draining h) : drainSlots Q = 1 := by
  simp [drainSlots, isDraining, hst]

theorem slotsUsed_postRecord (r : Record) (c : CompletionQueue) :
    slotsUsed (postRecord r c) = slotsUsed c + 1 := by
  simp [slotsUsed, postRecord]
  omega

theorem slotFree_iff_slotsUsed (c : CompletionQueue) : slotFree c = true ↔ slotsUsed c < 32 :=
  decide_eq_true_iff

/-! ## Commands -/

/-- A queue that stood still, PAUSED or HALTED, becomes ACTIVE, with a record posted or without. -/
theorem QueuesSound.activate (hs : QueuesSound s)
    (hst : (s.queue q).state = .paused ∨ ∃ h, (s.queue q).state = .halted h)
    (ho : t.queue q.other = s.queue q.other) (hi : t.issue.inflight = s.issue.inflight) {r : Option Job}
    (hq : t.queue q = { s.queue q with retry := r, state := .active })
    (hcq : t.cq = s.cq ∨ slotFree s.cq = true ∧ ∃ r, t.cq = postRecord r s.cq) : QueuesSound t := by
  have hidle : (s.queue q).inflight = 0 := (hs.queueSound q).idle hst
  obtain ⟨-, -, -, hring, hflush⟩ := queueSound_iff.1 (hs.queueSound q)
  have hold : drainSlots (s.queue q) = 0 :=
    drainSlots_of_not_draining fun g hg => by rw [hg] at hst; simp at hst
  have hres : t.cq.reserved = s.cq.reserved := by obtain h | ⟨-, r, h⟩ := hcq <;> rw [h]; rfl
  refine hs.of_queue ho hi ?_ (by rw [hq]) (fun e _ _ _ hplace => ?_) ?_ ?_
  · rw [hq]
    exact queueSound_of_active rfl (fun _ => hidle) hring hflush
  · rw [GuardedPlace, hidle] at hplace
    exact absurd hplace.1 (by decide)
  · rw [hold, hres, hq]
    rfl
  · obtain h | ⟨hfree, r, h⟩ := hcq
    · exact h ▸ hs.slotsUsed_le
    · rw [h, slotsUsed_postRecord]
      exact (slotFree_iff_slotsUsed _).1 hfree

theorem QueuesSound.resumeCommand (hs : QueuesSound s) (q : QueueId) :
    QueuesSound (resumeCommand q s) := by
  have hi : (Machine.resumeCommand q s).issue.inflight = s.issue.inflight := by
    rw [(resumeCommand_frame s q).2.1]
  obtain ⟨r, h⟩ | ⟨ho, ⟨hst, hcq, hq⟩ | ⟨g, hst, ⟨hcq, hq⟩ | ⟨hfree, hcq, hq⟩⟩⟩ :=
    resumeCommand_cases q s
  · rw [h]
    exact hs.setResult r
  · exact hs.activate (.inl hst) ho hi hq (.inl hcq)
  · exact hs.activate (.inr ⟨g, hst⟩) ho hi hq (.inl hcq)
  · exact hs.activate (.inr ⟨g, hst⟩) ho hi hq (.inr ⟨hfree, hcq⟩)

/-- A PAUSE stops an ACTIVE queue at once, or when its last job completes (R74). -/
theorem QueuesSound.pauseCommand (hs : QueuesSound s) (q : QueueId) :
    QueuesSound (pauseCommand q s) := by
  obtain ⟨-, -, hretry, hring, hflush⟩ := queueSound_iff.1 (hs.queueSound q)
  cases hst : (s.queue q).state with
  | paused => exact pauseCommand_of_stopping (.inl hst) ▸ hs.setResult _
  | pausing => exact pauseCommand_of_stopping (.inr (.inl hst)) ▸ hs.setResult _
  | draining h => exact pauseCommand_of_stopping (.inr (.inr ⟨h, hst⟩)) ▸ hs.setResult _
  | halted h => exact pauseCommand_of_halted hst ▸ hs.setResult _
  | active =>
    have hold : drainSlots (s.queue q) = 0 := drainSlots_of_not_draining (by simp [hst])
    rcases Nat.eq_zero_or_pos (s.queue q).inflight with hz | hpos
    · rw [pauseCommand_of_idle hst hz]
      refine QueuesSound.setResult (hs.of_queue (q := q) (by simp) (by simp) ?_ (by simp)
        (fun e _ _ _ hplace => ?_) ?_ (by simpa using hs.slotsUsed_le)) _
      · exact setQueue_queue _ _ _ ▸ queueSound_iff.2
          ⟨fun _ => hz, by simp, fun h => ⟨.inr rfl, hz⟩, hring, hflush⟩
      · rw [GuardedPlace, hz] at hplace
        exact absurd hplace.1 (by decide)
      · rw [hold, setQueue_queue, setQueue_cq]
        rfl
    · rw [pauseCommand_of_busy hst hpos]
      refine QueuesSound.setResult (hs.of_queue (q := q) (by simp) (by simp) ?_ (by simp)
        (fun e _ _ _ hplace => ?_) ?_ (by simpa using hs.slotsUsed_le)) _
      · exact setQueue_queue _ _ _ ▸ queueSound_iff.2
          ⟨by simp, fun _ => hpos, fun h => absurd (hretry h).2 hpos.ne', hring, hflush⟩
      · rw [setQueue_queue]
        exact ⟨hplace.1, .inr rfl⟩
      · rw [hold, setQueue_queue, setQueue_cq]
        rfl

/-- The jobs that a FLUSH counts: sixteen in the ring, and one in the retry position or the held-job slot,
which never hold a job both (R76, R79). -/
theorem flushable_le (hQ : QueueSound Q) : flushable Q ≤ 17 := by
  obtain ⟨-, -, hretry, hring, -⟩ := queueSound_iff.1 hQ
  have hone : (if Q.retry.isSome then 1 else 0) + (if (heldJob Q).isSome then 1 else 0) ≤ 1 := by
    cases hr : Q.retry with
    | none => simp; split <;> simp
    | some j => obtain ⟨hst | hst, -⟩ := hretry (by simp [hr]) <;> simp [heldJob, hst]
  unfold flushable
  omega

theorem QueuesSound.flushCommand (hs : QueuesSound s) (q : QueueId) :
    QueuesSound (flushCommand q s) := by
  have hflushed (hst : (s.queue q).state = .paused ∨ ∃ h, (s.queue q).state = .halted h) :
      QueuesSound (s.setQueue q { s.queue q with
        ring := [], retry := none, state := .paused, flushCount := flushable (s.queue q) }) := by
    have hidle := (hs.queueSound q).idle hst
    have hold : drainSlots (s.queue q) = 0 :=
      drainSlots_of_not_draining fun g hg => by rw [hg] at hst; simp at hst
    refine hs.of_queue (q := q) (by simp) (by simp) ?_ (by simp) (fun e _ _ _ hplace => ?_) ?_
      (by simpa using hs.slotsUsed_le)
    · rw [setQueue_queue]
      exact queueSound_iff.2 ⟨fun _ => hidle, by simp, by simp, by simp, flushable_le (hs.queueSound q)⟩
    · rw [GuardedPlace, hidle] at hplace
      exact absurd hplace.1 (by decide)
    · rw [hold, setQueue_queue, setQueue_cq]
      rfl
  unfold Machine.flushCommand
  split
  next hst => exact (hflushed (.inl hst)).setResult _
  next h hst => exact (hflushed (.inr ⟨h, hst⟩)).setResult _
  all_goals exact hs.setResult _

/-- A change of a queue's masks, flags and sequence number, and of a ring that stays within 16. -/
theorem QueuesSound.of_ring (hs : QueuesSound s) {r : List Job} {n : Byte} {m f : BitVec 5}
    (hr : r.length ≤ 16) : QueuesSound (s.setQueue q
      { s.queue q with ring := r, nextSeq := n, haltMask := m, sticky := f }) := by
  obtain ⟨hidle, hbusy, hretry, -, hflush⟩ := queueSound_iff.1 (hs.queueSound q)
  refine hs.of_queue (q := q) (by simp) (by simp) ?_ (by simp) (fun e _ _ _ hplace => ?_)
    (by rw [setQueue_cq, setQueue_queue]; rfl) (by simpa using hs.slotsUsed_le)
  · rw [setQueue_queue]
    exact queueSound_iff.2 ⟨hidle, hbusy, hretry, hr, hflush⟩
  · rw [setQueue_queue]
    exact hplace

theorem QueuesSound.commitJob (hs : QueuesSound s) (q : QueueId) : QueuesSound (commitJob q s) := by
  obtain ⟨-, h⟩ | ⟨-, -, h⟩ | ⟨-, hroom, h⟩ := commitJob_cases s q <;> rw [h]
  · exact hs.of_frame rfl rfl le_rfl rfl
  · exact hs.of_frame rfl rfl le_rfl rfl
  · exact (hs.of_ring (by simpa using hroom)).reportStall

/-! ## Issue -/

theorem issuable_with_starvation (n : Nat) (q : QueueId) :
    issuable { s with issue := { s.issue with starvation := n } } q = issuable s q := by
  cases q <;> rfl

/-- What holds of the state, and after every issue that the arbiter and R88 allow, holds after an examination
of a head. -/
theorem examineHead_ind {p : State → Prop} (same : p s)
    (issue : ∀ w j n u, u = { s with issue := { s.issue with starvation := n } } →
      (n = s.issue.starvation ∨ n ≤ s.issue.guardK.toNat) → issuable u w = true →
      headJob (u.queue w) = some j → p (issueJob w j u)) : p (examineHead q s) := by
  obtain h | ⟨w, j, n, hissue, hj, hn, h⟩ := examineHead_cases q s
  · rw [h]
    exact same
  · rw [h]
    exact issue w j n _ rfl hn (by rwa [issuable_with_starvation]) (by rwa [queue_with_issue])

theorem flightCount_append {il il' : IssueLogic} {e : InFlight} (h : il'.inflight = il.inflight ++ [e])
    (q : QueueId) : flightCount il' q = flightCount il q + if e.queue = q then 1 else 0 := by
  simp [flightCount, h, List.countP_cons]

/-- The end of an issue that starts no job: an ACTIVE queue with no guarded job in flight has given up its
head. -/
theorem QueuesSound.headTaken (hs : QueuesSound s) (ha : (s.queue q).state = .active)
    (hno : ∀ e ∈ s.issue.inflight, e.queue = q → e.guarded = false)
    (ho : t.queue q.other = s.queue q.other) (hi : t.issue.inflight = s.issue.inflight)
    (hQ : QueueSound (t.queue q)) (hf : (t.queue q).inflight = (s.queue q).inflight)
    (hres : t.cq.reserved = s.cq.reserved + drainSlots (t.queue q)) (hslots : slotsUsed t.cq ≤ 32) :
    QueuesSound t := by
  have hold : drainSlots (s.queue q) = 0 := drainSlots_of_not_draining (by simp [ha])
  refine hs.of_queue ho hi hQ hf (fun e he hq hg _ => ?_) (by rw [hold, hres]; rfl) hslots
  rw [hno e he hq] at hg
  cases hg

/-- The start of a job: it is in flight alone if it is guarded (R88, R93). -/
theorem QueuesSound.jobStarted (hs : QueuesSound s) (ha : (s.queue q).state = .active)
    (hno : ∀ e ∈ s.issue.inflight, e.queue = q → e.guarded = false) {e : InFlight} (he : e.queue = q)
    (halone : e.guarded = true → (s.queue q).inflight = 0) (ho : t.queue q.other = s.queue q.other)
    (hi : t.issue.inflight = s.issue.inflight ++ [e]) (hQ : QueueSound (t.queue q))
    (hst : (t.queue q).state = .active) (hf : (t.queue q).inflight = (s.queue q).inflight + 1)
    (hcq : t.cq = takeSlot s.cq) (hfree : slotsUsed s.cq < 32) : QueuesSound t := by
  have hold : drainSlots (s.queue q) = 0 := drainSlots_of_not_draining (by simp [ha])
  have hnew : drainSlots (t.queue q) = 0 := drainSlots_of_not_draining (by simp [hst])
  have hother : e.queue ≠ q.other := he ▸ (other_ne q).symm
  refine hs.update ho hQ ?_ ?_ (fun e' he' hg => ?_) ?_ ?_
  · rw [hf, flightCount_append hi, if_pos he, hs.inflight_eq]
  · rw [flightCount_append hi, if_neg hother, Nat.add_zero]
  · rw [hi, List.mem_append, List.mem_singleton] at he'
    obtain he' | rfl := he'
    · refine ⟨fun hq => ?_, fun _ => he'⟩
      rw [hno e' he' hq] at hg
      cases hg
    · exact ⟨fun _ => ⟨by rw [hf, halone hg], .inl hst⟩, fun hq => absurd hq hother⟩
  · simp only [hold, hnew, hi, hcq, List.length_append, List.length_singleton, takeSlot]
    omega
  · rw [hcq]
    exact hfree

theorem QueuesSound.issueJob (hs : QueuesSound s) {j : Job} (hissue : issuable s q = true)
    (hj : headJob (s.queue q) = some j) : QueuesSound (issueJob q j s) := by
  obtain ⟨ha, hfree, halone, hno, -⟩ := issuable_parts hissue hj
  have hring : (dropHead (s.queue q)).ring.length ≤ 16 := queueSound_dropHead (hs.queueSound q)
  obtain ⟨-, -, -, -, hflush⟩ := queueSound_iff.1 (hs.queueSound q)
  rw [slotFree_iff_slotsUsed] at hfree
  obtain ⟨c, hz, h⟩ | ⟨c, hpos, h⟩ | ⟨cl, -, -, e, he, h⟩ | ⟨fa, fb, c, b, hc, h⟩ := issueJob_cases q j s <;>
    rw [h]
  · refine hs.headTaken ha hno (by simp) (by simp) ?_ (by simp [haltedWith])
      (by rw [setQueue_cq, setQueue_queue]; rfl) (by rw [setQueue_cq, slotsUsed_postRecord]; exact hfree)
    exact setQueue_queue _ _ _ ▸ queueSound_iff.2 ⟨fun _ => by simpa [haltedWith] using hz,
      by simp [haltedWith], by simp [haltedWith], hring, by simpa [haltedWith] using hflush⟩
  · refine hs.headTaken ha hno (by simp) (by simp) ?_ (by simp)
      (by rw [setQueue_cq, setQueue_queue]; rfl) (by rw [setQueue_cq]; exact hfree)
    exact setQueue_queue _ _ _ ▸ queueSound_iff.2
      ⟨by simp, fun _ => by simpa using hpos, by simp, hring, by simpa using hflush⟩
  · refine hs.jobStarted (e := e) ha hno (by rw [he]; rfl) (fun hg => halone (by rw [he] at hg; exact hg))
      (by cases q <;> rfl) (by simp) ?_ (by simpa using ha) (by simp) (by simp) hfree
    exact setQueue_queue _ _ _ ▸ queueSound_of_active (by simpa using ha) (by simp) hring
      (by simpa using hflush)
  · have hres : c.reserved = s.cq.reserved ∧ slotsUsed c ≤ 32 := by
      obtain rfl | ⟨r, rfl⟩ := hc
      · exact ⟨rfl, hs.slotsUsed_le⟩
      · exact ⟨rfl, by rw [slotsUsed_postRecord]; exact hfree⟩
    refine hs.headTaken ha hno (by cases q <;> rfl) (by simp) ?_ (by simp) ?_ (by simpa using hres.2)
    · exact setQueue_queue _ _ _ ▸ queueSound_of_active (by simpa using ha) (by simp) hring
        (by simpa using hflush)
    · rw [setQueue_queue, setQueue_cq, drainSlots_of_not_draining (by simp [ha]), hres.1]
      rfl

theorem QueuesSound.examineHead (hs : QueuesSound s) (q : QueueId) : QueuesSound (examineHead q s) := by
  refine examineHead_ind (p := QueuesSound) hs fun w j n u hu _ hissue hj => ?_
  have hsu : QueuesSound u := hu ▸ hs.of_frame (queue_eq_of rfl rfl) rfl le_rfl rfl
  exact hsu.issueJob hissue hj

/-! ## Completion -/

theorem perm_cons_eraseIdx {α : Type} {l : List α} {i : Nat} {e : α} (h : l[i]? = some e) :
    (e :: l.eraseIdx i).Perm l := by
  obtain ⟨hi, rfl⟩ := List.getElem?_eq_some_iff.1 h
  exact List.getElem_cons_eraseIdx_perm hi

theorem flightCount_eraseIdx {il il' : IssueLogic} {i : Nat} {e : InFlight}
    (h : il.inflight[i]? = some e) (hi : il'.inflight = il.inflight.eraseIdx i) (q : QueueId) :
    flightCount il q = flightCount il' q + if e.queue = q then 1 else 0 := by
  rw [flightCount, ← (perm_cons_eraseIdx h).countP_eq, List.countP_cons, flightCount, hi]
  simp

theorem slotEnded_slots {c c' : CompletionQueue} (h : SlotEnded c c') (hpos : 0 < c.reserved) :
    c'.reserved + 1 = c.reserved ∧ slotsUsed c' ≤ slotsUsed c := by
  obtain rfl | ⟨r, rfl⟩ := h <;>
    simp only [releaseSlot, fillSlot, postRecord, slotsUsed, List.length_append, List.length_singleton] <;>
    omega

/-- The end of a completion: a guarded job was the only one of its queue, so none of the queue is left. -/
theorem QueuesSound.jobRetired (hs : QueuesSound s) {i : Nat} {e : InFlight}
    (h : s.issue.inflight[i]? = some e) (hi : t.issue.inflight = s.issue.inflight.eraseIdx i)
    (ho : t.queue e.queue.other = s.queue e.queue.other) (hQ : QueueSound (t.queue e.queue))
    (hf : (t.queue e.queue).inflight = (s.queue e.queue).inflight - 1)
    (hres : t.cq.reserved + 1 + drainSlots (s.queue e.queue) = s.cq.reserved + drainSlots (t.queue e.queue))
    (hslots : slotsUsed t.cq ≤ 32) : QueuesSound t := by
  have hcount := flightCount_eraseIdx h hi e.queue
  have hlen : s.issue.inflight.length = t.issue.inflight.length + 1 := by
    rw [hi, ← (perm_cons_eraseIdx h).length_eq, List.length_cons]
  have hmem {e' : InFlight} (he' : e' ∈ t.issue.inflight) : e' ∈ s.issue.inflight :=
    (perm_cons_eraseIdx h).subset (List.mem_cons_of_mem _ (hi ▸ he'))
  have hin := hs.inflight_eq e.queue
  rw [if_pos rfl] at hcount
  refine hs.update ho hQ (by omega) ?_ (fun e' he' hg => ⟨fun hq => ?_, fun _ => hmem he'⟩) (by omega) hslots
  · rw [flightCount_eraseIdx h hi, if_neg (other_ne _).symm, Nat.add_zero]
  · have hone : (s.queue e.queue).inflight = 1 := hq ▸ (hs.guardedPlace (hmem he') hg).1
    have hleft : 0 < flightCount t.issue e.queue :=
      List.countP_pos_iff.2 ⟨e', he', by simp [hq]⟩
    omega

theorem QueuesSound.completeJob (hs : QueuesSound s) (i : Nat) : QueuesSound (completeJob i s) := by
  cases h : s.issue.inflight[i]? with
  | none => rwa [completeJob_of_none h]
  | some e =>
    have hi : (Machine.completeJob i s).issue.inflight = s.issue.inflight.eraseIdx i := by
      rw [(completeJob_cell_issue h).2, retired_issue]
    have ho := completeJob_queue_other h
    have hmem := List.mem_of_getElem? h
    obtain ⟨hidle, hbusy, hretry, hring, hflush⟩ := queueSound_iff.1 (hs.queueSound e.queue)
    have hpos : 0 < (s.queue e.queue).inflight := by
      rw [hs.inflight_eq]
      exact List.countP_pos_iff.2 ⟨e, hmem, by simp⟩
    have hnoretry : ¬(s.queue e.queue).retry.isSome := fun hr => hpos.ne' (hretry hr).2
    have hlen : 0 < s.issue.inflight.length := List.length_pos_of_mem hmem
    have hres := hs.reserved_eq e.queue
    have hslots := hs.slotsUsed_le
    cases completionEnd_completeJob h with
    | halted hh hq hcq =>
      rw [haltsAtCompletion, Bool.and_eq_true] at hh
      obtain ⟨hone, hst⟩ := hs.guardedPlace hmem hh.1
      have hold : drainSlots (s.queue e.queue) = 0 :=
        drainSlots_of_not_draining fun g hg => by rw [hg] at hst; simp at hst
      obtain ⟨hr, hsl⟩ := slotEnded_slots (.inr hcq) (by omega)
      refine hs.jobRetired h hi ho ?_ (by rw [hq]; rfl) (by rw [hold, hq]; exact hr) (by omega)
      rw [hq]
      exact queueSound_iff.2 ⟨fun _ => by rw [haltedWith, oneLess, hone], by simp [haltedWith],
        fun hr => absurd hr hnoretry, hring, hflush⟩
    | running hlast hq hcq =>
      obtain ⟨f, hq⟩ := hq
      obtain ⟨hr, hsl⟩ := slotEnded_slots hcq (by omega)
      refine hs.jobRetired h hi ho ?_ (by rw [hq]; rfl) (by rw [hq, hr]; rfl) (by omega)
      rw [hq]
      refine queueSound_iff.2 ⟨fun hst => absurd (hidle hst) hpos.ne', fun hst => ?_,
        fun hr => absurd hr hnoretry, hring, hflush⟩
      refine Nat.pos_of_ne_zero fun hz => ?_
      obtain ⟨hnp, hnd⟩ := hlast hz
      exact hst.elim hnp fun ⟨g, hg⟩ => hnd g hg
    | paused hz hst hq hcq =>
      obtain ⟨f, hq⟩ := hq
      have hold : drainSlots (s.queue e.queue) = 0 := drainSlots_of_not_draining (by simp [hst])
      obtain ⟨hr, hsl⟩ := slotEnded_slots hcq (by omega)
      refine hs.jobRetired h hi ho ?_ (by rw [hq]; rfl) (by rw [hold, hq]; exact hr) (by omega)
      rw [hq]
      exact queueSound_iff.2 ⟨fun _ => hz, by simp, fun hr => absurd hr hnoretry, hring, hflush⟩
    | drained g hz hst hq hcq =>
      obtain ⟨f, hq⟩ := hq
      obtain ⟨c, r, hc, hcq⟩ := hcq
      have hold : drainSlots (s.queue e.queue) = 1 := drainSlots_of_draining hst
      obtain ⟨hr, hsl⟩ := slotEnded_slots hc (by omega)
      obtain ⟨hr', hsl'⟩ := slotEnded_slots (.inr ⟨r, hcq⟩) (by omega)
      refine hs.jobRetired h hi ho ?_ (by rw [hq]; rfl) (by rw [hold, hq, hr', hr]; rfl) (by omega)
      rw [hq]
      exact queueSound_iff.2 ⟨fun _ => hz, by simp [haltedWith], fun hr => absurd hr hnoretry, hring,
        hflush⟩

/-! ## Every happening -/

theorem QueuesSound.writeCqPop (hs : QueuesSound s) : QueuesSound (writeCqPop s) := by
  obtain ⟨-, h⟩ | ⟨-, h⟩ := writeCqPop_cases s <;> rw [h]
  · exact hs.of_frame rfl rfl le_rfl rfl
  · refine QueuesSound.reportStall (hs.of_frame rfl rfl ?_ ?_) <;>
      simp only [popRecord] <;> split <;> simp [*]

/-- A reset leaves both queues empty, nothing in flight and no slot in use. -/
theorem queuesSound_of_reset (hQ : ∀ q, ∃ m, t.queue q = { Queue.reset with haltMask := m })
    (hi : t.issue.inflight = []) (hring : t.cq.ring = []) (hres : t.cq.reserved = 0) : QueuesSound t := by
  have hzero (q : QueueId) : drainSlots (t.queue q) = 0 := by obtain ⟨m, h⟩ := hQ q; rw [h]; rfl
  refine (queuesSound_iff .q0).2 ⟨fun q => ?_, fun q => ?_, by simp [hi], ?_, ?_⟩
  · obtain ⟨m, h⟩ := hQ q
    rw [h]
    exact queueSound_iff.2 (by simp [Queue.reset])
  · obtain ⟨m, h⟩ := hQ q
    rw [h, flightCount, hi]
    rfl
  · rw [hzero, hzero, hi, hres]
    rfl
  · simp [slotsUsed, hring, hres]

theorem happenings_queuesSound (hs : QueuesSound s) : Happenings QueuesSound s where
  same := hs
  powerOn := queuesSound_of_reset (fun q => by cases q <;> exact ⟨0#5, rfl⟩) rfl rfl rfl
  resetAssert _ _ := queuesSound_of_reset (fun q => by cases q <;> exact ⟨0#5, rfl⟩) rfl rfl rfl
  endPowerOn _ := by
    obtain ⟨-, h0, h1, hi, hc, -⟩ := leaveReset_frame { s with engine := { s.engine with por := false } }
    exact hs.of_frame (queue_eq_of h0 h1) (by rw [hi]) (by rw [hc]) (by rw [hc])
  endPin _ := by
    obtain ⟨-, h0, h1, hi, hc, -⟩ := leaveReset_frame { s with engine := { s.engine with pin := false } }
    exact hs.of_frame (queue_eq_of h0 h1) (by rw [hi]) (by rw [hc]) (by rw [hc])
  scrubEnd _ := hs.of_frame rfl rfl le_rfl rfl
  tick _ := hs.passTick
  cellAddr _ _ := hs.of_frame rfl rfl le_rfl rfl
  cellData k _ := hs.of_frame (queue_cellAccess k s) (by rw [cellAccess_frame]) (by rw [cellAccess_frame])
    (by rw [cellAccess_frame])
  completeRead _ := by unfold Machine.completeRead; split <;> exact hs.of_frame rfl rfl le_rfl rfl
  commit q _ := hs.commitJob q
  haltMask q b _ := by
    unfold writeHaltMask
    exact QueuesSound.reportStall (hs.of_ring (hs.queueSound q).ring_le)
  arbCtrl _ _ := hs.of_frame rfl rfl le_rfl rfl
  cqHead _ := hs.of_frame rfl rfl le_rfl rfl
  cqPop _ := hs.writeCqPop
  threshold _ _ := hs.of_frame rfl rfl le_rfl rfl
  eventCode _ := hs.of_frame rfl rfl le_rfl rfl
  evtAck _ _ := hs.of_frame rfl rfl le_rfl rfl
  faultClear _ := hs.of_frame rfl rfl le_rfl rfl
  plain a b _ := by
    rw [(plainChange_writePlain a b s).2]
    exact hs.of_frame rfl rfl le_rfl rfl
  result r _ := hs.setResult r
  resume q _ := (hs.resumeCommand q).reportStall
  pause q _ := (hs.pauseCommand q).reportStall
  flush q _ := hs.flushCommand q
  clearSticky q _ := (hs.of_ring (hs.queueSound q).ring_le).setResult _
  cellCommand t _ _ := by
    rw [cellCommand_frame]
    exact hs.of_frame rfl rfl le_rfl rfl
  softReset _ := queuesSound_of_reset (fun q => by cases q <;> exact ⟨_, rfl⟩) rfl rfl rfl
  issue q := (hs.examineHead q).reportStall
  completion n := (hs.completeJob n.val).reportStall

end

/-- Settles O57: the commands on a queue, an issue and a completion change one queue each, with the jobs in
flight and the slots that go with it; every other happening leaves all of these, or empties them. -/
theorem stepKeepsQueuesSound : Obligations.StepKeepsQueuesSound := by
  intro s t hs hstep
  refine step_ind hstep (fun rest => happenings_queuesSound ?_) (fun u hu => hu.passTick) (fun u _ hu => ?_) hs
    (fun _ => ?_) fun _ _ => ?_
  · exact hs.of_frame rfl rfl le_rfl rfl
  · exact hu.of_frame rfl rfl le_rfl rfl
  · exact hs.of_frame rfl rfl le_rfl rfl
  · exact hs.of_frame rfl rfl le_rfl rfl

end Sys2Proof.Machine

/-! The proofs for the sequence numbers (04_job_queues.md, R70). -/

namespace Sys2Proof.Machine

/-! ## The law, read from the ring -/

/-- The sequence number before that of the ring's head: that of the job which left the head last. -/
def seqBeforeRing (Q : Queue) : Byte := Q.nextSeq - BitVec.ofNat 8 Q.ring.length - 1#8

/-- The ring's jobs run consecutively and end at NEXT_SEQ - 1. -/
def RingSeq (Q : Queue) : Prop :=
  ∀ i (h : i < Q.ring.length), Q.ring[i].seq = Q.nextSeq - BitVec.ofNat 8 (Q.ring.length - i)

section

variable {s t : State} {q : QueueId} {Q : Queue} {j : Job}

theorem seqSound_iff : SeqSound s q ↔ RingSeq (s.queue q) ∧
    (∀ j, (s.queue q).retry = some j → j.seq = seqBeforeRing (s.queue q)) ∧
    (∀ h, heldJob (s.queue q) = some h → h.job.seq = seqBeforeRing (s.queue q)) ∧
    (∀ e ∈ s.issue.inflight, e.queue = q → e.guarded = true →
      e.job.seq = seqBeforeRing (s.queue q)) := Iff.rfl

/-- A change that leaves the ring and NEXT_SEQ, and brings no new job to the retry position, the held-job slot
and the guarded jobs in flight. -/
theorem SeqSound.of_frame (h : SeqSound s q) (hring : (t.queue q).ring = (s.queue q).ring)
    (hnext : (t.queue q).nextSeq = (s.queue q).nextSeq)
    (hretry : ∀ j, (t.queue q).retry = some j → (s.queue q).retry = some j ∨
      ∃ g, heldJob (s.queue q) = some g ∧ g.job = j)
    (hheld : ∀ g, heldJob (t.queue q) = some g → heldJob (s.queue q) = some g ∨
      ∃ e ∈ s.issue.inflight, e.queue = q ∧ e.guarded = true ∧ g.job = e.job)
    (hi : ∀ e ∈ t.issue.inflight, e.queue = q → e.guarded = true → e ∈ s.issue.inflight) :
    SeqSound t q := by
  obtain ⟨h1, h2, h3, h4⟩ := seqSound_iff.1 h
  have hbefore : seqBeforeRing (t.queue q) = seqBeforeRing (s.queue q) := by
    rw [seqBeforeRing, hring, hnext, seqBeforeRing]
  refine seqSound_iff.2 ⟨?_, fun j hj => ?_, fun g hg => ?_, fun e he hq hge => ?_⟩
  · simpa only [RingSeq, hring, hnext] using h1
  · rw [hbefore]
    obtain hj | ⟨g, hg, rfl⟩ := hretry j hj
    exacts [h2 j hj, h3 g hg]
  · rw [hbefore]
    obtain hg | ⟨e, he, hq, hge, heq⟩ := hheld g hg
    exacts [h3 g hg, heq ▸ h4 e he hq hge]
  · exact hbefore ▸ h4 e (hi e he hq hge) hq hge

theorem SeqSound.of_eq (h : SeqSound s q) (hq : t.queue q = s.queue q)
    (hi : ∀ e ∈ t.issue.inflight, e.queue = q → e.guarded = true → e ∈ s.issue.inflight) :
    SeqSound t q :=
  h.of_frame (by rw [hq]) (by rw [hq]) (fun j hj => .inl (hq ▸ hj)) (fun g hg => .inl (hq ▸ hg)) hi

theorem SeqSound.of_same (h : SeqSound s q) (hq : t.queue = s.queue)
    (hi : t.issue.inflight = s.issue.inflight) : SeqSound t q :=
  h.of_eq (by rw [hq]) fun e he _ _ => hi ▸ he

theorem SeqSound.reportStall {r : State} (h : SeqSound t q) : SeqSound (reportStall r t) q :=
  h.of_eq (by simp) fun e he _ _ => by simpa using he

theorem SeqSound.setResult (h : SeqSound t q) (r : CmdResult) : SeqSound (setResult r t) q :=
  h.of_eq (by simp) fun e he _ _ => he

/-- A queue with an empty ring and no job that left its head keeps the law. -/
theorem seqSound_of_empty (hring : (t.queue q).ring = []) (hretry : (t.queue q).retry = none)
    (hheld : heldJob (t.queue q) = none) (hi : ∀ e ∈ t.issue.inflight, e.queue = q → e.guarded = false) :
    SeqSound t q := by
  refine seqSound_iff.2 ⟨fun i h => ?_, by simp [hretry], by simp [hheld], fun e he hq hg => ?_⟩
  · simp [hring] at h
  · rw [hi e he hq] at hg
    cases hg

theorem seqSound_of_reset (hQ : ∃ m, t.queue q = { Queue.reset with haltMask := m })
    (hi : t.issue.inflight = []) : SeqSound t q := by
  obtain ⟨m, h⟩ := hQ
  exact seqSound_of_empty (by rw [h]; rfl) (by rw [h]; rfl) (by rw [h]; rfl) (by simp [hi])

theorem heldJob_of_active (h : Q.state = .active) : heldJob Q = none := by simp [heldJob, h]

/-! ## The ring -/

/-- A commit puts NEXT_SEQ at the tail and raises it. -/
theorem ringSeq_append (h : RingSeq Q) (hj : j.seq = Q.nextSeq) :
    RingSeq { Q with ring := Q.ring ++ [j], nextSeq := Q.nextSeq + 1#8 } := by
  intro i hi
  have hlen : (Q.ring ++ [j]).length - i = Q.ring.length - i + 1 := by
    simp only [List.length_append, List.length_singleton] at hi ⊢
    omega
  have hshift : Q.nextSeq + 1#8 - BitVec.ofNat 8 (Q.ring.length - i + 1) =
      Q.nextSeq - BitVec.ofNat 8 (Q.ring.length - i) := by
    rw [BitVec.ofNat_add]
    ring
  dsimp only
  rw [hlen, hshift]
  by_cases hlast : i < Q.ring.length
  · rw [List.getElem_append_left hlast]
    exact h i hlast
  · have hi' : i = Q.ring.length := by
      simp only [List.length_append, List.length_singleton] at hi
      omega
    subst hi'
    simp [hj]

theorem seqBeforeRing_append : seqBeforeRing { Q with ring := Q.ring ++ [j], nextSeq := Q.nextSeq + 1#8 } =
    seqBeforeRing Q := by
  simp only [seqBeforeRing, List.length_append, List.length_singleton, BitVec.ofNat_add]
  ring

/-- The head that leaves its queue takes the number before the ring that it leaves. -/
theorem seq_of_dropHead (hring : RingSeq Q) (hretry : ∀ j, Q.retry = some j → j.seq = seqBeforeRing Q)
    (hj : headJob Q = some j) : RingSeq (dropHead Q) ∧ j.seq = seqBeforeRing (dropHead Q) := by
  cases hr : Q.retry with
  | some k =>
    obtain rfl : k = j := by simpa [headJob, hr] using hj
    have hdrop : dropHead Q = { Q with retry := none } := by simp [dropHead, hr]
    rw [hdrop]
    exact ⟨hring, hretry k hr⟩
  | none =>
    have hdrop : dropHead Q = { Q with ring := Q.ring.tail } := by simp [dropHead, hr]
    obtain ⟨l, hl⟩ : ∃ l, Q.ring = j :: l := by
      cases hQ : Q.ring with
      | nil => simp [headJob, hr, hQ] at hj
      | cons k l => exact ⟨l, by simpa [headJob, hr, hQ] using hj⟩
    rw [hdrop]
    simp only [RingSeq, seqBeforeRing, hl, List.tail_cons] at hring ⊢
    refine ⟨fun i hi => ?_, ?_⟩
    · have := hring (i + 1) (by simpa using hi)
      simpa using this
    · have := hring 0 (by simp)
      simp only [List.getElem_cons_zero, List.length_cons, Nat.sub_zero, BitVec.ofNat_add] at this
      rw [this]
      ring

/-! ## Commands -/

theorem SeqSound.commitJob (h : SeqSound s q) (w : QueueId) : SeqSound (commitJob w s) q := by
  obtain ⟨-, hc⟩ | ⟨-, -, hc⟩ | ⟨-, -, hc⟩ := commitJob_cases s w <;> rw [hc]
  · exact h.of_same rfl rfl
  · exact h.of_same rfl rfl
  · refine SeqSound.reportStall ?_
    obtain rfl | rfl := eq_or_eq_other w q
    · obtain ⟨h1, h2, h3, h4⟩ := seqSound_iff.1 h
      rw [seqSound_iff, setQueue_queue, seqBeforeRing_append]
      exact ⟨ringSeq_append h1 rfl, h2, h3, by simpa using h4⟩
    · exact h.of_eq (by simp) fun e he _ _ => by simpa using he

theorem SeqSound.resumeCommand (h : SeqSound s q) (w : QueueId) : SeqSound (resumeCommand w s) q := by
  have hi : ∀ e ∈ (Machine.resumeCommand w s).issue.inflight, e.queue = q → e.guarded = true →
      e ∈ s.issue.inflight := by
    rw [(resumeCommand_frame s w).2.1]
    exact fun e he _ _ => he
  obtain ⟨r, hr⟩ | ⟨ho, hcases⟩ := resumeCommand_cases w s
  · rw [hr]
    exact h.setResult r
  obtain rfl | rfl := eq_or_eq_other w q
  · have hactive {r : Option Job}
        (hq : (Machine.resumeCommand q s).queue q = { s.queue q with retry := r, state := .active })
        (hretry : ∀ j, r = some j → (s.queue q).retry = some j ∨
          ∃ g, heldJob (s.queue q) = some g ∧ g.job = j) : SeqSound (Machine.resumeCommand q s) q :=
      h.of_frame (by rw [hq]) (by rw [hq]) (by rw [hq]; exact hretry)
        (by rw [hq, heldJob_of_active rfl]; simp) hi
    obtain ⟨-, -, hq⟩ | ⟨g, hst, ⟨-, hq⟩ | ⟨-, -, hq⟩⟩ := hcases
    · exact hactive hq fun j hj => .inl hj
    · exact hactive hq fun j hj => .inr ⟨g, by simp [heldJob, hst], Option.some.inj hj⟩
    · exact hactive hq fun j hj => .inl hj
  · exact h.of_eq ho hi

theorem SeqSound.pauseCommand (h : SeqSound s q) (w : QueueId) : SeqSound (pauseCommand w s) q := by
  have hstop {u : State} (hu : u.queue = s.queue) (hui : u.issue = s.issue) {st : QState}
      (hst : st = .paused ∨ st = .pausing) :
      SeqSound (u.setQueue w { s.queue w with state := st }) q := by
    obtain rfl | rfl := eq_or_eq_other w q
    · refine h.of_frame (by simp) (by simp) (fun j hj => .inl (by simpa using hj)) (fun g hg => ?_)
        fun e he _ _ => by simpa [hui] using he
      rw [setQueue_queue, heldJob] at hg
      obtain rfl | rfl := hst <;> cases hg
    · exact h.of_eq (by simp [hu]) fun e he _ _ => by simpa [hui] using he
  cases hst : (s.queue w).state with
  | paused => exact pauseCommand_of_stopping (.inl hst) ▸ h.setResult _
  | pausing => exact pauseCommand_of_stopping (.inr (.inl hst)) ▸ h.setResult _
  | draining g => exact pauseCommand_of_stopping (.inr (.inr ⟨g, hst⟩)) ▸ h.setResult _
  | halted g => exact pauseCommand_of_halted hst ▸ h.setResult _
  | active =>
    rcases Nat.eq_zero_or_pos (s.queue w).inflight with hz | hpos
    · rw [pauseCommand_of_idle hst hz]
      exact (hstop (u := { s with event := { s.event with paused := true } }) (queue_eq_of rfl rfl) rfl
        (.inl rfl)).setResult _
    · rw [pauseCommand_of_busy hst hpos]
      exact (hstop rfl rfl (.inr rfl)).setResult _

/-- A FLUSH empties a queue that stands still, so no guarded job of it is in flight. -/
theorem SeqSound.flushCommand (h : SeqSound s q) (hs : QueuesSound s) (w : QueueId) :
    SeqSound (flushCommand w s) q := by
  have hflushed (hst : (s.queue w).state = .paused ∨ ∃ g, (s.queue w).state = .halted g) (n : Nat) :
      SeqSound (s.setQueue w
        { s.queue w with ring := [], retry := none, state := .paused, flushCount := n }) q := by
    obtain rfl | rfl := eq_or_eq_other w q
    · refine seqSound_of_empty (by simp) (by simp) (by simp [heldJob]) fun e he hq => ?_
      rw [setQueue_issue] at he
      by_contra hg
      have hplace := hs.guardedPlace he (by simpa using hg)
      rw [hq, GuardedPlace, (hs.queueSound _).idle hst] at hplace
      exact absurd hplace.1 (by decide)
    · exact h.of_eq (by simp) fun e he _ _ => by simpa using he
  unfold Machine.flushCommand
  split
  next hst => exact (hflushed (.inl hst) _).setResult _
  next g hst => exact (hflushed (.inr ⟨g, hst⟩) _).setResult _
  all_goals exact h.setResult _

/-- A change of a queue's masks and flags. -/
theorem SeqSound.of_masks (h : SeqSound s q) (w : QueueId) {m f : BitVec 5} :
    SeqSound (s.setQueue w { s.queue w with haltMask := m, sticky := f }) q := by
  obtain rfl | rfl := eq_or_eq_other w q
  · exact h.of_frame (by simp) (by simp) (fun j hj => .inl (by simpa using hj))
      (fun g hg => .inl (by rw [setQueue_queue] at hg; exact hg)) fun e he _ _ => by simpa using he
  · exact h.of_eq (by simp) fun e he _ _ => by simpa using he

/-! ## Issue and completion -/

theorem SeqSound.headTaken (h : SeqSound s q) (hj : headJob (s.queue q) = some j)
    (hno : ∀ e ∈ s.issue.inflight, e.queue = q → e.guarded = false)
    (hring : (t.queue q).ring = (dropHead (s.queue q)).ring)
    (hnext : (t.queue q).nextSeq = (s.queue q).nextSeq) (hretry : (t.queue q).retry = none)
    (hheld : ∀ g, heldJob (t.queue q) = some g → g.job = j)
    (hi : ∀ e ∈ t.issue.inflight, e ∈ s.issue.inflight ∨ e.job = j) : SeqSound t q := by
  obtain ⟨h1, h2, -, -⟩ := seqSound_iff.1 h
  obtain ⟨hseq, hbefore⟩ := seq_of_dropHead h1 h2 hj
  have hbefore : j.seq = seqBeforeRing (t.queue q) := by
    rw [hbefore, seqBeforeRing, seqBeforeRing, hring, hnext, dropHead_nextSeq]
  refine seqSound_iff.2 ⟨?_, by simp [hretry], fun g hg => hheld g hg ▸ hbefore, fun e he hq hg => ?_⟩
  · simpa only [RingSeq, hring, hnext, dropHead_nextSeq] using hseq
  · obtain he | he := hi e he
    · rw [hno e he hq] at hg
      cases hg
    · exact he ▸ hbefore

theorem SeqSound.issueJob (h : SeqSound s q) {w : QueueId} (hissue : issuable s w = true)
    (hj : headJob (s.queue w) = some j) : SeqSound (issueJob w j s) q := by
  obtain ⟨ha, -, -, hno, -⟩ := issuable_parts hissue hj
  have hi : ∀ e ∈ (Machine.issueJob w j s).issue.inflight,
      e ∈ s.issue.inflight ∨ e.queue = w ∧ e.job = j := by
    obtain ⟨c, -, hc⟩ | ⟨c, -, hc⟩ | ⟨cl, -, -, e, he, hc⟩ | ⟨fa, fb, c, b, -, hc⟩ := issueJob_cases w j s <;>
      rw [hc, setQueue_issue]
    iterate 2 exact fun e he => .inl he
    · intro e' he'
      simp only [List.mem_append, List.mem_singleton] at he'
      exact he'.imp_right fun heq => by rw [heq, he]; exact ⟨rfl, rfl⟩
    · exact fun e he => .inl he
  obtain rfl | rfl := eq_or_eq_other w q
  · obtain ⟨hring, hretry, -⟩ := headTaken_issueJob (s := s) (q := q) (j := j)
    have hmove : ((Machine.issueJob q j s).queue q).nextSeq = (s.queue q).nextSeq :=
      (queuesMove_issueJob ha q).2
    refine h.headTaken hj hno hring hmove hretry (fun g hg => ?_) fun e he => (hi e he).imp_right (·.2)
    obtain ⟨c, -, hc⟩ | ⟨c, -, hc⟩ | ⟨cl, -, -, e, -, hc⟩ | ⟨fa, fb, c, b, -, hc⟩ := issueJob_cases q j s <;>
      rw [hc, setQueue_queue] at hg
    · obtain rfl := Option.some.inj hg
      rfl
    · obtain rfl := Option.some.inj hg
      rfl
    · rw [heldJob_of_active (by simpa using ha)] at hg
      cases hg
    · rw [heldJob_of_active (by simpa using ha)] at hg
      cases hg
  · obtain ⟨-, -, ho⟩ := headTaken_issueJob (s := s) (q := w) (j := j)
    refine h.of_eq ho fun e he hq _ => (hi e he).resolve_right fun hw => ?_
    exact other_ne w (hq.symm.trans hw.1)

theorem SeqSound.examineHead (h : SeqSound s q) (w : QueueId) : SeqSound (examineHead w s) q := by
  refine examineHead_ind (p := fun t => SeqSound t q) h fun w j n u hu _ hissue hj => ?_
  have hseq : SeqSound u q := hu ▸ h.of_same (queue_eq_of rfl rfl) rfl
  exact hseq.issueJob hissue hj

/-- A completion moves no job but its own: a guarded one that halts goes into the held-job slot. -/
theorem SeqSound.completeJob (h : SeqSound s q) (i : Nat) : SeqSound (completeJob i s) q := by
  cases he : s.issue.inflight[i]? with
  | none => rwa [completeJob_of_none he]
  | some e =>
    have hi : ∀ e' ∈ (Machine.completeJob i s).issue.inflight, e'.queue = q → e'.guarded = true →
        e' ∈ s.issue.inflight := by
      rw [(completeJob_cell_issue he).2, retired_issue]
      exact fun e' he' _ _ => List.mem_of_mem_eraseIdx he'
    obtain rfl | rfl := eq_or_eq_other e.queue q
    · cases completionEnd_completeJob he with
      | halted hh hq =>
        rw [haltsAtCompletion, Bool.and_eq_true] at hh
        refine h.of_frame (by rw [hq]; rfl) (by rw [hq]; rfl) (fun j hj => .inl (by rw [hq] at hj; exact hj))
          (fun g hg => .inr ⟨e, List.mem_of_getElem? he, rfl, hh.1, ?_⟩) hi
        rw [hq] at hg
        obtain rfl := Option.some.inj hg
        rfl
      | running _ hq =>
        obtain ⟨f, hq⟩ := hq
        exact h.of_frame (by rw [hq]; rfl) (by rw [hq]; rfl) (fun j hj => .inl (by rw [hq] at hj; exact hj))
          (fun g hg => .inl (by rw [hq] at hg; exact hg)) hi
      | paused _ _ hq =>
        obtain ⟨f, hq⟩ := hq
        exact h.of_frame (by rw [hq]; rfl) (by rw [hq]; rfl) (fun j hj => .inl (by rw [hq] at hj; exact hj))
          (fun g hg => by rw [hq] at hg; cases hg) hi
      | drained g _ hst hq =>
        obtain ⟨f, hq⟩ := hq
        exact h.of_frame (by rw [hq]; rfl) (by rw [hq]; rfl) (fun j hj => .inl (by rw [hq] at hj; exact hj))
          (fun g' hg => .inl (by rw [hq] at hg; rw [heldJob, hst]; exact hg)) hi
    · exact h.of_eq (completeJob_queue_other he) hi

/-! ## Every happening -/

theorem SeqSound.passTick (h : SeqSound s q) : SeqSound (passTick s) q :=
  h.of_same (queue_passTick s) (by rw [(passTick_frame s).2.2.1])

theorem happenings_seqSound (hs : QueuesSound s) (h : SeqSound s q) :
    Happenings (fun t => SeqSound t q) s where
  same := h
  powerOn := seqSound_of_reset (by cases q <;> exact ⟨0#5, rfl⟩) rfl
  resetAssert _ _ := seqSound_of_reset (by cases q <;> exact ⟨0#5, rfl⟩) rfl
  endPowerOn _ := by
    obtain ⟨-, h0, h1, hi, -⟩ := leaveReset_frame { s with engine := { s.engine with por := false } }
    exact h.of_same (queue_eq_of h0 h1) (by rw [hi])
  endPin _ := by
    obtain ⟨-, h0, h1, hi, -⟩ := leaveReset_frame { s with engine := { s.engine with pin := false } }
    exact h.of_same (queue_eq_of h0 h1) (by rw [hi])
  scrubEnd _ := h.of_same rfl rfl
  tick _ := h.passTick
  cellAddr _ _ := h.of_same rfl rfl
  cellData k _ := h.of_same (queue_cellAccess k s) (by rw [cellAccess_frame])
  completeRead _ := by unfold Machine.completeRead; split <;> exact h.of_same rfl rfl
  commit w _ := h.commitJob w
  haltMask w b _ := by
    unfold writeHaltMask
    exact SeqSound.reportStall (h.of_masks w)
  arbCtrl _ _ := h.of_same rfl rfl
  cqHead _ := h.of_same rfl rfl
  cqPop _ := by
    obtain ⟨-, hc⟩ | ⟨-, hc⟩ := writeCqPop_cases s <;> rw [hc]
    · exact h.of_same rfl rfl
    · exact SeqSound.reportStall (h.of_same rfl rfl)
  threshold _ _ := h.of_same rfl rfl
  eventCode _ := h.of_same rfl rfl
  evtAck _ _ := h.of_same rfl rfl
  faultClear _ := h.of_same rfl rfl
  plain a b _ := by
    rw [(plainChange_writePlain a b s).2]
    exact h.of_same rfl rfl
  result r _ := h.setResult r
  resume w _ := (h.resumeCommand w).reportStall
  pause w _ := (h.pauseCommand w).reportStall
  flush w _ := h.flushCommand hs w
  clearSticky w _ := (h.of_masks w).setResult _
  cellCommand t _ _ := by
    rw [cellCommand_frame]
    exact h.of_same rfl rfl
  softReset _ := seqSound_of_reset (by cases q <;> exact ⟨_, rfl⟩) rfl
  issue w := (h.examineHead w).reportStall
  completion n := (h.completeJob n.val).reportStall

end

/-- Settles O58: a commit puts NEXT_SEQ at the tail and raises it, the head that leaves its ring takes the
number before the ring along, and RETRY, a halt and a FLUSH move that job or drop it. -/
theorem stepKeepsSequenceNumbers : Obligations.StepKeepsSequenceNumbers := by
  intro s t q hs h hstep
  refine step_ind (p := fun t => SeqSound t q) hstep (fun rest => happenings_seqSound ?_ ?_)
    (fun u hu => hu.passTick) (fun u _ hu => hu.of_same rfl rfl) h (fun _ => h.of_same rfl rfl)
    fun _ _ => h.of_same rfl rfl
  · exact hs.of_frame rfl rfl le_rfl rfl
  · exact h.of_same rfl rfl

end Sys2Proof.Machine

/-! The proofs for the marks, the units and the in-flight entries (05_issue_and_execution.md, R86, R91, R93, R95,
R96). -/

namespace Sys2Proof.Machine

/-! ## Units -/

/-- How many jobs the occupancy of the transfer unit stands for. -/
def tuJobs : TuOcc → Nat
  | .free => 0
  | .busy => 1

/-- How many jobs of its own the occupancy of the sum unit stands for. -/
def suJobs : SuOcc → Nat
  | .busy => 1
  | .free | .lent => 0

/-- How many jobs of the product unit have the sum unit lent to them. -/
def suLoans : SuOcc → Nat
  | .lent => 1
  | .free | .busy => 0

/-- How many scalar jobs the occupancy of the product unit stands for. -/
def puScalars : PuOcc → Nat
  | .oneScalar => 1
  | .twoScalar => 2
  | .idle | .whole => 0

/-- How many jobs that take the whole product unit its occupancy stands for. -/
def puWholes : PuOcc → Nat
  | .whole => 1
  | .idle | .oneScalar | .twoScalar => 0

section

variable {il il' : IssueLogic} {c : Claim}

/-- The law of the units counts the jobs of each claim. -/
theorem unitsSound_iff : UnitsSound il ↔
    claimCount il .tu = tuJobs il.tu ∧ claimCount il .su = suJobs il.su ∧
    claimCount il .puAndSu = suLoans il.su ∧ claimCount il .puScalar = puScalars il.pu ∧
    claimCount il .puWhole + claimCount il .puAndSu = puWholes il.pu := by
  have htu : (il.tu = .free ∧ claimCount il .tu = 0 ∨ il.tu = .busy ∧ claimCount il .tu = 1) ↔
      claimCount il .tu = tuJobs il.tu := by
    cases il.tu <;> simp [tuJobs]
  unfold UnitsSound
  rw [htu]
  cases il.su <;> cases il.pu <;> simp [suJobs, suLoans, puScalars, puWholes, and_assoc]

theorem claimUnits_jobs (hfit : claimFits il (some c) = true) :
    tuJobs (claimUnits il (some c)).tu = tuJobs il.tu + (if c = .tu then 1 else 0) ∧
    suJobs (claimUnits il (some c)).su = suJobs il.su + (if c = .su then 1 else 0) ∧
    suLoans (claimUnits il (some c)).su = suLoans il.su + (if c = .puAndSu then 1 else 0) ∧
    puScalars (claimUnits il (some c)).pu = puScalars il.pu + (if c = .puScalar then 1 else 0) ∧
    puWholes (claimUnits il (some c)).pu =
      puWholes il.pu + (if c = .puWhole then 1 else 0) + (if c = .puAndSu then 1 else 0) := by
  cases c with
  | tu | su | puWhole => simp_all [claimFits, claimUnits, tuJobs, suJobs, suLoans, puScalars, puWholes]
  | puAndSu =>
    simp only [claimFits, Bool.and_eq_true, decide_eq_true_eq] at hfit
    simp [claimUnits, hfit, suJobs, suLoans, puScalars, puWholes]
  | puScalar =>
    simp only [claimFits, Bool.or_eq_true, decide_eq_true_eq] at hfit
    obtain h | h := hfit <;> simp [claimUnits, h, puScalars, puWholes]

/-- A job in flight with the claim `c` gives back what the occupancy counted for it. -/
theorem releaseUnits_jobs (hs : UnitsSound il) (hc : 0 < claimCount il c) :
    tuJobs il.tu = tuJobs (releaseUnits il c).tu + (if c = .tu then 1 else 0) ∧
    suJobs il.su = suJobs (releaseUnits il c).su + (if c = .su then 1 else 0) ∧
    suLoans il.su = suLoans (releaseUnits il c).su + (if c = .puAndSu then 1 else 0) ∧
    puScalars il.pu = puScalars (releaseUnits il c).pu + (if c = .puScalar then 1 else 0) ∧
    puWholes il.pu = puWholes (releaseUnits il c).pu + (if c = .puWhole then 1 else 0) +
      (if c = .puAndSu then 1 else 0) := by
  obtain ⟨h1, h2, h3, h4, h5⟩ := unitsSound_iff.1 hs
  cases c with
  | tu =>
    rw [h1] at hc
    cases htu : il.tu <;> simp_all [releaseUnits, tuJobs]
  | su =>
    rw [h2] at hc
    cases hsu : il.su <;> simp_all [releaseUnits, suJobs, suLoans]
  | puScalar =>
    rw [h4] at hc
    cases hpu : il.pu <;> simp_all [releaseUnits, puScalars, puWholes]
  | puWhole =>
    cases hpu : il.pu <;> simp_all [releaseUnits, puScalars, puWholes]
  | puAndSu =>
    cases hsu : il.su <;> cases hpu : il.pu <;>
      simp_all [releaseUnits, suJobs, suLoans, puScalars, puWholes]

theorem claimCount_append {e : InFlight} (hi : il'.inflight = il.inflight ++ [e]) (c : Claim) :
    claimCount il' c = claimCount il c + if e.claim = c then 1 else 0 := by
  simp [claimCount, hi, List.countP_cons]

theorem claimCount_eraseIdx {i : Nat} {e : InFlight} (h : il.inflight[i]? = some e)
    (hi : il'.inflight = il.inflight.eraseIdx i) (c : Claim) :
    claimCount il c = claimCount il' c + if e.claim = c then 1 else 0 := by
  rw [claimCount, ← (perm_cons_eraseIdx h).countP_eq, List.countP_cons, claimCount, hi]
  simp

theorem UnitsSound.claimed (hs : UnitsSound il) {e : InFlight} (hfit : claimFits il (some e.claim) = true)
    (hi : il'.inflight = il.inflight ++ [e]) (htu : il'.tu = (claimUnits il (some e.claim)).tu)
    (hsu : il'.su = (claimUnits il (some e.claim)).su) (hpu : il'.pu = (claimUnits il (some e.claim)).pu) :
    UnitsSound il' := by
  obtain ⟨h1, h2, h3, h4, h5⟩ := unitsSound_iff.1 hs
  obtain ⟨g1, g2, g3, g4, g5⟩ := claimUnits_jobs hfit
  rw [unitsSound_iff, htu, hsu, hpu]
  simp only [claimCount_append hi]
  omega

theorem UnitsSound.released (hs : UnitsSound il) {i : Nat} {e : InFlight} (h : il.inflight[i]? = some e)
    (hi : il'.inflight = il.inflight.eraseIdx i) (htu : il'.tu = (releaseUnits il e.claim).tu)
    (hsu : il'.su = (releaseUnits il e.claim).su) (hpu : il'.pu = (releaseUnits il e.claim).pu) :
    UnitsSound il' := by
  have hpos : 0 < claimCount il e.claim :=
    List.countP_pos_iff.2 ⟨e, List.mem_of_getElem? h, by simp⟩
  obtain ⟨h1, h2, h3, h4, h5⟩ := unitsSound_iff.1 hs
  obtain ⟨g1, g2, g3, g4, g5⟩ := releaseUnits_jobs hs hpos
  rw [unitsSound_iff, htu, hsu, hpu]
  simp only [claimCount_eraseIdx h hi] at h1 h2 h3 h4 h5
  omega

end

/-! ## Marks -/

section

variable {s t : State} {e : InFlight} {i : Nat}

theorem MarksSound.marked (hs : MarksSound s) (hi : t.issue.inflight = s.issue.inflight ++ [e])
    (hm : t.issue.marks = setMarks e.dests s.issue.marks) (hd : e.dests.Nodup)
    (hfree : ∀ n ∈ e.dests, isMarked s.issue.marks n = false) : MarksSound t := by
  obtain ⟨hnodup, hmark⟩ := hs
  have hcells : markedCells t.issue = markedCells s.issue ++ e.dests := by
    simp [markedCells, hi]
  refine ⟨?_, fun n => ?_⟩
  · rw [hcells]
    refine hnodup.append hd fun n hn hn' => ?_
    rw [← hmark, hfree n hn'] at hn
    cases hn
  · rw [hm, isMarked_setMarks, hcells, List.mem_append, hmark]

theorem MarksSound.cleared (hs : MarksSound s) (h : s.issue.inflight[i]? = some e)
    (hi : t.issue.inflight = s.issue.inflight.eraseIdx i)
    (hm : t.issue.marks = clearMarks e.dests s.issue.marks) : MarksSound t := by
  obtain ⟨hnodup, hmark⟩ := hs
  have hcells : (e.dests ++ markedCells t.issue).Perm (markedCells s.issue) := by
    have := (perm_cons_eraseIdx h).flatMap_right (·.dests)
    rwa [List.flatMap_cons, ← hi] at this
  obtain ⟨-, hleft, hdisj⟩ := List.nodup_append'.1 (hcells.nodup_iff.2 hnodup)
  refine ⟨hleft, fun n => ?_⟩
  rw [hm, isMarked_clearMarks, hmark, ← hcells.mem_iff, List.mem_append]
  exact ⟨fun ⟨h, h'⟩ => h.resolve_left h', fun h => ⟨.inr h, fun h' => hdisj h' h⟩⟩

end

/-! ## Entries -/

section

variable {s : State} {q : QueueId} {j : Job} {cl : Claim} {Q : Queue} {d : Desc} {o : Op}

/-- A run of at most 16 cells meets no cell twice (R5). -/
theorem nodup_cellRun (base : CellNo) {n : Nat} (hn : n ≤ 16) : (cellRun base n).Nodup := by
  refine List.Nodup.map_on (fun x hx y hy h => ?_) List.nodup_range
  rw [List.mem_range] at hx hy
  have h := congrArg BitVec.toNat (add_left_cancel h)
  rw [BitVec.toNat_ofNat, BitVec.toNat_ofNat] at h
  omega

theorem countOf_le (d : Desc) : countOf d ≤ 16 := by
  have : (countField d).toNat < 16 := (countField d).isLt
  unfold countOf
  omega

theorem length_cellRun (base : CellNo) (n : Nat) : (cellRun base n).length = n := by
  simp [cellRun]

theorem claimOf_eq_some_iff : claimOf d = some cl ↔
    ∃ o, jobOp d = some o ∧ claimFor o (countOf d) = some cl := by
  unfold claimOf
  cases jobOp d <;> simp

theorem isControl_of_claimFor {n : Nat} (h : claimFor o n = some cl) : isControl o = false := by
  cases o <;> first | rfl | cases h

theorem destCells_of_claim (ho : jobOp d = some o) (hc : isControl o = false) : destCells Q d =
    cellRun (resolve Q (dstField d)) (if isReduction o then 1 else countOf d) := by
  simp [destCells, ho, hc]

/-- What the issue checks leave of a job that passes them (R32 to R36). -/
theorem issueCheck_eq_none {m : CondSet} (h : issueCheck s Q d m = none) :
    (∀ n ∈ inspectedCells Q d, (s.cellAt n).tag ≠ .empty) ∧
    (poisonFound s Q d = true → m &&& poisonInBit = 0#7) := by
  unfold issueCheck at h
  dsimp only at h
  split at h
  · cases h
  split at h
  · cases h
  next hempty =>
    split at h
    · cases h
    next hpoison =>
      refine ⟨fun n hn ht => hempty ?_, fun hp => ?_⟩
      · exact List.contains_iff_mem.2 (List.mem_map.2 ⟨n, hn, ht⟩)
      · by_contra hm
        exact hpoison (by simpa [hm, poisonFound] using hp)

theorem entrySound_captureEntry {m : CondSet} (hcl : claimOf j.desc = some cl)
    (hcheck : issueCheck s (s.queue q) j.desc m = none) : EntrySound (captureEntry s q j m cl) := by
  obtain ⟨o, ho, hclaim⟩ := claimOf_eq_some_iff.1 hcl
  have hcontrol := isControl_of_claimFor hclaim
  have hdest := destCells_of_claim (Q := s.queue q) ho hcontrol
  obtain ⟨hempty, hpoison⟩ := issueCheck_eq_none hcheck
  refine ⟨o, ho, hclaim, ?_, ?_, ?_, ?_, ?_, ?_, ?_, hpoison⟩
  · simp [captureEntry, guardedUnder, ho]
  · rw [captureEntry, hdest]
    exact nodup_cellRun _ (by split <;> [decide; exact countOf_le _])
  · rw [captureEntry, hdest, length_cellRun]
  · cases ha : readsA o <;> simp [captureEntry, aCells, ho, ha, length_cellRun]
  · cases hb : readsB o <;> simp [captureEntry, bCells, ho, hb, length_cellRun]
  · cases hd : readsDst o
    · simp [captureEntry, dCells, ho, hd]
    · obtain rfl : o = .mac := by simpa [readsDst] using hd
      simp [captureEntry, dCells, ho, readsDst, hdest, length_cellRun, isReduction]
  · intro hinspect c hc
    have hcells : inspectedCells (s.queue q) j.desc = sourceCells (s.queue q) j.desc := by
      simp [inspectedCells, ho, hinspect]
    obtain ⟨n, hn, rfl⟩ : ∃ n ∈ inspectedCells (s.queue q) j.desc, s.cellAt n = c := by
      rw [hcells]
      simpa only [captureEntry, sourceCells, ← List.map_append, List.mem_map] using hc
    refine ⟨hempty n hn, fun hp => ?_⟩
    exact List.contains_iff_mem.2 (List.mem_map.2 ⟨n, hn, hp⟩)

end

/-! ## The joint law -/

/-- The laws of the marks, of the units and of the in-flight entries. -/
def InFlightSound (s : State) : Prop := MarksSound s ∧ UnitsSound s.issue ∧ EntriesSound s.issue

section

variable {s t : State} {q : QueueId}

/-- The laws speak of the marks, the units and the entries alone. -/
theorem InFlightSound.of_issue (hs : InFlightSound s) (hi : t.issue = { s.issue with
    starvation := t.issue.starvation, preferred := t.issue.preferred, guardK := t.issue.guardK }) :
    InFlightSound t := by
  unfold InFlightSound MarksSound
  rw [hi]
  exact hs

theorem InFlightSound.of_eq (hs : InFlightSound s) (hi : t.issue = s.issue) : InFlightSound t :=
  hs.of_issue (by rw [hi])

/-- With nothing in flight no cell is marked and every unit is free. -/
theorem inFlightSound_of_empty (hi : t.issue.inflight = []) (hm : t.issue.marks = 0#256)
    (htu : t.issue.tu = .free) (hsu : t.issue.su = .free) (hpu : t.issue.pu = .idle) :
    InFlightSound t := by
  refine ⟨⟨?_, fun n => ?_⟩, ?_, ?_⟩
  · simp [markedCells, hi]
  · simp [markedCells, hi, hm]
  · rw [unitsSound_iff, htu, hsu, hpu]
    simp [claimCount, hi, tuJobs, suJobs, suLoans, puScalars, puWholes]
  · simp [EntriesSound, hi]

/-- An issue starts a job at most, whose claim fits and whose cells carry no mark (R88). -/
theorem InFlightSound.issueJob (hs : InFlightSound s) {j : Job} (hissue : issuable s q = true)
    (hj : headJob (s.queue q) = some j) : InFlightSound (issueJob q j s) := by
  obtain ⟨-, -, -, -, hfit, hfree⟩ := issuable_parts hissue hj
  obtain ⟨hmarks, hunits, hentries⟩ := hs
  obtain ⟨c, -, h⟩ | ⟨c, -, h⟩ | ⟨cl, hcl, hcheck, e, he, h⟩ | ⟨fa, fb, c, b, -, h⟩ :=
    issueJob_cases q j s <;> rw [h]
  · exact InFlightSound.of_eq ⟨hmarks, hunits, hentries⟩ (setQueue_issue _ _ _)
  · exact InFlightSound.of_eq ⟨hmarks, hunits, hentries⟩ (setQueue_issue _ _ _)
  · have hsound : EntrySound e := he ▸ entrySound_captureEntry hcl hcheck
    have hclaim : e.claim = cl := by rw [he]; rfl
    have hdests : e.dests = destCells (s.queue q) j.desc := by rw [he]; rfl
    obtain ⟨-, -, -, -, hnodup, -⟩ := id hsound
    rw [hcl] at hfit
    refine ⟨hmarks.marked (e := e) (by simp) (by simp) hnodup fun n hn => ?_,
      hunits.claimed (e := e) (hclaim ▸ hfit) (by simp) (by simp [hclaim]) (by simp [hclaim])
        (by simp [hclaim]), ?_⟩
    · exact hfree n (List.mem_append_right _ (hdests ▸ hn))
    · rw [setQueue_issue]
      intro e' he'
      simp only [List.mem_append, List.mem_singleton] at he'
      obtain he' | rfl := he'
      exacts [hentries e' he', hsound]
  · exact InFlightSound.of_eq ⟨hmarks, hunits, hentries⟩ (setQueue_issue _ _ _)

theorem InFlightSound.examineHead (hs : InFlightSound s) (q : QueueId) :
    InFlightSound (examineHead q s) := by
  refine examineHead_ind (p := InFlightSound) hs fun w j n u hu _ hissue hj => ?_
  have hsu : InFlightSound u := by rw [hu]; exact hs.of_issue rfl
  exact hsu.issueJob hissue hj

theorem InFlightSound.completeJob (hs : InFlightSound s) (i : Nat) : InFlightSound (completeJob i s) := by
  cases h : s.issue.inflight[i]? with
  | none => rwa [completeJob_of_none h]
  | some e =>
    obtain ⟨hmarks, hunits, hentries⟩ := hs
    have hissue : (Machine.completeJob i s).issue = { releaseUnits s.issue e.claim with
        marks := clearMarks e.dests s.issue.marks, inflight := s.issue.inflight.eraseIdx i } := by
      rw [(completeJob_cell_issue h).2, retired_issue]
    refine ⟨hmarks.cleared h (by rw [hissue]) (by rw [hissue]),
      hunits.released h (by rw [hissue]) (by rw [hissue]) (by rw [hissue]) (by rw [hissue]), ?_⟩
    rw [hissue]
    exact fun e' he' => hentries e' (List.mem_of_mem_eraseIdx he')

theorem commitJob_issue (q : QueueId) (s : State) : (commitJob q s).issue = s.issue := by
  obtain ⟨-, h⟩ | ⟨-, -, h⟩ | ⟨-, -, h⟩ := commitJob_cases s q <;> simp [h]

theorem writeCqPop_issue (s : State) : (writeCqPop s).issue = s.issue := by
  obtain ⟨-, h⟩ | ⟨-, h⟩ := writeCqPop_cases s <;> simp [h]

theorem happenings_inFlightSound (hs : InFlightSound s) : Happenings InFlightSound s where
  same := hs
  powerOn := inFlightSound_of_empty rfl rfl rfl rfl rfl
  resetAssert _ _ := inFlightSound_of_empty rfl rfl rfl rfl rfl
  endPowerOn _ := hs.of_eq (leaveReset_frame { s with engine := { s.engine with por := false } }).2.2.2.1
  endPin _ := hs.of_eq (leaveReset_frame { s with engine := { s.engine with pin := false } }).2.2.2.1
  scrubEnd _ := hs.of_eq rfl
  tick _ := hs.of_eq (passTick_frame s).2.2.1
  cellAddr _ _ := hs.of_eq rfl
  cellData k _ := hs.of_eq (by rw [cellAccess_frame])
  completeRead _ := by unfold Machine.completeRead; split <;> exact hs.of_eq rfl
  commit q _ := hs.of_eq (commitJob_issue q s)
  haltMask q b _ := hs.of_eq (by simp [writeHaltMask])
  arbCtrl _ _ := hs.of_issue rfl
  cqHead _ := hs.of_eq rfl
  cqPop _ := hs.of_eq (writeCqPop_issue s)
  threshold _ _ := hs.of_eq rfl
  eventCode _ := hs.of_eq rfl
  evtAck _ _ := hs.of_eq rfl
  faultClear _ := hs.of_eq rfl
  plain a b _ := hs.of_eq (by rw [(plainChange_writePlain a b s).2])
  result _ _ := hs.of_eq rfl
  resume q _ := hs.of_eq (by rw [reportStall_issue, (resumeCommand_frame s q).2.1])
  pause q _ := hs.of_eq (by rw [reportStall_issue, (pauseCommand_frame s q).2.1])
  flush q _ := hs.of_eq (flushCommand_frame s q).2.1
  clearSticky q _ := hs.of_eq (clearStickyCommand_frame s q).2.1
  cellCommand t _ _ := hs.of_eq (by rw [cellCommand_frame])
  softReset _ := inFlightSound_of_empty rfl rfl rfl rfl rfl
  issue q := (hs.examineHead q).of_eq (reportStall_issue _ _)
  completion n := (hs.completeJob n.val).of_eq (reportStall_issue _ _)

end

/-- Settles O56: an issue adds one entry with its marks and its claim, a completion takes one out with them, a
reset takes all of them, and nothing else touches the marks, the units and the entries. -/
theorem stepKeepsInFlightSound : Obligations.StepKeepsInFlightSound := by
  intro s t hmarks hunits hentries hstep
  have hs : InFlightSound s := ⟨hmarks, hunits, hentries⟩
  exact step_ind (p := InFlightSound) hstep (fun rest => happenings_inFlightSound (hs.of_eq rfl))
    (fun u hu => hu.of_eq (passTick_frame u).2.2.1) (fun u _ hu => hu.of_eq rfl) hs
    (fun _ => hs.of_eq rfl) fun _ _ => hs.of_eq rfl

end Sys2Proof.Machine

/-! The proofs for the laws of the held access, the coalescing timer, the port, the arbiter and STARTING
(01_the_cell_store.md, R13 to R15; 07_the_completion_queue.md, R142, R143; R106, R109, R165, R168). -/

namespace Sys2Proof.Machine

section

variable {s t : State} {q : QueueId}

/-! ## The held access -/

theorem takesAccess_iff : takesAccess s = true ↔ inReset s = false ∧ s.cell.held = none := by
  simp [takesAccess, rdyLow]

theorem heldSound_of_none (h : t.cell.held = none) : HeldSound t := by
  intro a ha
  rw [h] at ha
  cases ha

/-- The port takes no access while one is held, so what leaves the held access leaves none. -/
theorem heldSound_of_taken (ht : takesAccess s = true) (h : t.cell.held = s.cell.held) : HeldSound t :=
  heldSound_of_none (h.trans (takesAccess_iff.1 ht).2)

theorem HeldSound.of_frame (hs : HeldSound s) (hheld : t.cell.held = s.cell.held)
    (haddr : t.cell.addr = s.cell.addr) (hmarks : ∀ n, isMarked s.issue.marks n = true →
      isMarked t.issue.marks n = true)
    (hlimit : t.port.waitLimit = s.port.waitLimit) (hengine : t.engine = s.engine) : HeldSound t := by
  intro a ha
  obtain ⟨hmark, hcell, hcount, hready, hreset⟩ := hs a (hheld ▸ ha)
  exact ⟨hmarks _ hmark, haddr.trans hcell, hlimit ▸ hcount, hengine ▸ hready,
    by rw [inReset, hengine]; exact hreset⟩

/-- A law that speaks of a held access holds where none can be held. -/
theorem HeldSound.held_eq_none (hs : HeldSound s) (h : s.engine.state = .starting ∨ inReset s = true) :
    s.cell.held = none := by
  cases ha : s.cell.held with
  | none => rfl
  | some a =>
    obtain ⟨-, -, -, hready, hreset⟩ := hs a ha
    simp [hready, hreset] at h

@[simp] theorem advanceAddr_held (c : CellStore) : (advanceAddr c).held = c.held := by
  unfold advanceAddr; split <;> rfl

theorem doAccess_held (k : AccessKind) (n : CellNo) (s : State) :
    (doAccess k n s).cell.held = s.cell.held := by
  cases k with
  | read => rfl
  | write b => simp [doAccess, doCellWrite]

theorem faultAccess_cell_held (k : AccessKind) (f : PortFault) (s : State) :
    (faultAccess k f s).cell.held = s.cell.held ∧ (faultAccess k f s).cell.addr = s.cell.addr := by
  cases k <;> exact ⟨rfl, rfl⟩

/-- An access of a marked cell becomes held as R13 has it, and no other access does. -/
theorem heldSound_cellAccess (k : AccessKind) (ht : takesAccess s = true) : HeldSound (cellAccess k s) := by
  obtain ⟨hreset, hnone⟩ := takesAccess_iff.1 ht
  unfold cellAccess
  split
  · exact heldSound_of_none (by rw [(faultAccess_cell_held _ _ _).1, hnone])
  next hstart =>
    split
    next hmark =>
      split
      · exact heldSound_of_none (by rw [(faultAccess_cell_held _ _ _).1, hnone])
      next hlimit =>
        intro a ha
        obtain rfl := Option.some.inj ha
        refine ⟨hmark, rfl, ?_, by cases h : s.engine.state <;> simp_all [holdAccess], hreset⟩
        exact Nat.pos_of_ne_zero fun hz => hlimit (BitVec.eq_of_toNat_eq hz)
    · exact heldSound_of_none (by rw [doAccess_held, hnone])

theorem HeldSound.passTick (hs : HeldSound s) : HeldSound (passTick s) := by
  by_cases hr : inReset s = true
  · simpa [Machine.passTick, hr] using hs
  rw [passTick_eq (by simpa using hr)]
  unfold advanceWait
  dsimp only
  split
  next hnone => exact heldSound_of_none hnone
  next a ha =>
    split
    · exact heldSound_of_none (faultAccess_cell_held _ _ _).1
    next hw =>
      obtain ⟨hmark, hcell, hcount, hready, hreset⟩ := hs a ha
      intro b hb
      obtain rfl := Option.some.inj hb
      refine ⟨hmark, hcell, ?_, hready, hreset⟩
      have hw : ¬s.port.waitLimit.toNat ≤ a.count + 1 := fun h => hw (by
        simp only [waitReached, ha]
        simpa [hmark] using h)
      simpa using hw

/-- A held access stays when its mark stays, and is carried out when its mark clears. -/
theorem HeldSound.completeJob (hs : HeldSound s) (i : Nat) : HeldSound (completeJob i s) := by
  cases h : s.issue.inflight[i]? with
  | none => rwa [completeJob_of_none h]
  | some e =>
    obtain ⟨hcell, hissue⟩ := completeJob_cell_issue h
    have hheld : (retired i e s).cell.held = s.cell.held := by
      rw [retired, retireJob_cell]
      split <;> simp
    have haddr : (retired i e s).cell.addr = s.cell.addr := by
      rw [retired, retireJob_cell]
      split
      · rfl
      · rw [putResults_eq]
    obtain ⟨hengine, hport, -⟩ := completeJob_frame s i
    intro a ha
    rw [hcell] at ha
    rw [hissue, hcell, hengine, hport, inReset, hengine, ← inReset]
    unfold settleHeld at ha ⊢
    split at ha
    next hnone => rw [hnone] at ha; cases ha
    next b hb =>
      split at ha
      next hmark =>
        obtain rfl : b = a := Option.some.inj (hb.symm.trans ha)
        obtain ⟨-, haddr', hcount, hready, hreset⟩ := hs b (hheld ▸ hb)
        simp only [hmark, if_true]
        exact ⟨trivial, haddr.trans haddr', hcount, hready, hreset⟩
      · rw [doAccess_held] at ha
        cases ha

theorem HeldSound.examineHead (hs : HeldSound s) (q : QueueId) : HeldSound (examineHead q s) := by
  refine examineHead_ind (p := HeldSound) hs fun w j n u hu _ _ _ => ?_
  have hsu : HeldSound u := by rw [hu]; exact hs.of_frame rfl rfl (fun _ => id) rfl rfl
  obtain ⟨hcell, hengine, hport, -⟩ := issueJob_frame u w j
  refine hsu.of_frame (by rw [hcell]) (by rw [hcell]) (fun n hn => ?_) (by rw [hport]) hengine
  obtain ⟨c, -, h⟩ | ⟨c, -, h⟩ | ⟨cl, -, -, e, -, h⟩ | ⟨fa, fb, c, b, -, h⟩ := issueJob_cases w j u <;>
    rw [h, setQueue_issue]
  · exact hn
  · exact hn
  · exact isMarked_setMarks.2 (.inl hn)
  · exact hn

theorem happenings_heldSound (hs : HeldSound s) : Happenings HeldSound s where
  same := hs
  powerOn := heldSound_of_none rfl
  resetAssert _ _ := heldSound_of_none rfl
  endPowerOn h := heldSound_of_none (by
    rw [(leaveReset_frame _).1]
    exact hs.held_eq_none (.inr (by simp [inReset, h])))
  endPin h := heldSound_of_none (by
    rw [(leaveReset_frame _).1]
    exact hs.held_eq_none (.inr (by simp [inReset, h])))
  scrubEnd h := heldSound_of_none (hs.held_eq_none (.inl (by simp_all [scrubRuns])))
  tick _ := hs.passTick
  cellAddr _ ht := heldSound_of_taken ht rfl
  cellData k ht := heldSound_cellAccess k ht
  completeRead ht := heldSound_of_taken ht (by unfold Machine.completeRead; split <;> simp)
  commit q ht := heldSound_of_taken ht (by rw [commitJob_cell])
  haltMask q b ht := heldSound_of_taken ht (by rw [writeHaltMask_cell])
  arbCtrl _ ht := heldSound_of_taken ht rfl
  cqHead ht := heldSound_of_taken ht rfl
  cqPop ht := heldSound_of_taken ht (by rw [writeCqPop_cell])
  threshold _ ht := heldSound_of_taken ht rfl
  eventCode ht := heldSound_of_taken ht rfl
  evtAck _ ht := heldSound_of_taken ht rfl
  faultClear ht := heldSound_of_taken ht rfl
  plain a b ht := heldSound_of_taken ht (by rw [(plainChange_writePlain a b s).2])
  result _ ht := heldSound_of_taken ht rfl
  resume q hr := heldSound_of_taken hr.1 (by
    obtain ⟨-, -, -, -, -, hcell, -⟩ := resumeCommand_frame s q
    rw [reportStall_cell, hcell])
  pause q hr := heldSound_of_taken hr.1 (by
    obtain ⟨-, -, -, -, -, hcell, -⟩ := pauseCommand_frame s q
    rw [reportStall_cell, hcell])
  flush q hr := heldSound_of_taken hr.1 (by
    obtain ⟨-, -, -, -, -, hcell, -⟩ := flushCommand_frame s q
    rw [hcell])
  clearSticky q hr := heldSound_of_taken hr.1 (by simp [clearStickyCommand])
  cellCommand t _ hr := heldSound_of_taken hr.1 (by rw [cellCommand_frame])
  softReset hr := heldSound_of_taken hr.1 rfl
  issue q := by
    have h := hs.examineHead q
    exact h.of_frame (by simp) (by simp) (by simp) (by simp) (by simp)
  completion n := by
    have h := hs.completeJob n.val
    exact h.of_frame (by simp) (by simp) (by simp) (by simp) (by simp)

/-! ## The coalescing timer -/

variable {c : CompletionQueue}

theorem TimerSound.of_frame {c' : CompletionQueue} (h : TimerSound c) (hring : c'.ring = c.ring)
    (htimer : c'.timer = c.timer) (hexp : c'.expired = c.expired) (hth : c'.threshold = c.threshold) :
    TimerSound c' := by
  unfold TimerSound
  rw [hring, htimer, hexp, hth]
  exact h

/-- A post starts the timer only where the flag is clear, with a length of 1 to 255 (R142). -/
theorem TimerSound.postRecord (h : TimerSound c) (r : Record) : TimerSound (postRecord r c) := by
  obtain ⟨hrun, -, hth⟩ := h
  refine ⟨fun n l hl => ?_, fun _ => by simp [Machine.postRecord], hth⟩
  simp only [Machine.postRecord, timerAtPost] at hl ⊢
  cases ht : c.timer with
  | running n' l' =>
    obtain ⟨h1, h2, -, h4⟩ := hrun n' l' ht
    rw [ht] at hl
    cases hl
    exact ⟨h1, h2, by simp, h4⟩
  | idle =>
    rw [ht] at hl
    dsimp only at hl
    split at hl
    next hstart =>
      cases hl
      simp only [Bool.and_eq_true, Bool.not_eq_true', bne_iff_ne] at hstart
      have hlt := c.coalesceTime.isLt
      refine ⟨Nat.pos_of_ne_zero fun hz => hstart.2 (BitVec.eq_of_toNat_eq hz), by omega, by simp, hstart.1⟩
    · cases hl

theorem TimerSound.slotEnded {c' : CompletionQueue} (h : TimerSound c) (he : SlotEnded c c') :
    TimerSound c' := by
  have hr : TimerSound (releaseSlot c) := h.of_frame rfl rfl rfl rfl
  obtain rfl | ⟨r, rfl⟩ := he
  exacts [hr, hr.postRecord r]

theorem TimerSound.popRecord (h : TimerSound c) : TimerSound (popRecord c) := by
  obtain ⟨hrun, hexp, hth⟩ := id h
  unfold Machine.popRecord
  split
  · exact h
  · exact ⟨by simp, by simp, hth⟩
  next r rs hne hring =>
    have hrs : rs ≠ [] := fun hnil => hne hnil
    refine ⟨fun n l hl => ?_, fun _ => hrs, hth⟩
    obtain ⟨h1, h2, -, h4⟩ := hrun n l hl
    exact ⟨h1, h2, hrs, h4⟩

theorem TimerSound.advanceTimer (h : TimerSound c) : TimerSound (advanceTimer c) := by
  obtain ⟨hrun, hexp, hth⟩ := id h
  unfold Machine.advanceTimer
  split
  · exact h
  next n l ht =>
    obtain ⟨h1, h2, h3, h4⟩ := hrun n l ht
    split
    · exact ⟨by simp, fun _ => h3, hth⟩
    next hreached =>
      simp only [timerReached, ht, decide_eq_true_eq, not_le] at hreached
      refine ⟨fun n' l' hl => ?_, hexp, hth⟩
      cases hl
      exact ⟨hreached, h2, h3, h4⟩

theorem TimerSound.passTick (h : TimerSound s.cq) : TimerSound (passTick s).cq := by
  unfold Machine.passTick
  split
  · exact h
  · rw [advanceWait_frame]
    exact h.advanceTimer

theorem TimerSound.issueJob (h : TimerSound s.cq) (q : QueueId) (j : Job) :
    TimerSound (issueJob q j s).cq := by
  obtain ⟨c, -, hc⟩ | ⟨c, -, hc⟩ | ⟨cl, -, -, e, -, hc⟩ | ⟨fa, fb, c, b, hcq, hc⟩ := issueJob_cases q j s <;>
    rw [hc, setQueue_cq]
  · exact h.postRecord _
  · exact h.of_frame rfl rfl rfl rfl
  · exact h.of_frame rfl rfl rfl rfl
  · obtain rfl | ⟨r, rfl⟩ := hcq
    exacts [h, h.postRecord r]

theorem TimerSound.completeJob (h : TimerSound s.cq) (i : Nat) : TimerSound (completeJob i s).cq := by
  cases he : s.issue.inflight[i]? with
  | none => rwa [completeJob_of_none he]
  | some e =>
    cases completionEnd_completeJob he with
    | halted _ _ hcq => exact h.slotEnded (.inr hcq)
    | running _ _ hcq => exact h.slotEnded hcq
    | paused _ _ _ hcq => exact h.slotEnded hcq
    | drained _ _ _ _ hcq =>
      obtain ⟨c, r, hc, hcq⟩ := hcq
      exact (h.slotEnded hc).slotEnded (.inr ⟨r, hcq⟩)

theorem timerSound_reset : TimerSound CompletionQueue.reset :=
  ⟨by simp [CompletionQueue.reset], by simp [CompletionQueue.reset], by decide, by decide⟩

theorem writeThreshold_range (b : Byte) (s : State) :
    1 ≤ (writeThreshold b s).cq.threshold.toNat ∧ (writeThreshold b s).cq.threshold.toNat ≤ 32 := by
  have hpos : b ≠ 0#8 → 1 ≤ b.toNat := fun h => Nat.pos_of_ne_zero fun hz => h (BitVec.eq_of_toNat_eq hz)
  simp only [writeThreshold]
  split
  · decide
  next hb =>
    split
    · decide
    · exact ⟨hpos hb, by omega⟩

theorem happenings_timerSound (h : TimerSound s.cq) : Happenings (fun t => TimerSound t.cq) s where
  same := h
  powerOn := timerSound_reset
  resetAssert _ _ := timerSound_reset
  endPowerOn _ := by
    obtain ⟨-, -, -, -, hc, -⟩ := leaveReset_frame { s with engine := { s.engine with por := false } }
    rwa [hc]
  endPin _ := by
    obtain ⟨-, -, -, -, hc, -⟩ := leaveReset_frame { s with engine := { s.engine with pin := false } }
    rwa [hc]
  scrubEnd _ := h
  tick _ := h.passTick
  cellAddr _ _ := h
  cellData k _ := by rw [cellAccess_frame]; exact h
  completeRead _ := by unfold Machine.completeRead; split <;> exact h
  commit q _ := by
    obtain ⟨-, hc⟩ | ⟨-, -, hc⟩ | ⟨-, -, hc⟩ := commitJob_cases s q <;> simpa [hc] using h
  haltMask q b _ := by simpa [writeHaltMask] using h
  arbCtrl _ _ := h
  cqHead _ := h.of_frame rfl rfl rfl rfl
  cqPop _ := by
    obtain ⟨-, hc⟩ | ⟨-, hc⟩ := writeCqPop_cases s <;> rw [hc]
    · exact h
    · rw [reportStall_cq]
      exact h.popRecord
  threshold b _ := ⟨h.1, h.2.1, writeThreshold_range b s⟩
  eventCode _ := h
  evtAck _ _ := h
  faultClear _ := h
  plain a b _ := by
    rw [(plainChange_writePlain a b s).2]
    exact h.of_frame rfl rfl rfl rfl
  result _ _ := h
  resume q _ := by
    obtain ⟨-, -, -, -, -, -, hc | ⟨r, hc⟩⟩ := resumeCommand_frame s q <;> rw [reportStall_cq, hc]
    exacts [h, h.postRecord r]
  pause q _ := by
    obtain ⟨-, -, -, -, -, -, hc⟩ := pauseCommand_frame s q
    rwa [reportStall_cq, hc]
  flush q _ := by
    obtain ⟨-, -, -, -, -, -, hc⟩ := flushCommand_frame s q
    rwa [hc]
  clearSticky q _ := by simpa [clearStickyCommand] using h
  cellCommand t _ _ := by rw [cellCommand_frame]; exact h
  softReset _ := ⟨by simp [softReset], by simp [softReset], h.2.2⟩
  issue q := by
    rw [reportStall_cq]
    exact examineHead_ind (p := fun t => TimerSound t.cq) h fun w j n u hu _ _ _ =>
      TimerSound.issueJob (by rw [hu]; exact h) w j
  completion n := by
    rw [reportStall_cq]
    exact h.completeJob n.val

/-! ## The port -/

variable {p : HostPort}

theorem PortSound.of_frame {p' : HostPort} (h : PortSound p) (htb : p'.timebase = p.timebase)
    (hdiv : p'.divider = p.divider) (hlen : p'.tickLength = p.tickLength)
    (hcode : p'.faultCode = p.faultCode) (haddr : p'.faultAddr = p.faultAddr)
    (hcount : p'.faultCount = p.faultCount) : PortSound p' := by
  unfold PortSound
  rw [htb, hdiv, hlen, hcode, haddr, hcount]
  exact h

theorem PortSound.enterFault (h : PortSound s.port) {f : PortFault} (hf : f ≠ .none) (a : Byte) :
    PortSound (enterFault f a s).port := by
  obtain ⟨h1, h2, h3, h4, h5⟩ := h
  unfold Machine.enterFault
  dsimp only
  split
  · exact ⟨h1, h2, h3, h4, fun hn => absurd hn hf⟩
  next hn => exact ⟨h1, h2, h3, h4, fun hn' => absurd hn' hn⟩

theorem PortSound.faultAccess (h : PortSound s.port) {f : PortFault} (hf : f ≠ .none) (k : AccessKind) :
    PortSound (faultAccess k f s).port := by
  cases k with
  | read => exact PortSound.enterFault (s := answer 0#8 { s with cell := _ }) h hf _
  | write b => exact h.enterFault hf _

theorem PortSound.cellAccess (h : PortSound s.port) (k : AccessKind) :
    PortSound (cellAccess k s).port := by
  unfold Machine.cellAccess
  split
  · exact h.faultAccess (by decide) k
  split
  · split
    · exact h.faultAccess (by decide) k
    · exact h
  · rw [doAccess_frame]
    exact h

/-- A tick that begins takes TIMEBASE as its length (R165). -/
theorem PortSound.restarted (h : PortSound p) :
    PortSound { p with divider := 0, tickLength := p.timebase.toNat } := by
  obtain ⟨h1, h2, -, -, h5⟩ := h
  exact ⟨h1, h2, h1, h2, h5⟩

theorem PortSound.passTick (h : PortSound s.port) : PortSound (passTick s).port := by
  unfold Machine.passTick
  split
  · exact h
  unfold advanceWait
  dsimp only
  split
  · exact h.restarted
  · split
    · exact PortSound.faultAccess (s := { s with
        cell := _, cq := _, port := { s.port with divider := 0, tickLength := s.port.timebase.toNat } })
        h.restarted (by decide) _
    · exact h.restarted

theorem PortSound.leaveReset {e : Engine} (h : PortSound s.port) :
    PortSound (leaveReset { s with engine := e }).port := by
  unfold Machine.leaveReset
  split
  · exact h
  · exact h.restarted.of_frame rfl rfl rfl rfl rfl rfl

theorem portSound_hardReset (s : State) : PortSound (hardReset s).port :=
  ⟨by simp [hardReset, HostPort.reset], by simp [hardReset, HostPort.reset],
    by simp [hardReset, HostPort.reset], by simp [hardReset, HostPort.reset],
    fun _ => ⟨rfl, rfl⟩⟩

theorem PortSound.plain (h : PortSound s.port) (a : WindowAddr) (b : Byte) :
    PortSound (writePlain a b s).port := by
  obtain ⟨h1, h2, h3, h4, h5⟩ := h
  obtain ⟨htb, heq⟩ := plainChange_writePlain a b s
  have hrange : 1 ≤ (writePlain a b s).port.timebase.toNat ∧ (writePlain a b s).port.timebase.toNat ≤ 64 := by
    obtain h | h := htb <;> rw [h]
    exacts [⟨h1, h2⟩, clampTimebase_range b]
  rw [heq]
  exact ⟨hrange.1, hrange.2, h3, h4, h5⟩

theorem happenings_portSound (h : PortSound s.port) : Happenings (fun t => PortSound t.port) s where
  same := h
  powerOn := portSound_hardReset s
  resetAssert _ _ := portSound_hardReset s
  endPowerOn _ := h.leaveReset
  endPin _ := h.leaveReset
  scrubEnd _ := h
  tick _ := h.passTick
  cellAddr _ _ := h
  cellData k _ := h.cellAccess k
  completeRead _ := by unfold Machine.completeRead; split <;> exact h
  commit q _ := by
    obtain ⟨-, hc⟩ | ⟨-, -, hc⟩ | ⟨-, -, hc⟩ := commitJob_cases s q <;> rw [hc]
    · exact h.enterFault (by decide) _
    · exact h.enterFault (by decide) _
    · simpa using h
  haltMask q b _ := by simpa [writeHaltMask] using h
  arbCtrl _ _ := h
  cqHead _ := h
  cqPop _ := by
    obtain ⟨-, hc⟩ | ⟨-, hc⟩ := writeCqPop_cases s <;> rw [hc]
    · exact h.enterFault (by decide) _
    · simpa using h
  threshold _ _ := h
  eventCode _ := h
  evtAck _ _ := h
  faultClear _ := by
    obtain ⟨h1, h2, h3, h4, -⟩ := h
    exact ⟨h1, h2, h3, h4, fun _ => ⟨rfl, rfl⟩⟩
  plain a b _ := h.plain a b
  result _ _ := h.of_frame rfl rfl rfl rfl rfl rfl
  resume q _ := by
    obtain ⟨-, -, -, -, hp, -⟩ := resumeCommand_frame s q
    rw [reportStall_port, hp]
    exact h.of_frame rfl rfl rfl rfl rfl rfl
  pause q _ := by
    obtain ⟨-, -, -, -, hp, -⟩ := pauseCommand_frame s q
    rw [reportStall_port, hp]
    exact h.of_frame rfl rfl rfl rfl rfl rfl
  flush q _ := by
    obtain ⟨-, -, -, -, hp, -⟩ := flushCommand_frame s q
    rw [hp]
    exact h.of_frame rfl rfl rfl rfl rfl rfl
  clearSticky q _ := by
    obtain ⟨-, -, -, -, hp, -⟩ := clearStickyCommand_frame s q
    rw [hp]
    exact h.of_frame rfl rfl rfl rfl rfl rfl
  cellCommand t _ _ := by
    rw [cellCommand_frame]
    exact h.of_frame rfl rfl rfl rfl rfl rfl
  softReset _ := h.of_frame rfl rfl rfl rfl rfl rfl
  issue q := by
    rw [reportStall_port]
    exact examineHead_ind (p := fun t => PortSound t.port) h fun w j n u hu _ _ _ => by
      rw [(issueJob_frame u w j).2.2.1, hu]
      exact h
  completion n := by
    rw [reportStall_port, (completeJob_frame s n.val).2.1]
    exact h

/-! ## The arbiter -/

theorem ArbiterSound.of_frame (h : ArbiterSound s.issue) (hst : t.issue.starvation = s.issue.starvation)
    (hk : t.issue.guardK = s.issue.guardK) : ArbiterSound t.issue := by
  rwa [ArbiterSound, hst, hk]

theorem ArbiterSound.of_eq (h : ArbiterSound s.issue) (hi : t.issue = s.issue) : ArbiterSound t.issue :=
  hi ▸ h

theorem arbiterSound_of_zero (h : t.issue.starvation = 0) : ArbiterSound t.issue := by
  rw [ArbiterSound, h]
  exact Nat.zero_le _

theorem happenings_arbiterSound (h : ArbiterSound s.issue) :
    Happenings (fun t => ArbiterSound t.issue) s where
  same := h
  powerOn := arbiterSound_of_zero rfl
  resetAssert _ _ := arbiterSound_of_zero rfl
  endPowerOn _ := h.of_eq (leaveReset_frame { s with engine := { s.engine with por := false } }).2.2.2.1
  endPin _ := h.of_eq (leaveReset_frame { s with engine := { s.engine with pin := false } }).2.2.2.1
  scrubEnd _ := h
  tick _ := h.of_eq (passTick_frame s).2.2.1
  cellAddr _ _ := h
  cellData k _ := by rw [cellAccess_frame]; exact h
  completeRead _ := by unfold Machine.completeRead; split <;> exact h
  commit q _ := h.of_eq (commitJob_issue q s)
  haltMask q b _ := h.of_eq (by simp [writeHaltMask])
  arbCtrl _ _ := arbiterSound_of_zero rfl
  cqHead _ := h
  cqPop _ := h.of_eq (writeCqPop_issue s)
  threshold _ _ := h
  eventCode _ := h
  evtAck _ _ := h
  faultClear _ := h
  plain a b _ := h.of_eq (by rw [(plainChange_writePlain a b s).2])
  result _ _ := h
  resume q _ := h.of_eq (by rw [reportStall_issue, (resumeCommand_frame s q).2.1])
  pause q _ := h.of_eq (by rw [reportStall_issue, (pauseCommand_frame s q).2.1])
  flush q _ := h.of_eq (flushCommand_frame s q).2.1
  clearSticky q _ := h.of_eq (clearStickyCommand_frame s q).2.1
  cellCommand t _ _ := h.of_eq (by rw [cellCommand_frame])
  softReset _ := arbiterSound_of_zero rfl
  issue q := by
    rw [reportStall_issue]
    refine examineHead_ind (p := fun t => ArbiterSound t.issue) h fun w j n u hu hn _ _ => ?_
    have hau : ArbiterSound u.issue := by
      rw [hu]
      obtain rfl | hn := hn
      exacts [h, hn]
    obtain ⟨-, -, -, hst, hk, -⟩ := issueJob_frame u w j
    exact hau.of_frame hst hk
  completion n := by
    rw [reportStall_issue]
    obtain ⟨-, -, hst, hk, -⟩ := completeJob_frame s n.val
    exact h.of_frame hst hk

/-! ## STARTING -/

/-- The queues are PAUSED and empty, nothing is in flight, and the completion queue is empty (R109, R147). -/
def EmptyPart (s : State) : Prop :=
  (∀ q, (s.queue q).state = .paused ∧ (s.queue q).ring = [] ∧ (s.queue q).retry = none) ∧
  s.issue.inflight = [] ∧ s.cq.ring = [] ∧ s.cq.reserved = 0

theorem startingSound_iff : StartingSound s ↔
    s.engine.state = .ready ∧ inReset s = false ∨ s.engine.state = .starting ∧ EmptyPart s := by
  simp only [StartingSound, EmptyPart, forall_queueId, queue_q0, queue_q1, and_assoc]
  cases s.engine.state <;> simp

theorem startingSound_of_ready (hr : HostReady s) (he : t.engine = s.engine) : StartingSound t :=
  startingSound_iff.2 (.inl ⟨he ▸ hr.2, by rw [inReset, he]; exact (takesAccess_iff.1 hr.1).1⟩)

/-- Only what leaves the engine and an empty part as they are is left to look at in STARTING. -/
theorem StartingSound.of_frame (h : StartingSound s) (he : t.engine = s.engine)
    (hempty : s.engine.state = .starting → EmptyPart s → EmptyPart t) : StartingSound t := by
  rw [startingSound_iff, he, inReset, he, ← inReset]
  exact (startingSound_iff.1 h).imp_right fun ⟨hs, hp⟩ => ⟨hs, hempty hs hp⟩

theorem EmptyPart.of_frame (h : EmptyPart s) (hq : t.queue = s.queue)
    (hi : t.issue.inflight = s.issue.inflight) (hring : t.cq.ring = s.cq.ring)
    (hres : t.cq.reserved = s.cq.reserved) : EmptyPart t := by
  unfold EmptyPart
  rw [hq, hi, hring, hres]
  exact h

theorem StartingSound.of_same (h : StartingSound s) (he : t.engine = s.engine) (hq : t.queue = s.queue)
    (hi : t.issue.inflight = s.issue.inflight) (hring : t.cq.ring = s.cq.ring)
    (hres : t.cq.reserved = s.cq.reserved) : StartingSound t :=
  h.of_frame he fun _ hp => hp.of_frame hq hi hring hres

theorem emptyPart_hardReset (s : State) (e : Engine) : EmptyPart { hardReset s with engine := e } :=
  ⟨fun q => by cases q <;> exact ⟨rfl, rfl, rfl⟩, rfl, rfl, rfl⟩

/-- While something holds the part reset it is in STARTING, and the release leaves it there. -/
theorem StartingSound.leaveReset (h : StartingSound s) (hr : inReset s = true) {e : Engine}
    (he : e.state = s.engine.state) : StartingSound (leaveReset { s with engine := e }) := by
  have hstart : s.engine.state = .starting ∧ EmptyPart s :=
    (startingSound_iff.1 h).resolve_left fun hn => by rw [hr] at hn; simp at hn
  obtain ⟨-, h0, h1, hi, hc, -, -⟩ := leaveReset_frame { s with engine := e }
  refine startingSound_iff.2 (.inr ⟨?_, hstart.2.of_frame (queue_eq_of h0 h1) (by rw [hi]) (by rw [hc])
    (by rw [hc])⟩)
  unfold Machine.leaveReset
  split
  · exact he.trans hstart.1
  · rfl

theorem scrubRuns_iff : scrubRuns s = true ↔ s.engine.state = .starting ∧ inReset s = false := by
  simp [scrubRuns]

theorem StartingSound.commitJob (h : StartingSound s) (q : QueueId) : StartingSound (commitJob q s) := by
  obtain ⟨-, hc⟩ | ⟨-, -, hc⟩ | ⟨hne, -, hc⟩ := commitJob_cases s q <;> rw [hc]
  · exact h.of_same rfl rfl rfl rfl rfl
  · exact h.of_same rfl rfl rfl rfl rfl
  · exact h.of_frame (by simp) fun hs => absurd hs hne

theorem StartingSound.writeHaltMask (h : StartingSound s) (q : QueueId) (b : Byte) :
    StartingSound (writeHaltMask q b s) := by
  refine h.of_frame (by simp [Machine.writeHaltMask]) fun _ ⟨hq, hrest⟩ => ⟨fun w => ?_, ?_⟩
  · rw [Machine.writeHaltMask, reportStall_queue]
    obtain rfl | rfl := eq_or_eq_other q w
    · rw [setQueue_queue]
      exact hq _
    · rw [setQueue_queue_other]
      exact hq _
  · simpa [Machine.writeHaltMask] using hrest

theorem StartingSound.writeCqPop (h : StartingSound s) : StartingSound (writeCqPop s) := by
  obtain ⟨-, hc⟩ | ⟨hne, hc⟩ := writeCqPop_cases s <;> rw [hc]
  · exact h.of_same rfl rfl rfl rfl rfl
  · exact h.of_frame (by simp) fun _ ⟨_, _, hring, _⟩ => absurd hring hne

/-- In STARTING no head is issuable. -/
theorem StartingSound.examineHead (h : StartingSound s) (q : QueueId) : StartingSound (examineHead q s) := by
  refine examineHead_ind (p := StartingSound) h fun w j n u hu _ hissue hj => ?_
  have hsu : StartingSound u := by rw [hu]; exact h.of_same rfl (queue_eq_of rfl rfl) rfl rfl rfl
  refine hsu.of_frame (issueJob_frame u w j).2.1 fun _ ⟨hq, _⟩ => ?_
  have hactive := (issuable_parts hissue hj).1
  rw [(hq w).1] at hactive
  cases hactive

theorem StartingSound.completeJob (h : StartingSound s) (i : Nat) : StartingSound (completeJob i s) :=
  h.of_frame (completeJob_frame s i).1 fun _ hp => by
    obtain ⟨-, hi, -⟩ := id hp
    rwa [completeJob_of_none (by simp [hi])]

theorem StartingSound.passTick (h : StartingSound s) : StartingSound (passTick s) := by
  obtain ⟨-, he, hi, -, -, -, hring, hres, -⟩ := passTick_frame s
  exact h.of_same he (queue_passTick s) (by rw [hi]) hring hres

theorem StartingSound.reportStall (h : StartingSound t) (r : State) : StartingSound (reportStall r t) :=
  h.of_same (by simp) (queue_eq_of (by simp) (by simp)) (by simp) (by simp) (by simp)

theorem happenings_startingSound (h : StartingSound s) : Happenings StartingSound s where
  same := h
  powerOn := startingSound_iff.2 (.inr ⟨rfl, emptyPart_hardReset s _⟩)
  resetAssert _ _ := startingSound_iff.2 (.inr ⟨rfl, emptyPart_hardReset s _⟩)
  endPowerOn hp := h.leaveReset (by simp [inReset, hp]) rfl
  endPin hp := h.leaveReset (by simp [inReset, hp]) rfl
  scrubEnd hr := startingSound_iff.2 (.inl ⟨rfl, (scrubRuns_iff.1 hr).2⟩)
  tick _ := h.passTick
  cellAddr _ _ := h.of_same rfl rfl rfl rfl rfl
  cellData k _ := h.of_same (by rw [cellAccess_frame]) (queue_cellAccess k s) (by rw [cellAccess_frame])
    (by rw [cellAccess_frame]) (by rw [cellAccess_frame])
  completeRead _ := by unfold Machine.completeRead; split <;> exact h.of_same rfl rfl rfl rfl rfl
  commit q _ := h.commitJob q
  haltMask q b _ := h.writeHaltMask q b
  arbCtrl _ _ := h.of_same rfl (queue_eq_of rfl rfl) rfl rfl rfl
  cqHead _ := h.of_same rfl rfl rfl rfl rfl
  cqPop _ := h.writeCqPop
  threshold _ _ := h.of_same rfl rfl rfl rfl rfl
  eventCode _ := h.of_same rfl rfl rfl rfl rfl
  evtAck _ _ := h.of_same rfl rfl rfl rfl rfl
  faultClear _ := h.of_same rfl rfl rfl rfl rfl
  plain a b _ := by
    rw [(plainChange_writePlain a b s).2]
    exact h.of_same rfl rfl rfl rfl rfl
  result _ _ := h.of_same rfl rfl rfl rfl rfl
  resume q hr := startingSound_of_ready hr (by rw [reportStall_engine, (resumeCommand_frame s q).1])
  pause q hr := startingSound_of_ready hr (by rw [reportStall_engine, (pauseCommand_frame s q).1])
  flush q hr := startingSound_of_ready hr (flushCommand_frame s q).1
  clearSticky q hr := startingSound_of_ready hr (clearStickyCommand_frame s q).1
  cellCommand t _ hr := startingSound_of_ready hr (by rw [cellCommand_frame])
  softReset hr := startingSound_of_ready hr rfl
  issue q := (h.examineHead q).reportStall s
  completion n := (h.completeJob n.val).reportStall s

end

/-- Settles O59: each of the five laws is kept by every happening and by every part of a clock period. A held
access goes with its mark, the timer with the ring, and in STARTING nothing is there that could move. -/
theorem stepKeepsPortAndTimersSound : Obligations.StepKeepsPortAndTimersSound := by
  intro s t hstep
  refine ⟨fun h => ?_, fun h => ?_, fun h => ?_, fun h => ?_, fun h => ?_⟩
  · exact step_ind hstep (fun _ => happenings_heldSound h) (fun u hu => hu.passTick) (fun u _ hu => hu) h
      (fun hr => heldSound_of_none (h.held_eq_none (.inl (scrubRuns_iff.1 hr).1)))
      fun hr _ => heldSound_of_none (h.held_eq_none (.inl (scrubRuns_iff.1 hr).1))
  · exact step_ind (p := fun t => TimerSound t.cq) hstep (fun _ => happenings_timerSound h)
      (fun u hu => hu.passTick) (fun u _ hu => hu) h (fun _ => h) fun _ _ => h
  · refine step_ind (p := fun t => PortSound t.port) hstep (fun _ => happenings_portSound h)
      (fun u hu => hu.passTick) (fun u hl hu => ?_) h (fun _ => h) fun _ _ => h
    obtain ⟨h1, h2, -, h4, h5⟩ := hu
    exact ⟨h1, h2, hl, h4, h5⟩
  · exact step_ind (p := fun t => ArbiterSound t.issue) hstep (fun _ => happenings_arbiterSound h)
      (fun u hu => hu.of_eq (passTick_frame u).2.2.1) (fun u _ hu => hu) h (fun _ => h) fun _ _ => h
  · refine step_ind (p := StartingSound) hstep
      (fun _ => happenings_startingSound (h.of_same rfl (queue_eq_of rfl rfl) rfl rfl rfl))
      (fun u hu => hu.passTick) (fun u _ hu => hu.of_same rfl (queue_eq_of rfl rfl) rfl rfl rfl) h
      (fun hr => startingSound_iff.2 (.inl ⟨rfl, (scrubRuns_iff.1 hr).2⟩)) fun hr _ => ?_
    obtain ⟨hn, -⟩ | ⟨hs, hp⟩ := startingSound_iff.1 h
    · rw [(scrubRuns_iff.1 hr).1] at hn
      cases hn
    · exact startingSound_iff.2 (.inr ⟨hs, hp.of_frame (queue_eq_of rfl rfl) rfl rfl rfl⟩)

end Sys2Proof.Machine


/-! Steps, totality, and the happenings that change nothing. -/

namespace Sys2Proof.Machine

section
variable {s : State}

/-! ## Steps -/

theorem step_of_pending {c : Instr} {rest : List Instr} (h : s.pending = c :: rest) :
    step s = exec c { s with pending := rest } := by
  simp [step, h]

theorem step_of_idle (h : s.pending = []) : step s = .next (clockPeriod s) := by
  simp [step, h]

theorem clockPeriod_of_inReset (h : inReset s = true) : clockPeriod s = s := by
  simp [clockPeriod, h]

theorem scrubRuns_of_ready (h : s.engine.state = .ready) : scrubRuns s = false := by
  simp [scrubRuns, h]

/-- In READY a clock period is the tick divider's count alone (R165). -/
theorem clockPeriod_of_ready (hr : inReset s = false) (h : s.engine.state = .ready) :
    clockPeriod s = if s.port.tickLength ≤ s.port.divider + 1 then passTick s
      else { s with port := { s.port with divider := s.port.divider + 1 } } := by
  simp [clockPeriod, hr, scrubRuns_of_ready h]

end

/-- Settles O1: the first command of a queue that is not empty is the one `step` takes. -/
theorem stepRunsFrontCommand : Obligations.StepRunsFrontCommand :=
  fun _ _ _ h => step_of_pending h

/-- Settles O2, by the three ways an idle clock period can go. -/
theorem idleStepIsOneClockPeriod : Obligations.IdleStepIsOneClockPeriod := by
  intro s hp
  rw [step_of_idle hp]
  refine ⟨fun hr => ?_, fun hr he hd => ?_, fun hr he hd => ?_⟩
  · rw [clockPeriod_of_inReset hr]
  · rw [clockPeriod_of_ready hr he, if_neg (not_le.2 hd)]
  · rw [clockPeriod_of_ready hr he, if_pos hd]; rfl

/-! ## The waiting commands -/

section
variable (s : State) (q : QueueId)

@[simp] theorem leaveReset_pending : (leaveReset s).pending = s.pending := by
  unfold leaveReset; split <;> rfl

@[simp] theorem cellAccess_pending (k : AccessKind) : (cellAccess k s).pending = s.pending := by
  rw [cellAccess_frame]

@[simp] theorem completeRead_pending : (completeRead s).pending = s.pending := by
  unfold completeRead; split <;> rfl

@[simp] theorem commitJob_pending : (commitJob q s).pending = s.pending := by
  rcases commitJob_cases s q with ⟨-, h⟩ | ⟨-, -, h⟩ | ⟨-, -, h⟩ <;> simp [h]

@[simp] theorem writeCqPop_pending : (writeCqPop s).pending = s.pending := by
  rcases writeCqPop_cases s with ⟨-, h⟩ | ⟨-, h⟩ <;> simp [h]

@[simp] theorem writePlain_pending (a : WindowAddr) (b : Byte) :
    (writePlain a b s).pending = s.pending := by
  rw [(plainChange_writePlain a b s).2]

@[simp] theorem cellCommand_pending (t : Tag) : (cellCommand t s).pending = s.pending := by
  rw [cellCommand_frame]

@[simp] theorem examineHead_pending : (examineHead q s).pending = s.pending := by
  rcases examineHead_cases q s with h | ⟨w, j, n, -, -, -, h⟩
  · rw [h]
  · obtain ⟨-, -, -, -, -, -, hp, -⟩ := issueJob_frame { s with issue := { s.issue with starvation := n } } w j
    rw [h, hp]

/-- No happening touches the waiting commands. -/
theorem happenings_pending : Happenings (fun t => t.pending = s.pending) s where
  same := rfl
  powerOn := rfl
  resetAssert _ _ := rfl
  endPowerOn _ := leaveReset_pending _
  endPin _ := leaveReset_pending _
  scrubEnd _ := rfl
  tick _ := by obtain ⟨-, -, -, -, -, -, -, -, h⟩ := passTick_frame s; exact h
  cellAddr _ _ := rfl
  cellData k _ := cellAccess_pending s k
  completeRead _ := completeRead_pending s
  commit q _ := commitJob_pending s q
  haltMask q b _ := by simp [writeHaltMask]
  arbCtrl _ _ := rfl
  cqHead _ := rfl
  cqPop _ := writeCqPop_pending s
  threshold _ _ := rfl
  eventCode _ := rfl
  evtAck _ _ := rfl
  faultClear _ := rfl
  plain a b _ := writePlain_pending s a b
  result _ _ := rfl
  resume q _ := by obtain ⟨-, -, -, h, -⟩ := resumeCommand_frame s q; simpa using h
  pause q _ := by obtain ⟨-, -, h, -⟩ := pauseCommand_frame s q; simpa using h
  flush q _ := by obtain ⟨-, -, h, -⟩ := flushCommand_frame s q; exact h
  clearSticky q _ := by obtain ⟨-, -, h, -⟩ := clearStickyCommand_frame s q; exact h
  cellCommand t _ _ := cellCommand_pending s t
  softReset _ := rfl
  issue q := by simp
  completion n := by obtain ⟨-, -, -, -, h, -⟩ := completeJob_frame s n.val; simpa using h

end

/-- Settles O3: each command's outcome is that of a happening, and none touches the waiting commands. -/
theorem everyCommandAnswersNext : Obligations.EveryCommandAnswersNext :=
  fun c s => (happenings_pending s).exec c

/-! ## Happenings that cannot happen -/

section
variable {s : State}

theorem waitReached_of_none (h : s.cell.held = none) : waitReached s = false := by
  simp [waitReached, h]

/-- A held access reaches its limit at the next boundary exactly while its cell is marked (R15). -/
theorem waitReached_iff {a : HeldAccess} (h : s.cell.held = some a) : waitReached s = true ↔
    isMarked s.issue.marks a.cell = true ∧ s.port.waitLimit.toNat ≤ a.count + 1 := by
  simp [waitReached, h]

theorem timerReached_of_idle {c : CompletionQueue} (h : c.timer = .idle) : timerReached c = false := by
  simp [timerReached, h]

theorem timerReached_iff {c : CompletionQueue} {n l : Nat} (h : c.timer = .running n l) :
    timerReached c = true ↔ l ≤ n + 1 := by
  simp [timerReached, h]

theorem examineHead_of_not_issuable {q : QueueId} (h : issuable s q = false) : examineHead q s = s := by
  simp [examineHead, inConflict, h]

theorem exec_waitTimeout_of_not_reached (h : waitReached s = false) : exec .waitTimeout s = .next s := by
  simp [exec, execWaitTimeout, h]

theorem exec_expiry_of_not_reached (h : timerReached s.cq = false) :
    exec .coalescingTimerExpiry s = .next s := by
  simp [exec, execCoalescingTimerExpiry, h]

end

/-- Settles O4: each happening is guarded by a test that fails in the state at hand. -/
theorem impossibleHappeningsChangeNothing : Obligations.ImpossibleHappeningsChangeNothing := by
  intro s
  refine ⟨fun h => ?_, fun h => ?_, fun h => ?_, fun h => ?_, fun h => ?_, fun h => ?_, fun a ha h => ?_,
    fun h => ?_, fun n l hn h => ?_, fun n h => ?_, fun q h => ?_⟩
  · simp [exec, execResetAssert, h]
  · simp [exec, execResetRelease, h]
  · simp [exec, execResetRelease, h]
  · have : scrubRuns s = false := by rcases h with h | h <;> simp [scrubRuns, h]
    simp [exec, execScrubEnd, this]
  · simp [exec, execTickBoundary, passTick, h]
  · exact exec_waitTimeout_of_not_reached (waitReached_of_none h)
  · refine exec_waitTimeout_of_not_reached (Bool.eq_false_iff.2 fun hw => ?_)
    obtain ⟨hm, hl⟩ := (waitReached_iff ha).1 hw
    rcases h with h | h
    · omega
    · rw [h] at hm; cases hm
  · exact exec_expiry_of_not_reached (timerReached_of_idle h)
  · exact exec_expiry_of_not_reached (Bool.eq_false_iff.2 fun ht => by
      have := (timerReached_iff hn).1 ht; omega)
  · simp [exec, execJobCompletion, completeJob_of_none (List.getElem?_eq_none h), reportStall_self]
  · have hi : issuable s q = false :=
      Bool.eq_false_iff.2 fun hi => (issuable_iff.1 hi).elim h
    simp [exec, execIssue, examineHead_of_not_issuable hi, reportStall_self]

end Sys2Proof.Machine


/-! Resets, what they leave, and the scrub. -/

namespace Sys2Proof.Machine

/-! ## The hard resets -/

section
variable {s : State} {e : Engine} {a : WindowAddr}

/-- The reset state reads as the column "After hard reset" of the map. -/
theorem readWindow_reset : ∀ a : WindowAddr, a ≠ 0x03#7 → readWindow State.reset a = hardResetValue a := by
  decide

/-- The window of a part held reset is that of the reset state, RESET_CAUSE apart. -/
theorem readWindow_hardReset (he : e.state = .starting) (ha : a ≠ 0x03#7) :
    readWindow { hardReset s with engine := e } a = readWindow State.reset a := by
  have h3 : a.toNat ≠ 0x03 := fun h => ha (BitVec.eq_of_toNat_eq h)
  obtain ⟨st, por, pin, cause, next⟩ := e
  obtain rfl : st = .starting := he
  simp only [readWindow, h3, if_false]
  rfl

theorem hardResetState_hardReset (he : e.state = .starting) (hr : e.por = true ∨ e.pin = true) :
    HardResetState { hardReset s with engine := e } := by
  refine ⟨fun a ha => (readWindow_hardReset he ha).trans (readWindow_reset a ha), ?_, rfl, rfl, rfl, rfl,
    rfl, rfl, rfl, fun q => ?_, rfl, rfl, rfl, rfl, rfl, rfl, rfl, rfl, rfl, rfl⟩
  · simpa [inReset] using hr
  · cases q <;> exact ⟨rfl, rfl, rfl⟩

/-- The part as POWER_ON leaves it. -/
def poweredOn (s : State) : State := { hardReset s with
  engine := { s.engine with state := .starting, scrubNext := 0, por := true, holdCause := .powerOn } }

/-- The part as RESET_ASSERT leaves it when RESET# was not low. -/
def pinAsserted (s : State) : State := { hardReset s with
  engine := { s.engine with state := .starting, scrubNext := 0, pin := true,
                            holdCause := if inReset s then s.engine.holdCause else .pin } }

@[simp] theorem poweredOn_pin (s : State) : (poweredOn s).engine.pin = s.engine.pin := rfl
@[simp] theorem pinAsserted_por (s : State) : (pinAsserted s).engine.por = s.engine.por := rfl

theorem exec_powerOn (s : State) : exec .powerOn s = .next (poweredOn s) := rfl

theorem exec_resetAssert (h : s.engine.pin = false) : exec .resetAssert s = .next (pinAsserted s) := by
  simp [exec, execResetAssert, h, hardReset, pinAsserted]

end

/-- Settles O5: both resets give the state `hardReset` makes, which reads as the map's column. -/
theorem hardResetTakesResetValues : Obligations.HardResetTakesResetValues := by
  intro s
  refine ⟨⟨_, exec_powerOn s, hardResetState_hardReset rfl (.inl rfl), rfl, rfl, rfl⟩, fun h => ?_⟩
  exact ⟨_, exec_resetAssert h, hardResetState_hardReset rfl (.inr rfl), rfl, rfl, rfl⟩

/-! ## The end of a hard reset -/

section
variable {s : State}

theorem leaveReset_of_inReset (h : inReset s = true) : leaveReset s = s := by
  simp [leaveReset, h]

theorem leaveReset_of_not_inReset (h : inReset s = false) : leaveReset s = { s with
    engine := { s.engine with state := .starting, scrubNext := 0 }
    port := { s.port with divider := 0, tickLength := s.port.timebase.toNat,
                          resetCause := s.engine.holdCause } } := by
  simp [leaveReset, h]

theorem exec_release_powerOn (h : s.engine.por = true) : exec (.resetRelease .powerOn) s =
    .next (leaveReset { s with engine := { s.engine with por := false } }) := by
  simp [exec, execResetRelease, h]

theorem exec_release_pin (h : s.engine.pin = true) : exec (.resetRelease .pin) s =
    .next (leaveReset { s with engine := { s.engine with pin := false } }) := by
  simp [exec, execResetRelease, h]

theorem exec_scrubEnd_of_scrubbing (he : s.engine.state = .starting) (hr : inReset s = false) :
    exec .scrubEnd s = .next (endScrub s) := by
  simp [exec, execScrubEnd, scrubRuns, he, hr]

end

/-- Settles O6, by what else holds the part at the release. -/
theorem releaseStartsAndScrubEndMakesReady : Obligations.ReleaseStartsAndScrubEndMakesReady := by
  intro s
  refine ⟨fun hpor hpin => ?_, fun hpin hpor => ?_, fun hpor hpin => ⟨?_, ?_⟩, fun he hr => ?_⟩
  · rw [exec_release_powerOn hpor, leaveReset_of_not_inReset (by simpa [inReset] using hpin)]
    simp [hpin]
  · rw [exec_release_pin hpin, leaveReset_of_not_inReset (by simpa [inReset] using hpor)]
    simp [hpor]
  · rw [exec_release_powerOn hpor, leaveReset_of_inReset (by simpa [inReset] using hpin)]
  · rw [exec_release_pin hpin, leaveReset_of_inReset (by simpa [inReset] using hpor)]
  · exact ⟨_, exec_scrubEnd_of_scrubbing he hr, fun _ => rfl, rfl⟩

/-! ## RESET_CAUSE (R170) -/

section
variable {s t u : State} {c : Instr} {cs : List Instr}

theorem runCommands_cons (h : exec c s = .next t) : runCommands (c :: cs) s = runCommands cs t := by
  simp [runCommands, h]

theorem runCommands_one (h : exec c s = .next t) : runCommands [c] s = some t := runCommands_cons h

/-- Once nothing else holds the part, a release leaves the reset with the cause that was waiting. -/
theorem leaveReset_cause (h : inReset s = false) : inReset (leaveReset s) = false ∧
    (leaveReset s).engine.state = .starting ∧
    readWindow (leaveReset s) 0x03#7 = resetCauseByte s.engine.holdCause := by
  rw [leaveReset_of_not_inReset h]
  exact ⟨h, rfl, rfl⟩

end

/-- Settles O7, along the four orders in which the two resets can begin and end. -/
theorem resetCauseFollowsItsSource : Obligations.ResetCauseFollowsItsSource := by
  intro s
  refine ⟨fun hpin => ?_, fun hr => ?_, fun hpin => ?_, fun hpin => ?_⟩
  · refine ⟨_, (runCommands_cons (exec_powerOn s)).trans (runCommands_one (exec_release_powerOn rfl)), ?_⟩
    exact leaveReset_cause (by simpa [inReset] using hpin)
  · obtain ⟨hpor, hpin⟩ : s.engine.por = false ∧ s.engine.pin = false := by simpa [inReset] using hr
    refine ⟨_, (runCommands_cons (exec_resetAssert hpin)).trans (runCommands_one (exec_release_pin rfl)), ?_⟩
    have hc : (pinAsserted s).engine.holdCause = .pin := by simp [pinAsserted, hr]
    obtain ⟨h1, h2, h3⟩ := leaveReset_cause
      (s := { pinAsserted s with engine := { (pinAsserted s).engine with pin := false } })
      (by simpa [inReset] using hpor)
    exact ⟨h1, h2, h3.trans (congrArg resetCauseByte hc)⟩
  · have hpa : exec .resetAssert (poweredOn s) = .next (pinAsserted (poweredOn s)) := exec_resetAssert hpin
    have hrun := (runCommands_cons (exec_powerOn s)).trans
      ((runCommands_cons hpa).trans (runCommands_one (exec_release_powerOn rfl)))
    rw [leaveReset_of_inReset (by rfl)] at hrun
    obtain ⟨h1, -, h3⟩ := leaveReset_cause (s := { pinAsserted (poweredOn s) with
      engine := { (pinAsserted (poweredOn s)).engine with por := false, pin := false } }) rfl
    exact ⟨_, _, hrun, rfl, runCommands_one (exec_release_pin rfl), h1, h3⟩
  · have hrun := (runCommands_cons (exec_powerOn s)).trans (runCommands_one (exec_release_powerOn rfl))
    have hin : inReset { poweredOn s with engine := { (poweredOn s).engine with por := false } } = true := by
      simpa [inReset] using hpin
    rw [leaveReset_of_inReset hin] at hrun
    obtain ⟨h1, -, h3⟩ := leaveReset_cause (s := { poweredOn s with
      engine := { (poweredOn s).engine with por := false, pin := false } }) rfl
    exact ⟨_, _, hrun, hin, runCommands_one (exec_release_pin hpin), h1, h3⟩

/-! ## The scrub (R20) -/

section
variable {s t u : State} {k n : Nat}

theorem runSteps_succ (h : runSteps n s = some t) (hu : step t = .next u) : runSteps (n + 1) s = some u := by
  induction n generalizing s with
  | zero => cases h; simp [runSteps, hu]
  | succ n ih =>
    rw [runSteps] at h ⊢
    cases hs : step s with
    | next v => exact ih (by simpa [hs] using h)
    | fault r => simp [hs] at h
    | refused r => simp [hs] at h

/-- The part after the scrub's write of one clock period. -/
def scrubWritten (s : State) : State :=
  if 256 ≤ s.engine.scrubNext + 1 then endScrub s
  else { s with cell := { s.cell with cells := writeCells s.cell.cells s.engine.scrubNext emptyCell }
                engine := { s.engine with scrubNext := s.engine.scrubNext + 1 } }

/-- While the scrub runs, a clock period is its write, and then a tick boundary or the divider's count,
which leave the cells, the engine, the events and the waiting commands alone. -/
theorem clockPeriod_scrubbing (hr : inReset s = false) (he : s.engine.state = .starting) :
    (clockPeriod s).engine = (scrubWritten s).engine ∧ (clockPeriod s).event = (scrubWritten s).event ∧
    (clockPeriod s).pending = (scrubWritten s).pending ∧
    (clockPeriod s).cell.cells = (scrubWritten s).cell.cells := by
  have hs : scrubRuns s = true := by simp [scrubRuns, hr, he]
  have hc : clockPeriod s = if (scrubWritten s).port.tickLength ≤ (scrubWritten s).port.divider + 1 then
      passTick (scrubWritten s) else { scrubWritten s with
        port := { (scrubWritten s).port with divider := (scrubWritten s).port.divider + 1 } } := by
    unfold clockPeriod
    rw [if_neg (by simp [hr])]
    simp only [hs, if_true]
    rfl
  rw [hc]
  split
  · obtain ⟨hcells, heng, -, hev, -, -, -, -, hp⟩ := passTick_frame (scrubWritten s)
    exact ⟨heng, hev, hp, hcells⟩
  · exact ⟨rfl, rfl, rfl, rfl⟩

/-- The scrub has emptied the cells below `k` and runs on. -/
structure Scrubbed (k : Nat) (s : State) : Prop where
  cells : CellsSound s
  idle : s.pending = []
  released : inReset s = false
  starting : s.engine.state = .starting
  next : s.engine.scrubNext = k
  empty : ∀ n : CellNo, n.toNat < k → s.cellAt n = emptyCell

/-- One more clock period of the scrub empties one more cell. -/
theorem Scrubbed.step (h : Scrubbed k s) (hk : k < 255) : ∃ t, step s = .next t ∧ Scrubbed (k + 1) t := by
  refine ⟨_, step_of_idle h.idle, ?_⟩
  obtain ⟨he, -, hp, hc⟩ := clockPeriod_scrubbing h.released h.starting
  rw [scrubWritten, h.next, if_neg (by omega)] at he hp hc
  refine ⟨?_, hp.trans h.idle, by simpa only [inReset, he] using h.released, by rw [he]; exact h.starting,
    by rw [he], fun n hn => ?_⟩
  · rw [CellsSound, hc]
    exact wf_writeCells h.cells (by omega) rfl
  · rw [State.cellAt, hc, readCells_writeCells h.cells]
    split
    · rfl
    · exact h.empty n (by omega)

/-- The clock period of cell 255 ends the scrub. -/
theorem Scrubbed.last (h : Scrubbed 255 s) : ∃ t, Machine.step s = .next t ∧ t.engine.state = .ready ∧
    t.event.startDone = true ∧ ∀ n : CellNo, t.cellAt n = emptyCell := by
  refine ⟨_, step_of_idle h.idle, ?_⟩
  obtain ⟨he, hev, -, hc⟩ := clockPeriod_scrubbing h.released h.starting
  rw [scrubWritten, h.next, if_pos (by omega)] at he hev hc
  exact ⟨by rw [he]; rfl, by rw [hev]; rfl, fun n => by rw [State.cellAt, hc]; rfl⟩

/-- The first 255 clock periods of a scrub from cell 0. -/
theorem Scrubbed.run (h : Scrubbed 0 s) (hk : k < 256) : ∃ t, runSteps k s = some t ∧ Scrubbed k t := by
  induction k with
  | zero => exact ⟨s, rfl, h⟩
  | succ k ih =>
    obtain ⟨t, hrun, ht⟩ := ih (by omega)
    obtain ⟨u, hstep, hu⟩ := ht.step (by omega)
    exact ⟨u, runSteps_succ hrun hstep, hu⟩

end

/-- Settles O8, by induction on the clock periods since the scrub began. -/
theorem scrubEndsAfter256ClockPeriods : Obligations.ScrubEndsAfter256ClockPeriods := by
  intro s hc hp hr he hn
  have h0 : Scrubbed 0 s := ⟨hc, hp, hr, he, hn, fun n h => absurd h (Nat.not_lt_zero _)⟩
  refine ⟨fun k hk => ?_, ?_⟩
  · obtain ⟨t, hrun, ht⟩ := h0.run hk
    exact ⟨t, hrun, ht.starting, ht.next, ht.empty⟩
  · obtain ⟨t, hrun, ht⟩ := h0.run (k := 255) (by omega)
    obtain ⟨u, hstep, hu⟩ := ht.last
    exact ⟨u, runSteps_succ hrun hstep, hu⟩

/-! ## The laws after reset -/

/-- A queue after hard reset is sound. -/
theorem queueSound_reset : QueueSound Queue.reset :=
  ⟨rfl, by simp [Queue.reset], by simp [Queue.reset], by simp [Queue.reset]⟩

theorem seqSound_reset (q : QueueId) : SeqSound State.reset q := by
  cases q <;> simp [SeqSound, State.reset, Queue.reset, IssueLogic.reset, heldJob]

/-- Settles O60: with nothing queued, in flight, held or timed, each law has little to say. -/
theorem soundAfterReset : Obligations.SoundAfterReset := by
  refine ⟨wf_reset, ⟨List.nodup_nil, ?_⟩, ?_, ?_, ⟨queueSound_reset, queueSound_reset, rfl, rfl, ?_, rfl, ?_⟩,
    seqSound_reset, ?_, ?_, ?_, le_rfl, ?_⟩
  · simp [State.reset, IssueLogic.reset, markedCells]
  · exact ⟨.inl ⟨rfl, rfl⟩, .inl ⟨rfl, rfl, rfl⟩, .inl ⟨rfl, rfl, rfl⟩⟩
  · simp [EntriesSound, State.reset, IssueLogic.reset]
  · simp [State.reset, IssueLogic.reset]
  · decide
  · simp [HeldSound, State.reset, CellStore.reset]
  · simp [TimerSound, State.reset, CompletionQueue.reset]
  · simp [PortSound, State.reset, HostPort.reset]
  · exact ⟨fun h => (nomatch h), fun _ => ⟨rfl, rfl, rfl, rfl, rfl, rfl, rfl, rfl, rfl⟩⟩

end Sys2Proof.Machine


/-! Tick boundaries: the divider, the wait count and the coalescing timer. -/

namespace Sys2Proof.Machine

section
variable {s t u : State} {a : HeldAccess} {n l : Nat}

/-! ## What a tick boundary does -/

/-- The part with the divider, the tick's length and the coalescing timer moved on by a tick boundary. -/
def ticked (s : State) : State :=
  { s with port := { s.port with divider := 0, tickLength := s.port.timebase.toNat }
           cq := advanceTimer s.cq }

theorem exec_tickBoundary (s : State) : exec .tickBoundary s = .next (passTick s) := rfl

theorem advanceTimer_of_idle {c : CompletionQueue} (h : c.timer = .idle) : advanceTimer c = c := by
  simp [advanceTimer, h]

theorem advanceTimer_of_running {c : CompletionQueue} (h : c.timer = .running n l) :
    advanceTimer c = if n + 1 < l then { c with timer := .running (n + 1) l }
      else { c with timer := .idle, expired := true } := by
  by_cases hl : l ≤ n + 1
  · simp [advanceTimer, h, timerReached, hl, not_lt.2 hl]
  · simp [advanceTimer, h, timerReached, hl, not_le.1 hl]

theorem waitReached_ticked (s : State) : waitReached (ticked s) = waitReached s := rfl

theorem passTick_of_no_access (hr : inReset s = false) (h : s.cell.held = none) : passTick s = ticked s := by
  rw [passTick_eq hr]
  simp [advanceWait, h, ticked]

theorem passTick_of_waiting (hr : inReset s = false) (h : s.cell.held = some a)
    (hw : waitReached s = false) : passTick s =
      { ticked s with cell := { s.cell with held := some { a with count := a.count + 1 } } } := by
  rw [passTick_eq hr, ← ticked]
  simp only [advanceWait, waitReached_ticked, hw]
  simp [ticked, h]

theorem passTick_of_timeout (hr : inReset s = false) (h : s.cell.held = some a)
    (hw : waitReached s = true) : passTick s =
      faultAccess a.kind .waitTimeout { ticked s with cell := { s.cell with held := none } } := by
  rw [passTick_eq hr, ← ticked]
  simp only [advanceWait, waitReached_ticked, hw]
  simp [ticked, h]

theorem passTick_cq (hr : inReset s = false) : (passTick s).cq = advanceTimer s.cq := by
  rw [passTick_eq hr, advanceWait_frame]

theorem waitReached_of_count_lt (h : s.cell.held = some a) (hl : a.count + 1 < s.port.waitLimit.toNat) :
    waitReached s = false :=
  Bool.eq_false_iff.2 fun hw => by have := ((waitReached_iff h).1 hw).2; omega

end

/-- Settles O10, by whether an access is held and whether the timer runs. -/
theorem tickBoundaryAdvancesTimers : Obligations.TickBoundaryAdvancesTimers := by
  intro s hr
  refine ⟨_, exec_tickBoundary s, fun h => ?_, fun n l h => ?_, fun h => ?_, fun a h hl => ?_⟩
  · rw [passTick_cq hr, advanceTimer_of_idle h]
  · rw [passTick_cq hr, advanceTimer_of_running h]
  · rw [passTick_of_no_access hr h]; rfl
  · rw [passTick_of_waiting hr h (waitReached_of_count_lt h hl)]; rfl

/-! ## The boundary that ends a held access, or the timer -/

section
variable {s : State} {a : HeldAccess}

theorem exec_waitTimeout (h : waitReached s = true) : exec .waitTimeout s = .next (passTick s) := by
  simp [exec, execWaitTimeout, h]

theorem exec_expiry (h : timerReached s.cq = true) :
    exec .coalescingTimerExpiry s = .next (passTick s) := by
  simp [exec, execCoalescingTimerExpiry, h]

/-- What a cell access that ends as a fault leaves (R16, R168). -/
theorem faultAccess_eq (k : AccessKind) (f : PortFault) (s : State) :
    FaultEntered f (if k = .read then 0x14#8 else 0x17#8) s.port (faultAccess k f s).port ∧
    faultAccess k f s = { s with
      port := (faultAccess k f s).port
      cell := { s.cell with readOpen := if k = .read then false else s.cell.readOpen }
      readData := if k = .read then some 0#8 else s.readData } := by
  cases k with
  | read => exact ⟨faultEntered_enterFault f 0x14#8
      (answer 0#8 { s with cell := { s.cell with readOpen := false } }), rfl⟩
  | write b => exact ⟨faultEntered_enterFault f 0x17#8 s, rfl⟩

end

/-- Settles O11: the two rows are the tick boundary, and that boundary ends the access or the timer. -/
theorem timeoutAndExpiryAtTheirTick : Obligations.TimeoutAndExpiryAtTheirTick := by
  intro s hr
  refine ⟨fun a ha hm hl => ?_, fun n l hn hl => ?_⟩
  · have hw : waitReached s = true := (waitReached_iff ha).2 ⟨hm, hl⟩
    refine ⟨_, exec_waitTimeout hw, exec_tickBoundary s, ?_⟩
    rw [passTick_of_timeout hr ha hw]
    obtain ⟨hf, heq⟩ := faultAccess_eq a.kind .waitTimeout
      { ticked s with cell := { s.cell with held := none } }
    refine ⟨hf, ?_⟩
    generalize faultAccess a.kind .waitTimeout _ = t at heq
    rw [heq]; rfl
  · refine ⟨_, exec_expiry ((timerReached_iff hn).2 hl), exec_tickBoundary s, ?_, ?_, fun h => ?_⟩
    · rw [passTick_cq hr, advanceTimer_of_running hn, if_neg (not_lt.2 hl)]
    · have hf := advanceWait_frame (ticked s)
      rw [passTick_eq hr, ← ticked]
      generalize advanceWait (ticked s) = t at hf ⊢
      rw [hf]; rfl
    · rw [passTick_of_no_access hr h]; exact ⟨rfl, rfl, rfl⟩

/-! ## How long an access is held and the timer runs -/

section
variable {s t u : State} {c : Instr} {cs : List Instr} {a : HeldAccess} {k l : Nat}

theorem runCommands_concat (h : runCommands cs s = some t) (hu : exec c t = .next u) :
    runCommands (cs ++ [c]) s = some u := by
  induction cs generalizing s with
  | nil => cases h; exact runCommands_one hu
  | cons d cs ih =>
    rw [List.cons_append, runCommands]
    rw [runCommands] at h
    cases hs : exec d s with
    | next v => exact ih (by simpa [hs] using h)
    | fault r => simp [hs] at h
    | refused r => simp [hs] at h

theorem runCommands_replicate_succ (h : runCommands (List.replicate k .tickBoundary) s = some t) :
    runCommands (List.replicate (k + 1) .tickBoundary) s = some (passTick t) := by
  rw [List.replicate_succ']
  exact runCommands_concat h (exec_tickBoundary t)

theorem inReset_passTick (s : State) : inReset (passTick s) = inReset s := by
  obtain ⟨-, he, -⟩ := passTick_frame s
  simp only [inReset, he]

/-- `k` tick boundaries after `s` the access `a` is still held, its cell marked. -/
structure StillHeld (s : State) (a : HeldAccess) (k : Nat) (t : State) : Prop where
  held : t.cell.held = some { a with count := a.count + k }
  marked : isMarked t.issue.marks a.cell = true
  limit : t.port.waitLimit = s.port.waitLimit
  fault : t.port.faultCode = s.port.faultCode
  released : inReset t = false

theorem StillHeld.tick (h : StillHeld s a k t) (hl : a.count + (k + 1) < s.port.waitLimit.toNat) :
    StillHeld s a (k + 1) (passTick t) := by
  obtain ⟨-, -, hi, -⟩ := passTick_frame t
  have hw : waitReached t = false := waitReached_of_count_lt h.held (by rw [h.limit]; exact hl)
  have ht := passTick_of_waiting h.released h.held hw
  exact ⟨by rw [ht]; rfl, by rw [hi]; exact h.marked, by rw [ht]; exact h.limit, by rw [ht]; exact h.fault,
    by rw [inReset_passTick]; exact h.released⟩

/-- The boundary that brings the count to WAIT_LIMIT ends the access. -/
theorem StillHeld.timeout (h : StillHeld s a k t) (hl : s.port.waitLimit.toNat ≤ a.count + (k + 1)) :
    (passTick t).cell.held = none ∧
    (s.port.faultCode = .none → (passTick t).port.faultCode = .waitTimeout) := by
  have hw : waitReached t = true := (waitReached_iff h.held).2 ⟨h.marked, by rw [h.limit]; exact hl⟩
  rw [passTick_of_timeout h.released h.held hw]
  obtain ⟨hf, heq⟩ := faultAccess_eq a.kind .waitTimeout
    { ticked t with cell := { t.cell with held := none } }
  refine ⟨by rw [heq], fun hn => ?_⟩
  rw [hf.1 (h.fault.trans hn)]

theorem stillHeld_run (h : s.cell.held = some a) (hm : isMarked s.issue.marks a.cell = true)
    (hr : inReset s = false) (hk : a.count + k < s.port.waitLimit.toNat) :
    ∃ t, runCommands (List.replicate k .tickBoundary) s = some t ∧ StillHeld s a k t := by
  induction k with
  | zero => exact ⟨s, rfl, h, hm, rfl, rfl, hr⟩
  | succ k ih =>
    obtain ⟨t, hrun, ht⟩ := ih (by omega)
    exact ⟨_, runCommands_replicate_succ hrun, ht.tick hk⟩

theorem timer_run (h : s.cq.timer = .running 0 l) (hr : inReset s = false) (hk : k < l) :
    ∃ t, runCommands (List.replicate k .tickBoundary) s = some t ∧
      t.cq = { s.cq with timer := .running k l } ∧ inReset t = false := by
  induction k with
  | zero => exact ⟨s, rfl, by rw [← h], hr⟩
  | succ k ih =>
    obtain ⟨t, hrun, hcq, hrt⟩ := ih (by omega)
    refine ⟨_, runCommands_replicate_succ hrun, ?_, by rw [inReset_passTick]; exact hrt⟩
    rw [passTick_cq hrt, hcq, advanceTimer_of_running rfl, if_pos hk]

end

/-- Settles O12, by induction on the tick boundaries. -/
theorem timersEndAtTheirLength : Obligations.TimersEndAtTheirLength := by
  intro s hr
  refine ⟨fun a ha hm hl => ⟨fun k hk => ?_, ?_⟩, fun l h hl => ⟨fun k hk => ?_, ?_⟩⟩
  · obtain ⟨t, hrun, ht⟩ := stillHeld_run ha hm hr hk
    exact ⟨t, hrun, ht.held, ht.fault⟩
  · obtain ⟨k, hk⟩ : ∃ k, s.port.waitLimit.toNat - a.count = k + 1 := ⟨_, (Nat.sub_add_cancel (by omega)).symm⟩
    obtain ⟨t, hrun, ht⟩ := stillHeld_run (k := k) ha hm hr (by omega)
    rw [hk]
    exact ⟨_, runCommands_replicate_succ hrun, ht.timeout (by omega)⟩
  · obtain ⟨t, hrun, hcq, -⟩ := timer_run h hr hk
    exact ⟨t, hrun, hcq⟩
  · obtain ⟨k, rfl⟩ : ∃ k, l = k + 1 := ⟨l - 1, by omega⟩
    obtain ⟨t, hrun, hcq, hrt⟩ := timer_run (k := k) h hr (by omega)
    refine ⟨_, runCommands_replicate_succ hrun, ?_⟩
    rw [passTick_cq hrt, hcq, advanceTimer_of_running rfl, if_neg (by omega)]

end Sys2Proof.Machine


/-! The host's accesses of cells, and the cell commands. -/

namespace Sys2Proof.Machine

/-! ## When no access is taken -/

/-- Every host access is an effect that the port may or may not take. -/
theorem exists_hostAccess {c : Instr} (h : isHostAccess c = true) (s : State) :
    ∃ f, exec c s = .next (hostAccess f s) := by
  cases c <;> first | exact ⟨_, rfl⟩ | cases h

theorem takesAccess_eq_false_iff (s : State) : takesAccess s = false ↔
    s.cell.held ≠ none ∨ s.engine.por = true ∨ s.engine.pin = true := by
  rw [← Bool.not_eq_true, takesAccess_iff]
  cases s.cell.held <;> cases hp : s.engine.por <;> cases hn : s.engine.pin <;> simp [inReset, hp, hn]

/-- Settles O17: a host access is an effect that the port does not take then. -/
theorem noAccessTakenWhileHeldOrReset : Obligations.NoAccessTakenWhileHeldOrReset := by
  intro c s hc h
  obtain ⟨f, hf⟩ := exists_hostAccess hc s
  rw [hf, hostAccess_not_taken s ((takesAccess_eq_false_iff s).2 h)]

/-! ## What a cell access does -/

section
variable {s : State} (k : AccessKind) (b : Byte)

theorem exec_cellDataRead (h : takesAccess s = true) : exec .cellDataRead s = .next (cellAccess .read s) :=
  congrArg _ (hostAccess_taken s h)

theorem exec_cellWrite (h : takesAccess s = true) :
    exec (.cellWrite b) s = .next (cellAccess (.write b) s) :=
  congrArg _ (hostAccess_taken s h)

theorem exec_cellAddrWrite (h : takesAccess s = true) :
    exec (.cellAddrWrite b) s = .next (writeCellAddr b s) :=
  congrArg _ (hostAccess_taken s h)

theorem exec_cellReadComplete (h : takesAccess s = true) :
    exec .cellReadComplete s = .next (completeRead s) :=
  congrArg _ (hostAccess_taken s h)

theorem cellAccess_of_starting (h : s.engine.state = .starting) :
    cellAccess k s = faultAccess k .notReady s := by
  simp [cellAccess, h]

theorem cellAccess_of_busy (h : s.engine.state = .ready) (hm : isMarked s.issue.marks s.cell.addr = true)
    (hw : s.port.waitLimit = 0#8) : cellAccess k s = faultAccess k .cellBusy s := by
  simp [cellAccess, h, hm, hw]

theorem cellAccess_of_marked (h : s.engine.state = .ready) (hm : isMarked s.issue.marks s.cell.addr = true)
    (hw : s.port.waitLimit ≠ 0#8) : cellAccess k s = holdAccess k s := by
  simp [cellAccess, h, hm, hw]

theorem cellAccess_of_unmarked (h : s.engine.state = .ready)
    (hm : isMarked s.issue.marks s.cell.addr = false) : cellAccess k s = doAccess k s.cell.addr s := by
  simp [cellAccess, h, hm]

/-- The address that auto-increment leaves (R7). -/
theorem advanceAddr_eq (c : CellStore) :
    advanceAddr c = { c with addr := if c.autoInc then c.addr + 1#8 else c.addr } := by
  unfold advanceAddr; split <;> rfl

theorem completeRead_of_open (h : s.cell.readOpen = true) : completeRead s =
    { s with cell := { s.cell with readOpen := false,
                                   addr := if s.cell.autoInc then s.cell.addr + 1#8 else s.cell.addr }
             readData := some (s.cell.latch.extractLsb' 24 8) } := by
  simp [completeRead, h, advanceAddr_eq, answer, byteOf]

theorem completeRead_of_not_open (h : s.cell.readOpen = false) : completeRead s =
    { s with readData := some (s.cell.latch.extractLsb' 24 8) } := by
  simp [completeRead, h, answer, byteOf]

/-- A cell write carried out: the cells, and CELL_ADDR (R10). -/
theorem doCellWrite_eq (n : CellNo) : doCellWrite n b s =
    { s with cell := { s.cell with
               cells := (doCellWrite n b s).cell.cells,
               addr := if s.cell.autoInc then s.cell.addr + 1#8 else s.cell.addr } } := by
  simp only [doCellWrite, advanceAddr_eq]
  rfl

theorem cellAt_doCellWrite {n : CellNo} (h : CellsSound s) (m : CellNo) : (doCellWrite n b s).cellAt m =
    if m = n then ⟨(b ++ s.cell.staging : BitVec 32), .valid⟩ else s.cellAt m := by
  have hc : (doCellWrite n b s).cell.cells =
      (putCell n ⟨(b ++ s.cell.staging : BitVec 32), .valid⟩ s).cell.cells := by
    simp only [doCellWrite, advanceAddr_cells]
  rw [State.cellAt, hc, ← State.cellAt, cellAt_putCell h]
  rfl

end

/-- Settles O13, an equation for each access. -/
theorem cellSelectionAndReads : Obligations.CellSelectionAndReads := by
  intro s ht
  refine ⟨fun b => exec_cellAddrWrite b ht, fun he hm => ?_, fun ho => ?_, fun ho => ?_⟩
  · rw [exec_cellDataRead ht, cellAccess_of_unmarked _ he hm]; rfl
  · rw [exec_cellReadComplete ht, completeRead_of_open ho]
  · rw [exec_cellReadComplete ht, completeRead_of_not_open ho]

/-- Settles O14: the write of an unmarked cell is carried out at once. -/
theorem cellWriteStoresStagedValue : Obligations.CellWriteStoresStagedValue := by
  rintro s b ⟨ht, he⟩ hc hm
  refine ⟨_, exec_cellWrite b ht, ?_⟩
  rw [cellAccess_of_unmarked _ he hm]
  exact ⟨fun n => cellAt_doCellWrite b hc n, doCellWrite_eq b _⟩

/-- Settles O15: either cause makes the access a faulted one. -/
theorem cellAccessFaults : Obligations.CellAccessFaults := by
  intro s f ht hf
  have hacc : ∀ k, cellAccess k s = faultAccess k f s := by
    intro k
    rcases hf with ⟨he, rfl⟩ | ⟨he, hm, hw, rfl⟩
    · exact cellAccess_of_starting k he
    · exact cellAccess_of_busy k he hm hw
  refine ⟨⟨_, exec_cellDataRead ht, ?_⟩, fun b => ⟨_, exec_cellWrite b ht, ?_⟩⟩
  · rw [hacc]; exact faultAccess_eq .read f s
  · rw [hacc]; exact faultAccess_eq (.write b) f s

/-- Settles O16: the access of a marked cell is held. -/
theorem markedCellAccessIsHeld : Obligations.MarkedCellAccessIsHeld := by
  rintro s ⟨ht, he⟩ hm hw
  refine ⟨⟨_, exec_cellDataRead ht, ?_⟩, fun b => ⟨_, exec_cellWrite b ht, ?_⟩⟩
  · rw [cellAccess_of_marked _ he hm hw]; exact ⟨rfl, rfl⟩
  · rw [cellAccess_of_marked _ he hm hw]; exact ⟨rfl, rfl⟩

/-! ## CELL_EMPTY and CELL_POISON -/

section
variable {s : State} {code : BitVec 4} {q : QueueId}

/-- In STARTING a known command is refused (R166). -/
theorem hostAccess_takeCommand_of_starting (ht : takesAccess s = true) (he : s.engine.state = .starting)
    (hk : knownCodes.contains code = true) :
    hostAccess (takeCommand code q) s = setResult .refusedStarting s := by
  rw [hostAccess_taken s ht, takeCommand, if_neg (by simp only [hk]; decide), if_pos he]

theorem cellCommand_of_marked (t : Tag) (hm : isMarked s.issue.marks s.port.cmdArg = true) :
    cellCommand t s = setResult .refusedBusy s := by
  simp [cellCommand, hm]

theorem cellCommand_of_unmarked (t : Tag) (hm : isMarked s.issue.marks s.port.cmdArg = false) :
    cellCommand t s = setResult .accepted (putCell s.port.cmdArg ⟨0#32, t⟩ s) := by
  simp [cellCommand, hm]

/-- A cell command of the tag EMPTY or POISON does what R18 says. -/
theorem cellCommand_takes {c : Instr} {t : Tag} (ht : takesAccess s = true)
    (hk : knownCodes.contains code = true) (hcode : ownerCommand code .q0 s = cellCommand t s)
    (hc : exec c s = .next (hostAccess (takeCommand code .q0) s)) :
    (s.engine.state = .starting → exec c s = .next (setResult .refusedStarting s)) ∧
    (s.engine.state = .ready → isMarked s.issue.marks s.port.cmdArg = true →
      exec c s = .next (setResult .refusedBusy s)) ∧
    (s.engine.state = .ready → isMarked s.issue.marks s.port.cmdArg = false → CellsSound s →
      ∃ u, exec c s = .next u ∧
        (∀ n, u.cellAt n = if n = s.port.cmdArg then ⟨0#32, t⟩ else s.cellAt n) ∧
        u = { s with cell := { s.cell with cells := u.cell.cells }
                     port := { s.port with cmdResult := .accepted } }) := by
  refine ⟨fun he => ?_, fun he hm => ?_, fun he hm hs => ⟨_, hc, ?_⟩⟩
  · rw [hc, hostAccess_takeCommand_of_starting ht he hk]
  · rw [hc, hostAccess_takeCommand ⟨ht, he⟩ .q0 hk, hcode, cellCommand_of_marked t hm]
  · rw [hostAccess_takeCommand ⟨ht, he⟩ .q0 hk, hcode, cellCommand_of_unmarked t hm]
    refine ⟨fun n => ?_, rfl⟩
    have hv : taggedCell 0#32 t = ⟨0#32, t⟩ := by cases t <;> rfl
    rw [cellAt_congr (setResult_cell _ _) n, cellAt_putCell hs, hv]

end

/-- Settles O18: both commands are the cell command of their tag. -/
theorem cellCommandsSetTag : Obligations.CellCommandsSetTag :=
  fun _ ht => ⟨cellCommand_takes ht (by decide) rfl rfl,
    cellCommand_takes ht (by decide) rfl rfl⟩

end Sys2Proof.Machine


/-! The writes of the register window. -/

namespace Sys2Proof.Machine

section
variable {s t : State} {q : QueueId} {a : WindowAddr} {b : Byte}

theorem exec_registerWrite (a : WindowAddr) (b : Byte) (h : takesAccess s = true) :
    exec (.registerWrite a b) s = .next (writeWindow a b s) :=
  congrArg _ (hostAccess_taken s h)

/-! ## Plain registers -/

/-- From `s` to `t` the plain register at `a` has stored what it stores of `b`, and nothing else that the
window shows has changed, but for EVENT_CODE after a write of the enables or levels. -/
structure PlainStored (s : State) (a : WindowAddr) (b : Byte) (t : State) : Prop where
  reads : readWindow t a = storedByte a b
  others : ∀ a', a' ≠ a → ¬(a' = 0x54#7 ∧ a ∈ [0x51#7, 0x52#7, 0x53#7]) →
    readWindow t a' = readWindow s a'
  frame : t = { s with
    cell := { s.cell with autoInc := t.cell.autoInc }
    port := { s.port with cmdArg := t.port.cmdArg, timebase := t.port.timebase,
                          waitLimit := t.port.waitLimit }
    cq := { s.cq with coalesceTime := t.cq.coalesceTime }
    event := { s.event with enable := t.event.enable, level0 := t.event.level0,
                            level1 := t.event.level1, global := t.event.global }
    jobStage := t.jobStage
    substitute := t.substitute }

/-- The plain registers, one after the other. -/
theorem storedPlain_cases : ∀ a : WindowAddr, storedPlain a = true →
    a = 0x05#7 ∨ (∃ i : Fin 4, a = 0x08#7 + BitVec.ofNat 7 i.val) ∨ a = 0x0C#7 ∨ a = 0x0D#7 ∨ a = 0x11#7 ∨
    (∃ i : Fin 8, a = 0x18#7 + BitVec.ofNat 7 i.val) ∨ a = 0x4B#7 ∨ a = 0x51#7 ∨ a = 0x52#7 ∨
    a = 0x53#7 ∨ a = 0x56#7 := by
  decide

theorem toNat_ne {a a' : WindowAddr} (h : a' ≠ a) : a'.toNat ≠ a.toNat :=
  fun e => h (BitVec.eq_of_toNat_eq e)

/-- TIMEBASE stores its byte brought into 1 to 64 (R165). -/
theorem clampTimebase_eq : ∀ b : Byte,
    clampTimebase b = if b.toNat < 1 then 1#8 else if 64 < b.toNat then 64#8 else b := by
  decide

/-- A one-bit register shows bit 0 of the byte written. -/
theorem oneBit_eq : ∀ b : Byte, (if b.getLsbD 0 then 1#8 else 0#8) = b &&& 1#8 := by
  decide

theorem plainStored_substitute (s : State) (b : Byte) (i : Fin 4) :
    PlainStored s (0x08#7 + BitVec.ofNat 7 i.val) b
      { s with substitute := withByte s.substitute i.val b } := by
  have ha : (0x08#7 + BitVec.ofNat 7 i.val).toNat = 0x08 + i.val := by revert i; decide
  refine ⟨?_, fun a' h _ => readWindow_substitute s a' b i.val i.isLt (ha ▸ toNat_ne h), rfl⟩
  have hr : storedByte (0x08#7 + BitVec.ofNat 7 i.val) b = b := by fin_cases i <;> rfl
  have hb : ∀ u : State, readWindow u (0x08#7 + BitVec.ofNat 7 i.val) = byteOf u.substitute i.val := by
    intro u; fin_cases i <;> rfl
  rw [hb, hr]
  exact byteOf_withByte_same _ _ _ (by have := i.isLt; omega)

theorem plainStored_jobStage (s : State) (b : Byte) (i : Fin 8) :
    PlainStored s (0x18#7 + BitVec.ofNat 7 i.val) b
      { s with jobStage := withByte s.jobStage i.val b } := by
  have ha : (0x18#7 + BitVec.ofNat 7 i.val).toNat = 0x18 + i.val := by revert i; decide
  refine ⟨?_, fun a' h _ => readWindow_jobStage s a' b i.val i.isLt (ha ▸ toNat_ne h), rfl⟩
  have hr : storedByte (0x18#7 + BitVec.ofNat 7 i.val) b = b := by fin_cases i <;> rfl
  have hb : ∀ u : State, readWindow u (0x18#7 + BitVec.ofNat 7 i.val) = byteOf u.jobStage i.val := by
    intro u; fin_cases i <;> rfl
  rw [hb, hr]
  exact byteOf_withByte_same _ _ _ (by have := i.isLt; omega)

/-- The write of the enables or a level leaves EVENT_CODE out of its claim. -/
theorem ne_eventCode {a' a : WindowAddr} (h : ¬(a' = 0x54#7 ∧ a ∈ [0x51#7, 0x52#7, 0x53#7]))
    (ha : a ∈ [0x51#7, 0x52#7, 0x53#7]) : a'.toNat ≠ 0x54 :=
  fun e => h ⟨BitVec.eq_of_toNat_eq e, ha⟩

theorem plainStored_writeWindow (s : State) (b : Byte) (h : storedPlain a = true) :
    PlainStored s a b (writeWindow a b s) := by
  rcases storedPlain_cases a h with rfl | ⟨i, rfl⟩ | rfl | rfl | rfl | ⟨i, rfl⟩ | rfl | rfl | rfl | rfl | rfl
  · exact ⟨rfl, fun a' h _ => readWindow_cmdArg s a' b (toNat_ne h), rfl⟩
  · have : writeWindow (0x08#7 + BitVec.ofNat 7 i.val) b s =
        { s with substitute := withByte s.substitute i.val b } := by fin_cases i <;> rfl
    rw [this]
    exact plainStored_substitute s b i
  · exact ⟨clampTimebase_eq b, fun a' h _ => readWindow_timebase s a' _ (toNat_ne h), rfl⟩
  · exact ⟨rfl, fun a' h _ => readWindow_waitLimit s a' b (toNat_ne h), rfl⟩
  · exact ⟨oneBit_eq b, fun a' h _ => readWindow_autoInc s a' _ (toNat_ne h), rfl⟩
  · have : writeWindow (0x18#7 + BitVec.ofNat 7 i.val) b s =
        { s with jobStage := withByte s.jobStage i.val b } := by fin_cases i <;> rfl
    rw [this]
    exact plainStored_jobStage s b i
  · exact ⟨rfl, fun a' h _ => readWindow_coalesceTime s a' b (toNat_ne h), rfl⟩
  · exact ⟨rfl, fun a' h h' => readWindow_enable s a' b (toNat_ne h) (ne_eventCode h' (by decide)), rfl⟩
  · exact ⟨rfl, fun a' h h' => readWindow_level0 s a' b (toNat_ne h) (ne_eventCode h' (by decide)), rfl⟩
  · exact ⟨rfl, fun a' h h' => readWindow_level1 s a' b (toNat_ne h) (ne_eventCode h' (by decide)), rfl⟩
  · exact ⟨oneBit_eq b, fun a' h _ => readWindow_global s a' _ (toNat_ne h), rfl⟩

end

/-- Settles O19, register by register. -/
theorem plainRegistersReadBack : Obligations.PlainRegistersReadBack := by
  intro s a b ht ha
  obtain ⟨hread, hothers, hframe⟩ := plainStored_writeWindow s b ha
  exact ⟨_, exec_registerWrite a b ht, hread, hothers, hframe⟩

/-! ## Writes that store nothing, and the write staging -/

/-- The addresses that ignore a write are none of those a write acts on. -/
theorem ignoresWrite_toNat : ∀ a : WindowAddr, ignoresWrite a = true →
    (∀ m ∈ [0x04, 0x05, 0x0C, 0x0D, 0x0E, 0x10, 0x11, 0x17, 0x24, 0x34, 0x2F, 0x3F, 0x4A, 0x4B, 0x4C,
      0x51, 0x52, 0x53, 0x55, 0x56, 0x5B], a.toNat ≠ m) ∧
    ¬(0x08 ≤ a.toNat ∧ a.toNat ≤ 0x0B) ∧ ¬(0x14 ≤ a.toNat ∧ a.toNat ≤ 0x16) ∧
    ¬(0x18 ≤ a.toNat ∧ a.toNat ≤ 0x1F) := by
  decide

theorem writeWindow_of_ignored {a : WindowAddr} (h : ignoresWrite a = true) (b : Byte) (s : State) :
    writeWindow a b s = s := by
  obtain ⟨hn, hsub, hstag, hjob⟩ := ignoresWrite_toNat a h
  simp only [List.forall_mem_cons, List.not_mem_nil, false_imp_iff, implies_true, and_true] at hn
  simp only [writeWindow, writePlain, hn, hsub, hstag, hjob, if_false]

/-- Settles O20. -/
theorem ignoredWritesAndStaging : Obligations.IgnoredWritesAndStaging := by
  intro s b ht
  refine ⟨fun a ha => ?_, fun k => ⟨_, exec_registerWrite _ b ht, ?_⟩⟩
  · rw [exec_registerWrite a b ht, writeWindow_of_ignored ha]
  · have hw : writeWindow (0x14#7 + BitVec.ofNat 7 k.val) b s =
        { s with cell := { s.cell with staging := withByte s.cell.staging k.val b } } := by
      fin_cases k <;> rfl
    rw [hw]
    refine ⟨fun i => ?_, rfl⟩
    split
    · rename_i h; subst h; exact byteOf_withByte_same _ _ _ (by have := i.isLt; omega)
    · rename_i h; exact byteOf_withByte_ne _ _ _ _ fun e => h (Fin.ext e)

/-! ## Rows of their own -/

section
variable {s : State} {b : Byte} {code : BitVec 4}

/-- A byte written to CMD acts as its command code and queue bit say (R166). -/
theorem exec_unknownCommand (h : b.extractLsb' 4 4 = code) : exec (.unknownCommand b) s =
    .next (hostAccess (takeCommand code (if b.getLsbD 0 then .q1 else .q0)) s) := by
  subst h; rfl

end

/-- Settles O21: each row of its own is a branch of the window's write. -/
theorem windowWriteActsAsItsRow : Obligations.WindowWriteActsAsItsRow := by
  intro s b
  refine ⟨rfl, rfl, rfl, rfl, rfl, rfl, rfl, rfl, rfl, rfl, rfl, rfl, ?_, fun q => ⟨rfl, rfl, rfl, rfl⟩⟩
  exact ⟨exec_unknownCommand, exec_unknownCommand, exec_unknownCommand, exec_unknownCommand,
    exec_unknownCommand, exec_unknownCommand, exec_unknownCommand⟩

/-- HALT_MASK reads what was stored, with bits 6 and 5 at 1 (R83). -/
theorem haltMaskByte_eq : ∀ b : Byte,
    (fullMask (b.extractLsb' 0 5)).setWidth 8 = 0x60#8 ||| (b &&& 0x1F#8) := by
  decide

theorem readWindow_haltMask (s : State) (q : QueueId) :
    readWindow s (if q = .q0 then 0x24#7 else 0x34#7) = (fullMask (s.queue q).haltMask).setWidth 8 := by
  cases q <;> rfl

/-- Settles O22. -/
theorem haltMaskWriteStoresFiveBits : Obligations.HaltMaskWriteStoresFiveBits := by
  intro s q b ht
  have hx : exec (.haltMaskWrite q b) s = .next (reportStall s (s.setQueue q
      { s.queue q with haltMask := b.extractLsb' 0 5 })) := by
    rw [← BitVec.setWidth_eq_extractLsb' (by decide)]
    exact congrArg _ (hostAccess_taken s ht)
  refine ⟨_, hx, ?_, reportStall_withStarved _ _⟩
  rw [readWindow_haltMask, reportStall_queue, setQueue_queue]
  exact haltMaskByte_eq b

/-- ARB_CTRL reads its fields where they were written (R106). -/
theorem arbCtrlByte_eq : ∀ b : Byte,
    ((if (QueueId.ofBit (b.getLsbD 7)).bit then 0x80#8 else 0#8) ||| (b.setWidth 4).setWidth 8) =
      b &&& 0x8F#8 := by
  decide

/-- CQ_THRESHOLD stores its byte brought into 1 to 32 (R141). -/
theorem thresholdByte_toNat : ∀ b : Byte,
    (if b = 0#8 then 1#8 else if 32 < b.toNat then 32#8 else b).toNat = max 1 (min 32 b.toNat) := by
  decide

/-- Settles O23. -/
theorem controlWritesStoreTheirFields : Obligations.ControlWritesStoreTheirFields := by
  intro s b ht
  have hx : exec (.arbCtrlWrite b) s = .next (writeArbCtrl b s) := congrArg _ (hostAccess_taken s ht)
  have hy : exec (.cqThresholdWrite b) s = .next (writeThreshold b s) := congrArg _ (hostAccess_taken s ht)
  have hz : exec (.faultClear b) s = .next (clearFault s) := congrArg _ (hostAccess_taken s ht)
  refine ⟨⟨_, hx, arbCtrlByte_eq b, ?_⟩, ⟨_, hy, thresholdByte_toNat b, rfl⟩,
    ⟨_, hz, rfl, rfl, rfl, rfl, rfl⟩⟩
  rw [← BitVec.setWidth_eq_extractLsb' (by decide)]
  rfl

/-! ## Commands that reach no owner -/

theorem takeCommand_of_unknown {code : BitVec 4} (q : QueueId) (s : State)
    (h : code ∉ knownCodes) : takeCommand code q s = setResult .unknownCommand s := by
  simp [takeCommand, h]

/-- Settles O31: an unknown code is answered first, a starting engine second. -/
theorem unknownAndStartingCommandsAreRefused : Obligations.UnknownAndStartingCommandsAreRefused := by
  intro s ht
  refine ⟨fun b hb => ?_, fun he q c hc => ?_⟩
  · rw [exec_unknownCommand rfl, hostAccess_taken s ht, takeCommand_of_unknown _ _ hb]; rfl
  · have refused : ∀ code q, knownCodes.contains code = true →
        Host.Outcome.next (ρ := Refusal) (φ := Fault) (hostAccess (takeCommand code q) s) =
          .next (setResult .refusedStarting s) :=
      fun code q hk => congrArg _ (hostAccess_takeCommand_of_starting ht he hk)
    fin_cases hc <;> exact refused _ _ (by decide)

end Sys2Proof.Machine


/-! The fields of words put together, the completion records, and the events. -/

namespace Sys2Proof.Machine

/-! ## Fields of a word put together from parts -/

section
variable {v w : Nat} (x : BitVec v) (y : BitVec w) {a n i : Nat}

/-- A field that lies in the low part. -/
theorem extractLsb'_append_low (h : a + n ≤ w) : (x ++ y).extractLsb' a n = y.extractLsb' a n := by
  ext k hk
  simp only [BitVec.getElem_extractLsb', BitVec.getLsbD_append, show a + k < w by omega, if_true]

/-- A field that lies in the high part. -/
theorem extractLsb'_append_high (h : w ≤ a) : (x ++ y).extractLsb' a n = x.extractLsb' (a - w) n := by
  ext k hk
  simp only [BitVec.getElem_extractLsb', BitVec.getLsbD_append, show ¬a + k < w by omega, if_false,
    show a + k - w = a - w + k by omega]

theorem getLsbD_append_low (h : i < w) : (x ++ y).getLsbD i = y.getLsbD i := by
  simp only [BitVec.getLsbD_append, h, if_true]

theorem getLsbD_append_high (h : w ≤ i) : (x ++ y).getLsbD i = x.getLsbD (i - w) := by
  simp only [BitVec.getLsbD_append, not_lt.2 h, if_false]

end

/-! ## Records (R179) -/

/-- The fields of a record's low word, with `b` its byte 0. -/
theorem recordLow_fields (c : CondSet) (tag seq b : Byte) :
    let low := (0#1 ++ c) ++ tag ++ seq ++ b
    low.extractLsb' 0 8 = b ∧ low.extractLsb' 8 8 = seq ∧ low.extractLsb' 16 8 = tag ∧
    low.extractLsb' 24 7 = c ∧ low.getLsbD 31 = false := by
  simp (disch := decide) only [extractLsb'_append_low, extractLsb'_append_high, getLsbD_append_high,
    BitVec.extractLsb'_eq_self, Nat.reduceSub]
  exact ⟨trivial, trivial, trivial, trivial, rfl⟩

/-- The fields of a record's byte 0. -/
theorem recordByte0_fields (status : Status) (q : QueueId) (echo halted : Bool) :
    let b := statusByte status ||| (if q.bit then 0x08#8 else 0#8) ||| (if echo then 0x10#8 else 0#8) |||
      (if halted then 0x20#8 else 0#8)
    b.extractLsb' 0 3 = (match status with
      | .done => 1#3 | .halted => 2#3 | .skipped => 3#3 | .substituted => 4#3) ∧
    b.getLsbD 3 = (match q with | .q0 => false | .q1 => true) ∧
    b.getLsbD 4 = echo ∧ b.getLsbD 5 = halted ∧ b.extractLsb' 6 2 = 0#2 := by
  cases status <;> cases q <;> cases echo <;> cases halted <;> decide

/-- Settles O42, from the fields of the low word and of its byte 0. -/
theorem recordLayout : Obligations.RecordLayout := by
  intro r
  obtain ⟨hb, hseq, htag, hconds, h31⟩ := recordLow_fields r.conds r.hostTag r.seq (recordByte0 r)
  obtain ⟨hst, hq, hecho, hhalt, h6⟩ :=
    recordByte0_fields r.status r.queue r.echoValid r.haltedAtIssue
  have hbit : ∀ i, i < 8 → (recordBytes r).getLsbD i = (recordByte0 r).getLsbD i := fun i hi =>
    (getLsbD_append_low _ _ (by omega)).trans (getLsbD_append_low _ _ hi)
  have hfield : ∀ a n, a + n ≤ 8 → (recordBytes r).extractLsb' a n = (recordByte0 r).extractLsb' a n :=
    fun a n h => (extractLsb'_append_low _ _ (by omega)).trans (extractLsb'_append_low _ _ h)
  refine ⟨(hfield 0 3 (by decide)).trans hst, (hbit 3 (by decide)).trans hq,
    (hbit 4 (by decide)).trans hecho, (hbit 5 (by decide)).trans hhalt, (hfield 6 2 (by decide)).trans h6,
    (extractLsb'_append_low _ _ (by decide)).trans hseq, (extractLsb'_append_low _ _ (by decide)).trans htag,
    (extractLsb'_append_low _ _ (by decide)).trans hconds, (getLsbD_append_low _ _ (by decide)).trans h31,
    (extractLsb'_append_high _ _ (by decide)).trans BitVec.extractLsb'_eq_self⟩

/-- Settles O41: the latch takes what the head reads. -/
theorem cqHeadReadLatchesRecord : Obligations.CqHeadReadLatchesRecord := by
  intro s ht
  have hx : exec .cqHeadRead s = .next (readCqHead s) := congrArg _ (hostAccess_taken s ht)
  have hread : ∀ i : Fin 8, readWindow (readCqHead s) (0x40#7 + BitVec.ofNat 7 i.val) =
      byteOf (headBytes s.cq) i.val := by
    intro i; fin_cases i <;> rfl
  exact ⟨_, hx, rfl, hread⟩

/-! ## Pops -/

section
variable {s : State}

theorem exec_cqPop (b : Byte) (ht : takesAccess s = true) : exec (.cqPop b) s = .next (writeCqPop s) :=
  congrArg _ (hostAccess_taken s ht)

theorem writeCqPop_of_nonempty (h : s.cq.ring ≠ []) :
    writeCqPop s = reportStall s { s with cq := popRecord s.cq } := by
  rcases writeCqPop_cases s with ⟨he, -⟩ | ⟨-, hp⟩
  · exact absurd he h
  · exact hp

theorem popRecord_of_two {c : CompletionQueue} {r r' : Record} {rs : List Record}
    (h : c.ring = r :: r' :: rs) : popRecord c = { c with ring := r' :: rs } := by
  simp [popRecord, h]

theorem popRecord_of_one {c : CompletionQueue} {r : Record} (h : c.ring = [r]) :
    popRecord c = { c with ring := [], timer := .idle, expired := false } := by
  simp [popRecord, h]

end

/-- Settles O43, by the length of the ring. -/
theorem popRemovesHeadOrFaults : Obligations.PopRemovesHeadOrFaults := by
  intro s b ht
  have hx := exec_cqPop b ht
  refine ⟨fun r r' rs h => ?_, fun r h => ?_, fun h => ?_⟩
  · rw [writeCqPop_of_nonempty (by simp [h]), popRecord_of_two h] at hx
    exact exists_withStarved_of_reportStall hx
  · rw [writeCqPop_of_nonempty (by simp [h]), popRecord_of_one h] at hx
    exact exists_withStarved_of_reportStall hx
  · rcases writeCqPop_cases s with ⟨-, hp⟩ | ⟨hn, -⟩
    · exact exists_faultEntered_of_enterFault (hx.trans (congrArg _ hp))
    · exact absurd h hn

/-! ## EVENT_CODE and EVT_ACK -/

section
variable (e : EventUnit)

/-- The event unit with the latched source `n` cleared. -/
def sourceCleared (n : Nat) : EventUnit :=
  { e with startDone := e.startDone && n != 0, paused := e.paused && n != 4,
           signal := e.signal && n != 6, starved := e.starved && n != 7 }

theorem clearSource_eq (n : Nat) : clearSource n e = sourceCleared e n := by
  unfold clearSource sourceCleared
  split
  · simp
  · simp
  · simp
  · simp
  · rename_i h0 h4 h6 h7
    simp only [show (n != 0) = true by simpa using h0, show (n != 4) = true by simpa using h4,
      show (n != 6) = true by simpa using h6, show (n != 7) = true by simpa using h7, Bool.and_true]

end

section
variable {s : State}

theorem topSource_lt {n : Nat} (h : topSource s = some n) : n < 8 := by
  have := isTopBelow_topSource s
  rw [h] at this
  exact this.1

/-- The event unit after a read of EVENT_CODE, in terms of the code that was read (R158). -/
theorem eventAfterRead_topSource (s : State) : eventAfterRead (topSource s) s.event =
    if eventCode s = 0#8 then s.event else sourceCleared s.event ((eventCode s).toNat % 8) := by
  cases h : topSource s with
  | none => rw [eventCode_of_none h]; rfl
  | some n =>
    have hn := topSource_lt h
    have hc := eventCode_toNat_of_some h
    have h0 : eventCode s ≠ 0#8 := fun e => by rw [e] at hc; simp at hc; omega
    rw [if_neg h0, hc, show (0x80 + 16 * sourceLevel s.event n + n) % 8 = n by omega]
    exact clearSource_eq s.event n

end

/-- Settles O46: the code names the source that `clearSource` clears. -/
theorem eventReadAndAckClearLatchedSources : Obligations.EventReadAndAckClearLatchedSources := by
  intro s ht
  have hx : exec .eventCodeRead s = .next (readEventCode s) := congrArg _ (hostAccess_taken s ht)
  refine ⟨?_, fun b => ?_⟩
  · rw [hx, readEventCode, eventAfterRead_topSource]; rfl
  · have hy : exec (.evtAck b) s = .next (writeEvtAck b s) := congrArg _ (hostAccess_taken s ht)
    rw [hy, writeEvtAck, clearSource_eq]; rfl

/-! ## Status reads -/

section
variable (s : State)

theorem isHalted_iff (Q : Queue) : isHalted Q = true ↔ ∃ h, Q.state = .halted h := by
  unfold isHalted
  cases Q.state <;> simp

theorem cqReady_iff (c : CompletionQueue) : cqReady c = true ↔
    c.threshold.toNat ≤ c.ring.length ∨ c.expired = true ∧ 1 ≤ c.ring.length := by
  simp [cqReady]

/-- Two bytes share a bit exactly when their conjunction is not 0. -/
theorem and_ne_zero_iff (x y : Byte) :
    x &&& y ≠ 0#8 ↔ ∃ n < 8, x.getLsbD n = true ∧ y.getLsbD n = true := by
  constructor
  · intro h
    by_contra hno
    push Not at hno
    refine h (BitVec.eq_of_getLsbD_eq fun i hi => ?_)
    have := hno i hi
    cases hx : x.getLsbD i <;> simp_all
  · rintro ⟨n, hn, hx, hy⟩ h
    have := congrArg (·.getLsbD n) h
    simp [hx, hy] at this

theorem evtAsserted_iff : evtAsserted s = true ↔
    s.event.global = true ∧ evtPending s &&& s.event.enable ≠ 0#8 := by
  simp only [evtAsserted, Bool.and_eq_true, List.any_eq_true, List.mem_range, and_ne_zero_iff]
  refine and_congr_right fun _ => exists_congr fun n => and_congr_right fun hn => ?_
  rw [sourceCalls, Bool.and_eq_true, evtPending_bit s hn]

/-- CELL_TAG in READY: the tag, zeros and the mark (R11). -/
theorem readCellTag_fields (he : s.engine.state = .ready) :
    (readCellTag s).extractLsb' 0 2 = (match (s.cellAt s.cell.addr).tag with
      | .empty => 0#2 | .valid => 1#2 | .poison => 2#2) ∧
    (readCellTag s).extractLsb' 2 5 = 0#5 ∧
    (readCellTag s).getLsbD 7 = isMarked s.issue.marks s.cell.addr := by
  rw [readCellTag, if_neg (by simp [he])]
  cases (s.cellAt s.cell.addr).tag <;> cases isMarked s.issue.marks s.cell.addr <;> decide

/-- A register narrower than a byte reads with zeros above it. -/
theorem setWidth_eq_zero_append {n k : Nat} (x : BitVec n) : x.setWidth (k + n) = 0#k ++ x := by
  ext i hi
  simp only [BitVec.getElem_setWidth, BitVec.getElem_append]
  split
  · rename_i h; exact BitVec.getLsbD_eq_getElem h
  · rename_i h; simp [BitVec.getLsbD_of_ge x i (by omega)]

theorem readHaltMask_eq (Q : Queue) : readHaltMask Q = 0b011#3 ++ Q.haltMask := by
  rw [readHaltMask]
  generalize Q.haltMask = m
  revert m
  decide

end

/-- Settles O44, address by address. -/
theorem statusReadsAndEventLine : Obligations.StatusReadsAndEventLine := by
  intro s
  have hbit : ∀ n, n < 8 → (readWindow s 0x50#7).getLsbD n = sourcePending s n :=
    fun n hn => evtPending_bit s hn
  refine ⟨fun he => ?_, readCellTag_fields s, rfl, fun i => ?_, fun q => ?_, ?_, ?_, rfl, rfl, rfl, rfl, ?_,
    ?_, rfl, rfl, hbit 0 (by decide), ?_, ?_, ?_, hbit 4 (by decide), ?_, hbit 6 (by decide),
    hbit 7 (by decide), evtAsserted_iff s⟩
  · exact if_pos he
  · fin_cases i <;> rfl
  · cases q <;> exact ⟨rfl, rfl, rfl, rfl, readHaltMask_eq _,
      setWidth_eq_zero_append (k := 3) (n := 5) _, setWidth_eq_zero_append (k := 1) (n := 7) _, rfl, rfl,
      setWidth_eq_zero_append (k := 3) (n := 5) _, setWidth_eq_zero_append (k := 3) (n := 5) _, rfl⟩
  · rfl
  · rfl
  · rfl
  · rfl
  · rw [hbit 1 (by decide)]; simp [sourcePending]
  · rw [hbit 2 (by decide)]; exact isHalted_iff s.q0
  · rw [hbit 3 (by decide)]; exact isHalted_iff s.q1
  · rw [hbit 5 (by decide)]; exact cqReady_iff s.cq

end Sys2Proof.Machine


/-! SOFT_RESET, RESUME, FLUSH and CLEAR_STICKY. -/

namespace Sys2Proof.Machine

/-! ## SOFT_RESET (R172) -/

section
variable {s : State} {a : WindowAddr}

/-- The addresses at which the column "After soft reset" gives a value of its own, and the halt masks, the
only addresses of a queue's block that a soft reset leaves as they read. -/
def softResetAddrs : List WindowAddr :=
  [0x02#7, 0x03#7, 0x06#7, 0x20#7, 0x21#7, 0x22#7, 0x23#7, 0x25#7, 0x26#7, 0x27#7, 0x28#7, 0x29#7, 0x2A#7,
   0x2B#7, 0x30#7, 0x31#7, 0x32#7, 0x33#7, 0x35#7, 0x36#7, 0x37#7, 0x38#7, 0x39#7, 0x3A#7, 0x3B#7, 0x48#7,
   0x49#7, 0x24#7, 0x34#7]

/-- EVT_PENDING after a soft reset: PORT_FAULT alone can be pending, for the threshold is 1 or more. -/
theorem evtPending_softReset (h : 1 ≤ s.cq.threshold.toNat) :
    evtPending (softReset s) = if s.port.faultCode = .none then 0x00#8 else 0x02#8 := by
  have h5 : sourcePending (softReset s) 5 = false := by
    simp only [sourcePending, cqReady, softReset, List.length_nil, Bool.false_and, Bool.or_false]
    exact decide_eq_false (by omega)
  have hn : ∀ n, n ≠ 1 → n ≠ 5 → sourcePending (softReset s) n = false := by
    intro n h1 h5
    match n with
    | 0 | 2 | 3 | 4 | 6 | 7 => rfl
    | 1 => exact absurd rfl h1
    | 5 => exact absurd rfl h5
    | _ + 8 => rfl
  have h1 : sourcePending (softReset s) 1 = (s.port.faultCode != .none) := rfl
  refine BitVec.eq_of_getLsbD_eq fun n hlt => ?_
  rw [evtPending_bit _ hlt]
  by_cases e1 : n = 1
  · subst e1; rw [h1]; cases s.port.faultCode <;> rfl
  · have : sourcePending (softReset s) n = false := by
      by_cases e5 : n = 5
      · subst e5; exact h5
      · exact hn n e1 e5
    rw [this]
    split
    · simp
    · interval_cases n <;> first | rfl | exact absurd rfl e1

theorem readWindow_softReset_of_mem (he : s.engine.state = .ready) (h : a ∈ softResetAddrs) :
    readWindow (softReset s) a = softResetValue s a := by
  have h2 : engineByte (softReset s).engine.state = 1#8 := by
    rw [show (softReset s).engine = s.engine from rfl, he]; rfl
  fin_cases h <;> first | exact h2 | rfl

/-- Where the column gives nothing of its own, an address is outside the queue blocks and the counts. -/
theorem not_mem_softResetAddrs : ∀ a : WindowAddr, a ∉ softResetAddrs →
    a ∉ [0x12#7, 0x14#7, 0x40#7, 0x54#7, 0x50#7] →
    (∀ m ∈ [0x02, 0x03, 0x06, 0x12, 0x14, 0x40, 0x48, 0x49, 0x50, 0x54], a.toNat ≠ m) ∧
    ¬(0x20 ≤ a.toNat ∧ a.toNat ≤ 0x2B) ∧ ¬(0x30 ≤ a.toNat ∧ a.toNat ≤ 0x3B) := by
  decide

theorem readWindow_softReset_of_not_mem (h : a ∉ softResetAddrs)
    (h' : a ∉ [0x12#7, 0x14#7, 0x40#7, 0x54#7, 0x50#7]) :
    readWindow (softReset s) a = readWindow s a := by
  obtain ⟨hn, h0, h1⟩ := not_mem_softResetAddrs a h h'
  simp only [List.forall_mem_cons, List.not_mem_nil, false_imp_iff, implies_true, and_true] at hn
  simp only [readWindow, hn, h0, h1, if_false]
  rfl

theorem softResetValue_of_not_mem (h : a ∉ softResetAddrs) (h50 : a ≠ 0x50#7) :
    softResetValue s a = readWindow s a := by
  simp only [softResetAddrs, List.mem_cons, List.not_mem_nil, or_false, not_or] at h
  simp [softResetValue, h, h50]

/-- After a soft reset the window reads as the column "After soft reset" gives. -/
theorem readWindow_softReset (he : s.engine.state = .ready) (ht : 1 ≤ s.cq.threshold.toNat)
    (h : a ∉ [0x12#7, 0x14#7, 0x40#7, 0x54#7]) : readWindow (softReset s) a = softResetValue s a := by
  by_cases hm : a ∈ softResetAddrs
  · exact readWindow_softReset_of_mem he hm
  by_cases h50 : a = 0x50#7
  · subst h50; exact evtPending_softReset ht
  · rw [softResetValue_of_not_mem hm h50]
    exact readWindow_softReset_of_not_mem hm (by simp_all)

end

/-- Settles O9, by whether the column gives the address a value of its own. -/
theorem softResetKeepsCellsAndConfiguration : Obligations.SoftResetKeepsCellsAndConfiguration := by
  rintro s hs ⟨-, -, hth, -⟩
  have hx : exec .softReset s = .next (softReset s) := congrArg _ (hostAccess_takeCommand hs .q0 (by decide))
  exact ⟨_, hx, rfl, fun a ha => readWindow_softReset hs.2 hth ha⟩

/-! ## RESUME (R75) -/

section
variable {s : State} {q : QueueId}

/-- The queue is in a state in which a RESUME is refused. -/
def Stopping (Q : Queue) : Prop := Q.state = .active ∨ Q.state = .pausing ∨ ∃ h, Q.state = .draining h

theorem resumeCommand_of_paused (h : (s.queue q).state = .paused) (harg : s.port.cmdArg = 0#8) :
    resumeCommand q s = setResult .accepted (s.setQueue q { s.queue q with state := .active }) := by
  simp [resumeCommand, h, harg, setQState]

theorem resumeCommand_of_paused_arg (h : (s.queue q).state = .paused) (harg : s.port.cmdArg ≠ 0#8) :
    resumeCommand q s = setResult .refusedArg s := by
  have : s.port.cmdArg.toNat ≠ 0 := fun e => harg (BitVec.eq_of_toNat_eq e)
  simp [resumeCommand, h, this]

theorem resumeCommand_of_stopping (h : Stopping (s.queue q)) (harg : s.port.cmdArg.toNat < 4) :
    resumeCommand q s = setResult .refusedState s := by
  rcases h with h | h | ⟨_, h⟩ <;> simp [resumeCommand, h, not_le.2 harg]

theorem resumeCommand_of_large (harg : 4 ≤ s.port.cmdArg.toNat) :
    resumeCommand q s = setResult .refusedArg s := by
  simp [resumeCommand, harg]

/-- A RESUME that is refused reports nothing. -/
theorem exec_resume_of_refused (hs : HostReady s) {c : Instr} {r : CmdResult}
    (hc : c ∈ [.resumePlain q, .resumeRetry q, .resumeSkip q, .resumeSubstitute q,
      .resumeOtherArgument q])
    (h : resumeCommand q s = setResult r s) : exec c s = .next (setResult r s) := by
  rw [exec_resume_of_hostReady hs hc, h, reportStall_setResult]

end

/-- Settles O26, by the queue's state. -/
theorem resumeByQueueState : Obligations.ResumeByQueueState := by
  intro s q hs
  have hplain := exec_resume_of_hostReady (q := q) hs (c := .resumePlain q) (by simp)
  refine ⟨fun harg h => ?_, fun harg h => ?_, fun harg h hh => ?_, fun c hc => ?_, fun harg => ?_⟩
  · rw [resumeCommand_of_paused h harg] at hplain
    exact exists_withStarved_of_reportStall hplain
  · exact exec_resume_of_refused (q := q) hs (by simp) (resumeCommand_of_stopping h (by rw [harg]; decide))
  · exact exec_resume_of_refused (q := q) hs (by simp) (by simp [resumeCommand, hh, harg])
  · have hmem : c ∈ [.resumePlain q, .resumeRetry q, .resumeSkip q, .resumeSubstitute q,
        .resumeOtherArgument q] := by
      rcases hc with ⟨h, -⟩ | ⟨h, -⟩ | ⟨h, -⟩ <;> simp [h]
    have harg : s.port.cmdArg ≠ 0#8 ∧ s.port.cmdArg.toNat < 4 := by
      rcases hc with ⟨-, h⟩ | ⟨-, h⟩ | ⟨-, h⟩ <;> rw [h] <;> decide
    exact ⟨fun h => exec_resume_of_refused hs hmem (resumeCommand_of_paused_arg h harg.1),
      fun h => exec_resume_of_refused hs hmem (resumeCommand_of_stopping h harg.2)⟩
  · exact exec_resume_of_refused (q := q) hs (by simp) (resumeCommand_of_large harg)

/-! ## FLUSH and CLEAR_STICKY (R76, R77) -/

section
variable {s : State} {q : QueueId}

theorem exec_flush (hs : HostReady s) : exec (.flush q) s = .next (flushCommand q s) :=
  congrArg _ (hostAccess_takeCommand hs q (by decide))

theorem flushCommand_of_paused (h : (s.queue q).state = .paused) : flushCommand q s =
    setResult .accepted (s.setQueue q { s.queue q with
      ring := [], retry := none, state := .paused, flushCount := flushable (s.queue q) }) := by
  simp [flushCommand, h]

theorem flushCommand_of_halted {a : HeldJob} (h : (s.queue q).state = .halted a) : flushCommand q s =
    setResult .accepted (s.setQueue q { s.queue q with
      ring := [], retry := none, state := .paused, flushCount := flushable (s.queue q) }) := by
  simp [flushCommand, h]

theorem flushCommand_of_stopping (h : Stopping (s.queue q)) :
    flushCommand q s = setResult .refusedState s := by
  rcases h with h | h | ⟨_, h⟩ <;> simp [flushCommand, h]

end

/-- Settles O27: what a FLUSH counts is the ring with the retry position and the held job. -/
theorem flushAndClearSticky : Obligations.FlushAndClearSticky := by
  intro s q hs
  refine ⟨fun h hr => ?_, fun h j hr => ?_, fun a h hr => ?_, fun h => ?_, ?_⟩
  · have hn : flushable (s.queue q) = (s.queue q).ring.length := by simp [flushable, h, hr, heldJob]
    rw [exec_flush hs, flushCommand_of_paused h, hn]; rfl
  · have hn : flushable (s.queue q) = (s.queue q).ring.length + 1 := by simp [flushable, h, hr, heldJob]
    rw [exec_flush hs, flushCommand_of_paused h, hn]; rfl
  · have hn : flushable (s.queue q) = (s.queue q).ring.length + 1 := by simp [flushable, h, hr, heldJob]
    rw [exec_flush hs, flushCommand_of_halted h, hn]; rfl
  · rw [exec_flush hs, flushCommand_of_stopping h]; rfl
  · exact congrArg _ (hostAccess_takeCommand hs q (by decide))

end Sys2Proof.Machine


/-! The ends of an issue as the manual words them, and the arbiter's choice between two heads. -/

namespace Sys2Proof.Machine

section
variable {s : State} {q : QueueId} {j : Job} {o : Op} {cl : Claim}

/-! ## Control jobs -/

theorem not_malformed_of_jobOp {d : Desc} (h : jobOp d = some o) : malformed d = false := by
  cases hm : malformed d with
  | false => rfl
  | true => simp [jobOp, hm] at h

/-- A control job inspects no cell and claims no unit. -/
theorem control_inspects_nothing (Q : Queue) {d : Desc} (h : jobOp d = some o) (hc : isControl o = true) :
    inspectedCells Q d = [] ∧ claimOf d = none := by
  rcases (by simpa [isControl] using hc : o = .setframe ∨ o = .fence) with rfl | rfl <;>
    simp [inspectedCells, sourceCells, aCells, bCells, dCells, claimOf, claimFor, h, readsA, readsB, readsDst]

/-- A control job goes through the checks and completes at its issue (R94, R98, R99). -/
theorem issueJob_of_control (h : jobOp j.desc = some o) (hc : isControl o = true) : issueJob q j s =
    endReservation q j 0#7 none (if o = .fence then signalFence j.desc (reservedHead q s)
      else setFrame q j.desc (reservedHead q s)) := by
  obtain ⟨hcells, hclaim⟩ := control_inspects_nothing (s.queue q) h hc
  have hcheck : ∀ m, issueCheck s (s.queue q) j.desc m = none := by
    intro m
    simp [issueCheck, not_malformed_of_jobOp h, hcells]
  have hfence : isFence j.desc = true ↔ o = .fence := by rw [isFence_iff, h, Option.some.injEq]
  simp only [issueJob, hcheck, hclaim, hfence, reservedHead]

/-- The reservation of a control job ends from the completion queue without it (R136). -/
theorem reservationEnded_reservedHead (cs : CondSet) (echo : Option Raw) :
    ReservationEnded q j cs echo s.cq (endReservation q j cs echo (reservedHead q s)).cq := by
  have := reservationEnded_endReservation q j cs echo (reservedHead q s)
  rwa [reservedHead, setQueue_cq, releaseSlot_takeSlot] at this

/-- Whatever the stall report adds, a control job's issue ends as R48 and R49 have it. -/
theorem controlDone_issueJob (b : Bool) : ControlDone s q j (withStarved (issueJob q j s) b) := by
  refine ⟨fun h => ?_, fun h => ?_⟩
  · rw [issueJob_of_control h rfl, if_neg (by decide), endReservation_setFrame]
    have hv : (immField j.desc).setWidth 5 = j.desc.extractLsb' 48 5 := setWidth_immField _ (by decide)
    rw [hv]
    cases q <;> exact ⟨reservationEnded_reservedHead _ _, rfl⟩
  · rw [issueJob_of_control h rfl, if_pos rfl, endReservation_signalFence]
    cases q <;> exact ⟨reservationEnded_reservedHead _ _, rfl⟩

/-! ## Jobs that start in a unit -/

theorem issueCheck_of_checksPass (h : ChecksPass s q j o cl) :
    issueCheck s (s.queue q) j.desc (fullMask (s.queue q).haltMask) = none := by
  obtain ⟨hop, -, hempty, hpoison⟩ := h
  rw [inspectedTags] at hempty hpoison
  simp only [issueCheck, not_malformed_of_jobOp hop, fullMask_poisonIn, List.contains_iff_mem,
    Bool.and_eq_true]
  rw [if_neg (by simp), if_neg hempty, if_neg]
  rintro ⟨hp, hm⟩
  rw [hpoison hp] at hm
  cases hm

/-- The entry of a job whose checks pass. -/
def issuedEntry (s : State) (q : QueueId) (j : Job) (cl : Claim) : InFlight :=
  captureEntry s q j (fullMask (s.queue q).haltMask) cl

theorem issueJob_of_checksPass (h : ChecksPass s q j o cl) : issueJob q j s =
    { s with cq := takeSlot s.cq
             issue := { claimUnits s.issue (some cl) with
               marks := setMarks (destCells (s.queue q) j.desc) s.issue.marks,
               inflight := s.issue.inflight ++ [issuedEntry s q j cl] } }.setQueue q
      { dropHead (s.queue q) with inflight := (dropHead (s.queue q)).inflight + 1 } := by
  have hclaim : claimOf j.desc = some cl := by
    obtain ⟨hop, hcl, -⟩ := h
    simp only [claimOf, hop, hcl]
  have hstart : issueJob q j s = startJob (issuedEntry s q j cl) (reservedHead q s) := by
    simp only [issueJob, issueCheck_of_checksPass h, hclaim, reservedHead, issuedEntry]
  exact hstart.trans (startJob_reservedHead (e := issuedEntry s q j cl) rfl)

/-- The units after a claim that fits (R91). -/
theorem claimUnits_units (il : IssueLogic) : ClaimFree il cl →
    ((claimUnits il (some cl)).tu, (claimUnits il (some cl)).su, (claimUnits il (some cl)).pu) =
      (match cl with
       | .tu => (TuOcc.busy, il.su, il.pu)
       | .su => (il.tu, SuOcc.busy, il.pu)
       | .puScalar => (il.tu, il.su, if il.pu = .idle then .oneScalar else .twoScalar)
       | .puWhole => (il.tu, il.su, .whole)
       | .puAndSu => (il.tu, SuOcc.lent, .whole)) := by
  intro hfree
  cases cl with
  | puScalar => rcases hfree with h | h <;> simp [claimUnits, h]
  | tu | su | puWhole | puAndSu => rfl

/-- Whatever the stall report adds, a job whose checks pass and whose capacity is free starts (R96). -/
theorem startsJob_issueJob (h : ChecksPass s q j o cl) (hfree : ClaimFree s.issue cl) (b : Bool) :
    StartsJob s q j o cl (withStarved (issueJob q j s) b) := by
  have hop := h.1
  have hissue : (withStarved (issueJob q j s) b).issue = { claimUnits s.issue (some cl) with
      marks := setMarks (destCells (s.queue q) j.desc) s.issue.marks,
      inflight := s.issue.inflight ++ [issuedEntry s q j cl] } := by
    rw [issueJob_of_checksPass h, withStarved, setQueue_issue]
  refine ⟨issuedEntry s q j cl, rfl, rfl, rfl, ?_, ?_, rfl, rfl, rfl, rfl, rfl, fun n => ?_, ?_, ?_⟩
  · simp [issuedEntry, captureEntry, guardedUnder, hop]
  · simp [issuedEntry, captureEntry, poisonFound, inspectedTags]
  · rw [hissue]; exact isMarked_setMarks
  · rw [hissue]; exact claimUnits_units s.issue hfree
  · rw [hissue, issueJob_of_checksPass h, claimUnits_eq]
    cases q <;> simp [withStarved, State.setQueue, takeSlot]

/-! ## The whole issue -/

/-- However its checks go, the issue of a head that may issue is the issue of R94. -/
theorem issueDone_issueJob (hfree : ∀ c, claimOf j.desc = some c → ClaimFree s.issue c) (b : Bool) :
    IssueDone s q j (withStarved (issueJob q j s) b) := by
  refine ⟨fun c h => haltsAtIssue_issueJob h b, controlDone_issueJob b, fun o cl h => ?_⟩
  refine startsJob_issueJob h (hfree cl ?_) b
  obtain ⟨hop, hcl, -⟩ := h
  simp only [claimOf, hop, hcl]

end

/-- Settles O35: a control job alone issues whole. -/
theorem controlJobsCompleteAtIssue : Obligations.ControlJobsCompleteAtIssue := by
  intro s q j halone _
  refine ⟨_, exec_issue_of_issuesAlone halone, ?_⟩
  rw [reportStall_withStarved]
  exact controlDone_issueJob _

/-- Settles O36: the job that issues alone found its capacity free. -/
theorem passedChecksStartTheJob : Obligations.PassedChecksStartTheJob := by
  intro s q j o cl halone hpass
  refine ⟨_, exec_issue_of_issuesAlone halone, ?_⟩
  rw [reportStall_withStarved]
  obtain ⟨-, -, hdone⟩ := issueDone_issueJob (s := s) (q := q) halone.1.claimFree
    (reportStall s (issueJob q j s)).event.starved
  exact hdone o cl hpass

/-! ## The arbiter (R105) -/

section
variable {s : State} {q w : QueueId} {j j' : Job} {n : Nat}

theorem arbitrate_of_no_guard {il : IssueLogic} (h : il.guardK = 0#4) :
    arbitrate il = (il.preferred, 0) := by
  simp [arbitrate, h]

theorem arbitrate_of_below {il : IssueLogic} (h : il.guardK ≠ 0#4) (hlt : il.starvation < il.guardK.toNat) :
    arbitrate il = (il.preferred, il.starvation + 1) := by
  simp [arbitrate, h, hlt]

theorem arbitrate_of_reached {il : IssueLogic} (h : il.guardK ≠ 0#4)
    (he : il.starvation = il.guardK.toNat) : arbitrate il = (il.preferred.other, 0) := by
  simp [arbitrate, h, he]

theorem arbitrate_of_wins (h : Wins s w) : (arbitrate s.issue).1 = w := by
  rcases h with ⟨rfl, hk | hlt⟩ | ⟨rfl, hk, he⟩
  · rw [arbitrate_of_no_guard hk]
  · have hk : s.issue.guardK ≠ 0#4 := fun e => by rw [e] at hlt; exact absurd hlt (Nat.not_lt_zero _)
    rw [arbitrate_of_below hk hlt]
  · rw [arbitrate_of_reached hk he]

/-- `s` with the starvation counter at `n`. -/
def withStarvation (n : Nat) (s : State) : State := { s with issue := { s.issue with starvation := n } }

theorem inConflict_of_conflict (h : MayIssue s q j) (h' : MayIssue s q.other j') (hc : Conflict s q j j') :
    inConflict s q = true := by
  have hq : issuable s q = true := issuable_iff.2 ⟨j, h⟩
  have hq' : issuable s q.other = true := issuable_iff.2 ⟨j', h'⟩
  simp only [inConflict, hq, hq', h.headJob_eq, h'.headJob_eq, Bool.true_and]
  exact (headsConflict_iff h h').2 hc

/-- Of two conflicting heads the arbiter's winner issues, from the state with its counter. -/
theorem exec_issue_of_conflict (hc : inConflict s q = true) (hw : (arbitrate s.issue).1 = w)
    (hn : (arbitrate s.issue).2 = n) (hj : headJob (s.queue w) = some j) :
    exec (.issue q) s = .next (reportStall s (issueJob w j (withStarvation n s))) := by
  have hq : (withStarvation n s).queue w = s.queue w := queue_with_issue _
  have : examineHead q s = issueJob w j (withStarvation n s) := by
    rw [examineHead, if_pos hc]
    subst hw hn
    change issueHead _ (withStarvation _ s) = _
    simp only [issueHead, hq, hj]
  exact congrArg (fun t => Host.Outcome.next (reportStall s t)) this

theorem headTaken_withStarvation {t : State} (h : HeadTaken (withStarvation n s) t w) : HeadTaken s t w := by
  simpa only [HeadTaken, withStarvation, queue_with_issue] using h

theorem claimFree_withStarvation {c : Claim} (h : ClaimFree s.issue c) :
    ClaimFree (withStarvation n s).issue c := by
  cases c <;> exact h

theorem headJob_of_either (h : MayIssue s q j) (h' : MayIssue s q.other j') (w : QueueId) :
    ∃ i, MayIssue s w i := by
  rcases eq_or_eq_other q w with rfl | rfl
  · exact ⟨j, h⟩
  · exact ⟨j', h'⟩

end

/-- Settles O33: the arbiter's table gives the winner and the counter, and the winner issues whole from the
state with that counter. -/
theorem arbiterChoosesTheWinner : Obligations.ArbiterChoosesTheWinner := by
  intro s q j j' hmay hmay' hconf
  obtain ⟨i, hi⟩ := headJob_of_either hmay hmay' (arbitrate s.issue).1
  have hx := exec_issue_of_conflict (inConflict_of_conflict hmay hmay' hconf) rfl rfl hi.headJob_eq
  refine ⟨_, hx, ?_⟩
  generalize hu : issueJob (arbitrate s.issue).1 i (withStarvation (arbitrate s.issue).2 s) = u
  have htaken : HeadTaken s (reportStall s u) (arbitrate s.issue).1 :=
    headTaken_withStarvation (hu ▸ headTaken_issueJob.reportStall s)
  have hstarv : (reportStall s u).issue.starvation = (arbitrate s.issue).2 := by
    obtain ⟨-, -, -, h, -⟩ := issueJob_frame (withStarvation (arbitrate s.issue).2 s) (arbitrate s.issue).1 i
    rw [reportStall_issue, ← hu, h]; rfl
  refine ⟨fun hk => ?_, fun hk hlt => ?_, fun hk he => ?_, fun w jw hw hjw => ?_⟩
  · rw [arbitrate_of_no_guard hk] at htaken hstarv; exact ⟨htaken, hstarv⟩
  · rw [arbitrate_of_below hk hlt] at htaken hstarv; exact ⟨htaken, hstarv⟩
  · rw [arbitrate_of_reached hk he] at htaken hstarv; exact ⟨htaken, hstarv⟩
  · obtain rfl := arbitrate_of_wins hw
    obtain rfl : i = jw := Option.some.inj (hi.headJob_eq.symm.trans hjw)
    rw [hstarv, ← withStarvation, reportStall_withStarved, ← hu]
    exact issueDone_issueJob (s := withStarvation (arbitrate s.issue).2 s)
      (fun c hc => claimFree_withStarvation (hi.claimFree c hc)) _

end Sys2Proof.Machine


/-! Completions as the manual words them: what a writing one and an execution halt leave, and the access
that a completion carries out. -/

namespace Sys2Proof.Machine

section
variable {s : State} {i : Nat} {e : InFlight}

/-! ## What a completion leaves as it was -/

theorem haltsAtCompletion_iff : haltsAtCompletion e = true ↔
    e.guarded = true ∧ jobConds e &&& e.mask ≠ 0#7 := by
  simp [haltsAtCompletion]

theorem haltsAtCompletion_of_clear (h : e.guarded = false ∨ jobConds e &&& e.mask = 0#7) :
    haltsAtCompletion e = false := by
  rw [← Bool.not_eq_true, haltsAtCompletion_iff]
  rintro ⟨hg, hm⟩
  rcases h with h | h
  · rw [hg] at h; cases h
  · exact hm h

/-- What the writes and the retirement of a job leave alone. -/
theorem retired_frame : retired i e s = { s with
    cell := { s.cell with cells := (retired i e s).cell.cells }
    q0 := (retired i e s).q0, q1 := (retired i e s).q1, issue := (retired i e s).issue } := by
  have hp : ∃ cs, (if haltsAtCompletion e then s else putResults e.dests (jobResults e) s) =
      { s with cell := { s.cell with cells := cs } } := by
    split
    · exact ⟨_, rfl⟩
    · exact ⟨_, putResults_eq _ _ _⟩
  obtain ⟨cs, hp⟩ := hp
  have hr := (retireJob_frame i e { s with cell := { s.cell with cells := cs } }).2.2
  rw [retired, hp]
  generalize retireJob i e _ = r at hr ⊢
  rw [hr]

theorem retired_cell : (retired i e s).cell = { s.cell with cells := (retired i e s).cell.cells } :=
  congrArg State.cell retired_frame

theorem retired_held : (retired i e s).cell.held = s.cell.held := by rw [retired_cell]

theorem retired_readData : (retired i e s).readData = s.readData := by rw [retired_frame]

/-- What a writing completion leaves alone before it looks at what its queue was waiting for. -/
theorem written_frame : written i e s = { s with
    cell := (settleHeld (retired i e s)).cell, issue := (retired i e s).issue
    q0 := (written i e s).q0, q1 := (written i e s).q1, cq := (written i e s).cq
    readData := (settleHeld (retired i e s)).readData } := by
  have hr := retired_frame (i := i) (e := e) (s := s)
  have hu := settleHeld_frame (retired i e s)
  unfold written setSticky endReservation
  generalize settleHeld (retired i e s) = u at hu ⊢
  generalize retired i e s = r at hr hu ⊢
  rw [hu, hr]
  cases e.queue <;> rfl

theorem completeJob_readData (h : s.issue.inflight[i]? = some e) :
    (completeJob i s).readData = (settleHeld (retired i e s)).readData := by
  cases hh : haltsAtCompletion e with
  | true => rw [completeJob_of_halts h hh, haltQueue, setQueue_readData]
  | false =>
    rw [completeJob_of_writes h hh, (settleQueue_frame _ _).2.2, written_frame]

/-- What a writing completion leaves alone. -/
theorem completeJob_frame_of_writes (h : s.issue.inflight[i]? = some e) (hh : haltsAtCompletion e = false) :
    completeJob i s = { s with
      cell := (completeJob i s).cell, issue := (completeJob i s).issue
      q0 := (completeJob i s).q0, q1 := (completeJob i s).q1, cq := (completeJob i s).cq
      event := { s.event with paused := (completeJob i s).event.paused }
      readData := (completeJob i s).readData } := by
  have hs := (settleQueue_frame e.queue (written i e s)).2.2
  have hw := written_frame (i := i) (e := e) (s := s)
  rw [completeJob_of_writes h hh]
  generalize settleQueue e.queue (written i e s) = t at hs ⊢
  generalize written i e s = u at hs hw
  rw [hs, hw]

/-! ## The marks, the units and the entry (R86, R91) -/

theorem released_eq (il : IssueLogic) (cl : Claim) :
    ((releaseUnits il cl).tu, (releaseUnits il cl).su, (releaseUnits il cl).pu) = released il cl := by
  cases cl <;> rfl

/-- The issue logic after a completion: the marks and the entry of the job gone, its capacity free. -/
theorem completeJob_issue (h : s.issue.inflight[i]? = some e) :
    (∀ cell : CellNo, isMarked (completeJob i s).issue.marks cell = true ↔
      isMarked s.issue.marks cell = true ∧ cell ∉ e.dests) ∧
    (completeJob i s).issue.inflight = s.issue.inflight.eraseIdx i ∧
    ((completeJob i s).issue.tu, (completeJob i s).issue.su, (completeJob i s).issue.pu) =
      released s.issue e.claim ∧
    (completeJob i s).issue = { s.issue with
      marks := (completeJob i s).issue.marks, inflight := (completeJob i s).issue.inflight,
      tu := (completeJob i s).issue.tu, su := (completeJob i s).issue.su,
      pu := (completeJob i s).issue.pu } := by
  obtain ⟨-, hissue⟩ := completeJob_cell_issue h
  rw [hissue]
  refine ⟨fun cell => isMarked_retired, by rw [retired_issue], ?_, ?_⟩
  · rw [retired_issue]; exact released_eq s.issue e.claim
  · rw [retired_issue, releaseUnits_eq]

/-! ## The held access (R14) -/

/-- A held access on none of the job's cells stays held. -/
theorem settleHeld_retired_of_apart
    (hm : ∀ a, s.cell.held = some a → isMarked s.issue.marks a.cell = true)
    (h : ∀ a, s.cell.held = some a → a.cell ∉ e.dests) : settleHeld (retired i e s) = retired i e s :=
  settleHeld_of_marked fun a ha => by
    rw [retired_held] at ha
    exact isMarked_retired.2 ⟨hm a ha, h a ha⟩

/-- A held access on a cell of the job is carried out. -/
theorem settleHeld_retired_of_mem {a : HeldAccess} (ha : s.cell.held = some a) (h : a.cell ∈ e.dests) :
    settleHeld (retired i e s) = doAccess a.kind a.cell
      { retired i e s with cell := { (retired i e s).cell with held := none } } := by
  refine settleHeld_of_cleared (retired_held.trans ha) (Bool.eq_false_iff.2 fun hm => ?_)
  exact (isMarked_retired.1 hm).2 h

/-- A held access that is carried out changes no cell but that of a write. -/
theorem cellAt_settleHeld {u : State} {k : CellNo} (hu : CellsSound u)
    (h : ∀ a b, u.cell.held = some a → a.kind = .write b → a.cell = k →
      isMarked u.issue.marks k = true) : (settleHeld u).cellAt k = u.cellAt k := by
  by_cases hm : ∀ a, u.cell.held = some a → isMarked u.issue.marks a.cell = true
  · rw [settleHeld_of_marked hm]
  · push Not at hm
    obtain ⟨a, ha, hna⟩ := hm
    rw [settleHeld_of_cleared ha (by simpa using hna)]
    cases hk : a.kind with
    | read => rfl
    | write b =>
      have hne : k ≠ a.cell := fun e => hna (e ▸ h a b ha hk e.symm)
      have hu' : CellsSound { u with cell := { u.cell with held := none } } := hu
      rw [doAccess, cellAt_doCellWrite b hu', if_neg hne]
      rfl

end

/-! ## Writing completions -/

section
variable {s : State} {i : Nat} {e : InFlight}

theorem exec_jobCompletion (n : Fin 4) (s : State) :
    exec (.jobCompletion n) s = .next (reportStall s (completeJob n.val s)) := rfl

/-- The cells of a state depend on the cell store alone. -/
theorem cellAt_completeJob_eq (h : s.issue.inflight[i]? = some e) (k : CellNo) :
    (completeJob i s).cellAt k = (settleHeld (retired i e s)).cellAt k :=
  cellAt_congr (completeJob_cell_issue h).1 k

/-- After a job that writes, before the held access, each destination holds its element's result. -/
theorem cellAt_retired_of_writes {j : Nat} {k : CellNo} {r : ElemResult} (hs : CellsSound s)
    (he : EntrySound e) (hh : haltsAtCompletion e = false) (hk : e.dests[j]? = some k)
    (hr : (jobResults e)[j]? = some r) : (retired i e s).cellAt k = r.cell := by
  have hnodup : e.dests.Nodup := by
    obtain ⟨o, -, -, -, hd, -⟩ := he
    exact hd
  have hcells : (retired i e s).cell.cells = (putResults e.dests (jobResults e) s).cell.cells := by
    rw [retired_cells, hh]; rfl
  rw [State.cellAt, hcells, ← State.cellAt]
  exact cellAt_putResults hs hnodup hk hr (inForm_of_mem_jobResults (List.mem_of_getElem? hr))

/-- A held access, marked before the completion, is carried out over a cell only if that is a cell of the
job. -/
theorem marked_of_held_apart {k : CellNo}
    (hm : ∀ a, s.cell.held = some a → isMarked s.issue.marks a.cell = true)
    (h : ∀ a b, s.cell.held = some a → a.kind = .write b → a.cell = k → k ∉ e.dests) :
    ∀ a b, (retired i e s).cell.held = some a → a.kind = .write b → a.cell = k →
      isMarked (retired i e s).issue.marks k = true := by
  intro a b ha hb hk
  rw [retired_held] at ha
  exact isMarked_retired.2 ⟨hk ▸ hm a ha, h a b ha hb hk⟩

end

/-- Settles O37, part by part: the writes, the held access, the issue logic, the queue, and the rest. -/
theorem completionWritesEveryElement : Obligations.CompletionWritesEveryElement := by
  intro s n e hs he h hclear hm
  have hh := haltsAtCompletion_of_clear hclear
  obtain ⟨hmarks, hflight, hunits, hissue⟩ := completeJob_issue h
  obtain ⟨hcell, -⟩ := completeJob_cell_issue h
  refine ⟨_, exec_jobCompletion n s, fun j k hk hfree => ?_, fun k hk => ?_, fun hapart => ?_, ?_, ?_, ?_,
    ?_, ?_, ?_, ?_⟩
  · obtain ⟨r, hr⟩ := exists_result he hk
    refine ⟨r, hr, ?_⟩
    rw [cellAt_congr (reportStall_cell _ _), cellAt_completeJob_eq h, cellAt_settleHeld (wf_retired hs),
      cellAt_retired_of_writes hs he hh hk hr]
    intro a b ha hb hc
    rw [retired_held] at ha
    exact absurd hc (hfree a b ha hb)
  · rw [cellAt_congr (reportStall_cell _ _), cellAt_completeJob_eq h, cellAt_settleHeld (wf_retired hs),
      cellAt_retired_of_not_mem hs hk]
    exact marked_of_held_apart hm fun _ _ _ _ _ => hk
  · rw [reportStall_cell, reportStall_readData, hcell, completeJob_readData h,
      settleHeld_retired_of_apart hm hapart]
    exact ⟨retired_cell, retired_readData⟩
  · simpa only [reportStall_issue] using hmarks
  · simpa only [reportStall_issue] using hflight
  · simpa only [reportStall_issue] using hunits
  · simpa only [reportStall_issue] using hissue
  · simp only [reportStall_queue]
    rw [completeJob_of_writes h hh]
    conv_lhs => rw [(settleQueue_frame _ _).2.1, written_queue.1]
    rw [stickyBits, BitVec.setWidth_eq_extractLsb' (by decide)]
  · rw [reportStall_queue, completeJob_queue_other h]
  · have hf := completeJob_frame_of_writes h hh
    rw [reportStall_withStarved]
    generalize completeJob n.val s = t at hf ⊢
    rw [hf]
    rfl

/-! ## The reservation, and what a queue was waiting for -/

section
variable {s : State} {q : QueueId} {i : Nat} {e : InFlight}

theorem settleQueue_of_running (h : (s.queue q).inflight ≠ 0 ∨ (s.queue q).state = .active) :
    settleQueue q s = s := by
  unfold settleQueue
  rcases h with h | h <;> simp [h]

theorem settleQueue_of_pausing (hz : (s.queue q).inflight = 0) (h : (s.queue q).state = .pausing) :
    settleQueue q s = { s with event := { s.event with paused := true } }.setQueue q
      { s.queue q with state := .paused } := by
  simp [settleQueue, hz, h]

theorem settleQueue_of_draining {a : HeldJob} (hz : (s.queue q).inflight = 0)
    (h : (s.queue q).state = .draining a) : settleQueue q s = haltQueue q a s := by
  simp [settleQueue, hz, h]

theorem echoOf_eq (rs : List ElemResult) : echoOf rs =
    (match rs.head? with
     | some r => if r.cell.tag = .valid then some r.cell.value else none
     | none => none) := by
  cases rs <;> rfl

/-- The record of a halted job fills its reservation (R78, R116). -/
theorem posted_haltQueue (q : QueueId) (a : HeldJob) (s : State) :
    Posted (heldOf .halted q a none) { s.cq with reserved := s.cq.reserved - 1 } (haltQueue q a s).cq := by
  rw [haltQueue, setQueue_cq, heldOf_eq]
  exact posted_postRecord _ _

theorem written_event : (written i e s).event = s.event := by rw [written_frame]

end

/-- Settles O38, by what the queue was waiting for. -/
theorem lastCompletionEndsPausingOrDraining : Obligations.LastCompletionEndsPausingOrDraining := by
  intro s n e h hclear _
  have hh := haltsAtCompletion_of_clear hclear
  obtain ⟨hqueue, -⟩ := written_queue (i := n.val) (e := e) (s := s)
  have hres := reservationEnded_endReservation e.queue e.job (jobConds e) (echoOf (jobResults e)) s
  rw [← written_cq (i := n.val), echoOf_eq] at hres
  refine ⟨_, (written n.val e s).cq, exec_jobCompletion n s, hres, ?_⟩
  rw [completeJob_of_writes h hh]
  simp only [reportStall_cq, reportStall_queue, reportStall_event]
  refine ⟨fun hgo => ?_, fun hone hst => ?_, fun hone a hst => ?_⟩
  · have hrun : settleQueue e.queue (written n.val e s) = written n.val e s := by
      refine settleQueue_of_running ?_
      rw [hqueue]
      exact hgo.imp (fun h => by dsimp only; omega) id
    rw [hrun, hqueue, written_event]
    exact ⟨rfl, rfl, rfl⟩
  · have hz : ((written n.val e s).queue e.queue).inflight = 0 := by rw [hqueue]; dsimp only; omega
    rw [settleQueue_of_pausing hz (by rw [hqueue]; exact hst)]
    simp
  · have hz : ((written n.val e s).queue e.queue).inflight = 0 := by rw [hqueue]; dsimp only; omega
    rw [settleQueue_of_draining hz (by rw [hqueue]; exact hst)]
    refine ⟨posted_haltQueue _ _ _, ?_, ?_⟩
    · rw [haltQueue, setQueue_event]
      exact congrArg EventUnit.paused written_event
    · rw [(haltQueue_queue _ _ _).1, hqueue, stickyBits, BitVec.setWidth_eq_extractLsb' (by decide), hone]

/-! ## Execution halts -/

section
variable {s : State} {i : Nat} {e : InFlight}

/-- A halting job writes no cell. -/
theorem cellAt_retired_of_halts (hh : haltsAtCompletion e = true) (k : CellNo) :
    (retired i e s).cellAt k = s.cellAt k := by
  rw [State.cellAt, retired_cells, if_pos hh, ← State.cellAt]

/-- A guarded job in flight is the only one of its queue (R93). -/
theorem inflight_of_guarded (hs : QueuesSound s) (h : s.issue.inflight[i]? = some e)
    (hg : e.guarded = true) : (s.queue e.queue).inflight = 1 := by
  obtain ⟨-, -, -, -, hguard, -⟩ := hs
  exact (hguard e (List.mem_of_getElem? h) hg).1

theorem completeJob_cq_of_halts (h : s.issue.inflight[i]? = some e) (hh : haltsAtCompletion e = true) :
    Posted (heldOf .halted e.queue ⟨e.job, jobConds e, false⟩ none)
      { s.cq with reserved := s.cq.reserved - 1 } (completeJob i s).cq := by
  have := posted_haltQueue e.queue ⟨e.job, jobConds e, false⟩ (settleHeld (retired i e s))
  rwa [settleHeld_cq, retired_cq, ← completeJob_of_halts h hh] at this

theorem haltQueue_frame (q : QueueId) (a : HeldJob) (s : State) : haltQueue q a s =
    { s with q0 := (haltQueue q a s).q0, q1 := (haltQueue q a s).q1, cq := (haltQueue q a s).cq } := by
  cases q <;> rfl

/-- A state that differs from `s` in the cell store, the issue logic, the completion queue, the data lines
and the queue `q`. -/
theorem eq_setQueue_of_frame {t : State} {q : QueueId} (hother : t.queue q.other = s.queue q.other)
    (hf : t = { s with cell := t.cell, issue := t.issue, q0 := t.q0, q1 := t.q1, cq := t.cq,
                       readData := t.readData }) :
    t = { s with cell := t.cell, readData := t.readData, issue := t.issue, cq := t.cq }.setQueue q
      (t.queue q) := by
  cases q
  · have h1 : t.q1 = s.q1 := hother
    rw [h1] at hf
    exact hf
  · have h0 : t.q0 = s.q0 := hother
    rw [h0] at hf
    exact hf

/-- What an execution halt leaves alone. -/
theorem completeJob_frame_of_halts (hs : QueuesSound s) (h : s.issue.inflight[i]? = some e)
    (hh : haltsAtCompletion e = true) : completeJob i s =
      ({ s with cell := (completeJob i s).cell, readData := (completeJob i s).readData,
                issue := (completeJob i s).issue, cq := (completeJob i s).cq }.setQueue e.queue
        (haltedWith ⟨e.job, jobConds e, false⟩ { s.queue e.queue with inflight := 0 })) := by
  have hone := inflight_of_guarded hs h (haltsAtCompletion_iff.1 hh).1
  have hr := retired_frame (i := i) (e := e) (s := s)
  have hu := settleHeld_frame (retired i e s)
  have hx := haltQueue_frame e.queue ⟨e.job, jobConds e, false⟩ (settleHeld (retired i e s))
  rw [← completeJob_of_halts h hh] at hx
  have hq : (completeJob i s).queue e.queue =
      haltedWith ⟨e.job, jobConds e, false⟩ { s.queue e.queue with inflight := 0 } := by
    rw [completeJob_of_halts h hh, (haltQueue_queue _ _ _).1, settleHeld_queue, retired_queue.1, hone]
  rw [← hq]
  refine eq_setQueue_of_frame (completeJob_queue_other h) ?_
  generalize completeJob i s = t at hx ⊢
  generalize settleHeld (retired i e s) = u at hx hu
  generalize retired i e s = r at hr hu
  rw [hx, hu, hr]

end

/-- Settles O39, part by part. -/
theorem executionHaltWritesNothing : Obligations.ExecutionHaltWritesNothing := by
  intro s n e hs h hg hmask hm
  have hh : haltsAtCompletion e = true := haltsAtCompletion_iff.2 ⟨hg, hmask⟩
  obtain ⟨hmarks, hflight, hunits, hissue⟩ := completeJob_issue h
  obtain ⟨hcell, -⟩ := completeJob_cell_issue h
  refine ⟨_, exec_jobCompletion n s, fun hapart => ?_, fun hc k hk => ?_, ?_, ?_, ?_, ?_, ?_, ?_⟩
  · rw [reportStall_cell, reportStall_readData, hcell, completeJob_readData h,
      settleHeld_retired_of_apart hm hapart, retired_cell, retired_cells, if_pos hh]
    exact ⟨rfl, retired_readData⟩
  · rw [cellAt_congr (reportStall_cell _ _), cellAt_completeJob_eq h, cellAt_settleHeld (wf_retired hc),
      cellAt_retired_of_halts hh]
    exact marked_of_held_apart hm hk
  · simpa only [reportStall_issue] using hmarks
  · simpa only [reportStall_issue] using hflight
  · simpa only [reportStall_issue] using hunits
  · simpa only [reportStall_issue] using hissue
  · rw [reportStall_cq]; exact completeJob_cq_of_halts h hh
  · have hf := completeJob_frame_of_halts hs h hh
    rw [reportStall_withStarved]
    exact congrArg (withStarved · _) hf

/-! ## The access that a completion carries out -/

/-- A write carried out with the cell store that `s` had, but for the cells and the held access. -/
theorem doCellWrite_cell {s u : State} {n : CellNo} (b : Byte)
    (h : u.cell = { s.cell with cells := u.cell.cells, held := none }) : (doCellWrite n b u).cell =
      { s.cell with cells := (doCellWrite n b u).cell.cells, held := none,
                    addr := if s.cell.autoInc then s.cell.addr + 1#8 else s.cell.addr } := by
  conv_lhs => rw [doCellWrite_eq]
  rw [h]

/-- Settles O40: the access is carried out over what the job left in the cell. -/
theorem heldAccessCarriedOutAtCompletion : Obligations.HeldAccessCarriedOutAtCompletion := by
  intro s n e a j hs _ he h ha hj
  have hmem : a.cell ∈ e.dests := List.mem_of_getElem? hj
  obtain ⟨hcell, -⟩ := completeJob_cell_issue h
  have hread := completeJob_readData h
  rw [settleHeld_retired_of_mem ha hmem] at hcell hread
  refine ⟨_, (retired n.val e s).cellAt a.cell, exec_jobCompletion n s, ?_, fun hh => ?_, fun hh => ?_,
    fun hk => ?_, fun b hk => ?_, ?_⟩
  · rw [rdyLow, reportStall_cell, hcell, doAccess_held]; rfl
  · exact cellAt_retired_of_halts (haltsAtCompletion_iff.2 hh) _
  · obtain ⟨r, hr⟩ := exists_result he hj
    exact ⟨r, hr, cellAt_retired_of_writes hs he (by rwa [← Bool.not_eq_true, haltsAtCompletion_iff]) hj hr⟩
  · rw [hk] at hcell hread
    rw [cellAt_congr (reportStall_cell _ _), cellAt_congr hcell, reportStall_cell, reportStall_readData,
      hcell, hread]
    refine ⟨rfl, rfl, ?_⟩
    conv_lhs => rw [retired_cell]
    rfl
  · rw [hk] at hcell hread
    have hwf : CellsSound { retired n.val e s with cell := { (retired n.val e s).cell with held := none } } :=
      wf_retired (i := n.val) (e := e) hs
    rw [cellAt_congr (reportStall_cell _ _), cellAt_congr hcell, reportStall_cell, reportStall_readData,
      hcell, hread, doAccess, cellAt_doCellWrite b hwf, if_pos rfl]
    refine ⟨by rw [retired_cell], retired_readData, doCellWrite_cell b ?_⟩
    rw [retired_cell]
  · obtain ⟨-, hp, -⟩ := completeJob_frame s n.val
    rw [reportStall_port, hp]

end Sys2Proof.Machine


/-! Descriptors: fields, codes, operand cells, claims and condition sets as the tables give them. -/

namespace Sys2Proof.Machine

/-! ## The fields of R177 -/

/-- The fields of a word put together in the descriptor's order. -/
theorem fields_append (imm : BitVec 16) (tag : Byte) (rsv : BitVec 3) (signal flag bcast : BitVec 1)
    (report : BitVec 2) (count : BitVec 4) (round : BitVec 2) (frac srcB srcA dst : BitVec 5)
    (code : BitVec 6) :
    let d := imm ++ tag ++ rsv ++ signal ++ flag ++ bcast ++ report ++ count ++ round ++ frac ++ srcB ++
      srcA ++ dst ++ code
    (d.extractLsb' 0 6 = code ∧ d.extractLsb' 6 5 = dst ∧ d.extractLsb' 11 5 = srcA ∧
      d.extractLsb' 16 5 = srcB ∧ d.extractLsb' 21 5 = frac ∧ d.extractLsb' 26 2 = round ∧
      d.extractLsb' 28 4 = count) ∧
    (d.extractLsb' 32 2 = report ∧ d.getLsbD 34 = bcast.getLsbD 0 ∧ d.getLsbD 35 = flag.getLsbD 0 ∧
      d.getLsbD 36 = signal.getLsbD 0) ∧
    d.extractLsb' 37 3 = rsv ∧ d.extractLsb' 40 8 = tag ∧ d.extractLsb' 48 16 = imm := by
  simp (disch := decide) only [extractLsb'_append_low, extractLsb'_append_high, getLsbD_append_low,
    getLsbD_append_high, BitVec.extractLsb'_eq_self, Nat.reduceSub]
  exact ⟨⟨trivial, trivial, trivial, trivial, trivial, trivial, trivial⟩,
    ⟨trivial, trivial, trivial, trivial⟩, trivial, trivial, trivial⟩

theorem packDesc_fields (imm : BitVec 16) (tag : Byte) (rsv : BitVec 3) (signal flag bcast : Bool)
    (report : BitVec 2) (count : BitVec 4) (round : BitVec 2) (frac srcB srcA dst : BitVec 5)
    (code : BitVec 6) :
    let d := packDesc imm tag rsv signal flag bcast report count round frac srcB srcA dst code
    codeField d = code ∧ dstField d = dst ∧ srcAField d = srcA ∧ srcBField d = srcB ∧
    fracField d = frac ∧ roundField d = round ∧ countField d = count ∧ reportField d = report ∧
    bcastField d = bcast ∧ flagField d = flag ∧ signalField d = signal ∧ reservedField d = rsv ∧
    hostTag d = tag ∧ immField d = imm := by
  obtain ⟨⟨hcode, hdst, hA, hB, hfrac, hround, hcount⟩, ⟨hreport, hbcast, hflag, hsignal⟩, hrsv, htag, himm⟩ :=
    fields_append imm tag rsv (BitVec.ofBool signal) (BitVec.ofBool flag) (BitVec.ofBool bcast) report count
      round frac srcB srcA dst code
  have hbit : ∀ b, (BitVec.ofBool b).getLsbD 0 = b := by decide
  exact ⟨hcode, hdst, hA, hB, hfrac, hround, hcount, hreport, hbcast.trans (hbit _), hflag.trans (hbit _),
    hsignal.trans (hbit _), hrsv, htag, himm⟩

/-- Two fields side by side make one. -/
theorem extractLsb'_append_extractLsb' {w : Nat} (x : BitVec w) {a b n m : Nat} (h : b + m = a) :
    x.extractLsb' a n ++ x.extractLsb' b m = x.extractLsb' b (n + m) := by
  subst h
  ext k hk
  simp only [BitVec.getElem_append, BitVec.getElem_extractLsb']
  split
  · rfl
  · exact congrArg x.getLsbD (by omega)

/-- A bit is a field one bit wide. -/
theorem ofBool_getLsbD {w : Nat} (x : BitVec w) (i : Nat) :
    BitVec.ofBool (x.getLsbD i) = x.extractLsb' i 1 := by
  ext k hk
  obtain rfl : k = 0 := by omega
  simp

theorem packDesc_self (d : Desc) : packDesc (immField d) (hostTag d) (reservedField d) (signalField d)
    (flagField d) (bcastField d) (reportField d) (countField d) (roundField d) (fracField d) (srcBField d)
    (srcAField d) (dstField d) (codeField d) = d := by
  have h : d.extractLsb' 48 16 ++ d.extractLsb' 40 8 ++ d.extractLsb' 37 3 ++ d.extractLsb' 36 1 ++
      d.extractLsb' 35 1 ++ d.extractLsb' 34 1 ++ d.extractLsb' 32 2 ++ d.extractLsb' 28 4 ++
      d.extractLsb' 26 2 ++ d.extractLsb' 21 5 ++ d.extractLsb' 16 5 ++ d.extractLsb' 11 5 ++
      d.extractLsb' 6 5 ++ d.extractLsb' 0 6 = d := by
    simp (disch := decide) only [extractLsb'_append_extractLsb']
    exact BitVec.extractLsb'_eq_self
  unfold packDesc signalField flagField bcastField
  rw [ofBool_getLsbD, ofBool_getLsbD, ofBool_getLsbD]
  exact h

theorem opCode_of_mem_codeTable : ∀ p ∈ codeTable, opCode p.2 = p.1 := by decide

/-- The rounding modes in the order of their codes (R25). -/
theorem roundMode_of_code : ∀ r : BitVec 2,
    [RoundMode.nearestEven, .towardZero, .towardMinusInf, .towardPlusInf][r.toNat]? =
      some (match r with
        | 0#2 => .nearestEven
        | 1#2 => .towardZero
        | 2#2 => .towardMinusInf
        | _ => .towardPlusInf) := by
  decide

/-! ## Operations and their cells -/

section
variable {d : Desc} {o : Op} {Q : Queue}

theorem jobOp_eq_some_iff :
    jobOp d = some o ↔ ¬Malformed d ∧ (d.extractLsb' 0 6, o) ∈ codeTable := by
  rw [← malformed_iff, jobOp, ← opOfCode_eq_some_iff]
  cases malformed d <;> simp [opField, codeField]

theorem jobOp_of_malformed (h : Malformed d) : jobOp d = none := by
  simp [jobOp, (malformed_iff d).2 h]

theorem readsA_iff (o : Op) : readsA o = true ↔ o ∈ opsWithA := by cases o <;> decide
theorem readsB_iff (o : Op) : readsB o = true ↔ o ∈ opsWithB := by cases o <;> decide
theorem isReduction_iff (o : Op) : isReduction o = true ↔ o ∈ [.sumv, .dot] := by cases o <;> decide
theorem readsDst_iff (o : Op) : readsDst o = true ↔ o = .mac := by simp [readsDst]

/-- A run of cells, as R5 counts it. -/
theorem operandRun_eq (Q : Queue) (f : BitVec 5) (n : Nat) :
    operandRun Q f n = cellRun (resolve Q f) n := by
  refine List.map_congr_left fun e _ => BitVec.eq_of_toNat_eq ?_
  rw [resolve, ← BitVec.setWidth_eq_extractLsb' (by decide)]
  generalize (if f.getLsbD 4 = true then Q.frameB else Q.frameA) = fp
  simp only [BitVec.toNat_ofNat, BitVec.toNat_add, BitVec.toNat_mul, BitVec.toNat_setWidth]
  omega

/-- The operand cells, the claim and the inspected cells of a job of the operation `o` (R32, R42 to R44). -/
theorem cells_of_jobOp (h : jobOp d = some o) :
    aCells Q d = (if o ∈ opsWithA then operandRun Q (d.extractLsb' 11 5) (elements d) else []) ∧
    bCells Q d =
      (if o ∈ opsWithB then operandRun Q (d.extractLsb' 16 5) (if d.getLsbD 34 then 1 else elements d)
       else []) ∧
    destCells Q d =
      (if o ∈ [.setframe, .fence] then []
       else operandRun Q (d.extractLsb' 6 5) (if o ∈ [.sumv, .dot] then 1 else elements d)) ∧
    dCells Q d = (if o = .mac then destCells Q d else []) ∧
    sourceCells Q d = aCells Q d ++ bCells Q d ++ dCells Q d ∧
    inspectedCells Q d = (if o = .move then [] else sourceCells Q d) ∧
    claimOf d = claimFor o (elements d) := by
  simp only [← readsA_iff, ← readsB_iff, ← isControl_iff, ← isReduction_iff, ← readsDst_iff, operandRun_eq]
  refine ⟨by simp only [aCells, h]; rfl, by simp only [bCells, h]; rfl, by simp only [destCells, h]; rfl,
    by simp only [dCells, h], rfl, ?_, by simp only [claimOf, h]; rfl⟩
  simp only [inspectedCells, h]
  cases o <;> rfl

/-- A malformed descriptor names no cell and claims nothing (R65). -/
theorem cells_of_malformed (h : Malformed d) :
    aCells Q d = [] ∧ bCells Q d = [] ∧ dCells Q d = [] ∧ destCells Q d = [] ∧ inspectedCells Q d = [] ∧
    sourceCells Q d = [] ∧ claimOf d = none := by
  simp [aCells, bCells, dCells, destCells, inspectedCells, sourceCells, claimOf, jobOp_of_malformed h]

end

/-! ## Claims and conditions by operation (R30, R91) -/

theorem claimFor_table (o : Op) (n : Nat) :
    (o ∈ [.setframe, .fence] → claimFor o n = none) ∧
    (o ∈ [.move, .loadk, .clear] → claimFor o n = some .tu) ∧
    (o ∈ [.add, .sub, .neg, .abs, .min, .max, .cmp, .rescale, .sumv] → claimFor o n = some .su) ∧
    (o ∈ [.mul, .mac] → claimFor o n = some (if n = 1 then .puScalar else .puWhole)) ∧
    (o = .dot → claimFor o n = some .puWhole) ∧
    (o ∈ [.div, .sqrt] → claimFor o n = some .puAndSu) := by
  cases o <;> simp [claimFor]

theorem execConds_table (o : Op) :
    (o ∈ [.setframe, .fence, .move, .loadk, .clear, .min, .max, .cmp] → execConds o = 0b0000000#7) ∧
    (o ∈ [.add, .sub, .neg, .abs, .rescale, .sumv, .mul, .mac, .dot] → execConds o = 0b0000011#7) ∧
    (o = .div → execConds o = 0b0001111#7) ∧ (o = .sqrt → execConds o = 0b0001001#7) := by
  cases o <;> decide

theorem guardedUnder_iff (m : CondSet) (d : Desc) : guardedUnder m d = true ↔
    ∃ o, jobOp d = some o ∧ execConds o &&& m ≠ 0#7 := by
  unfold guardedUnder
  cases jobOp d <;> simp

/-- Settles O51, clause by clause from the tables' lemmas. -/
theorem descriptorsReadAsTheTablesSay : Obligations.DescriptorsReadAsTheTablesSay := by
  refine ⟨packDesc_fields, fun d => ⟨rfl, rfl, rfl, rfl, rfl, rfl, rfl, rfl, rfl, rfl, rfl, rfl, rfl, rfl⟩,
    packDesc_self, fun o => ?_, fun c o h => ?_, opOfCode_eq_some_iff, fun d => roundMode_of_code _, fun d => ?_,
    rfl, malformed_iff, fun d o => jobOp_eq_some_iff, fun Q f => ?_, fun Q d h => cells_of_malformed h,
    fun Q d o h => cells_of_jobOp h, claimFor_table, execConds_table, guardedUnder_iff⟩
  · cases o <;> rfl
  · exact opCode_of_mem_codeTable _ ((opOfCode_eq_some_iff c o).1 h)
  · rw [shiftOf, setWidth_immField d (by decide)]
  · rw [operandRun_eq]
    simp [cellRun]

end Sys2Proof.Machine


/-! The arithmetic of elements: one rounding of the exact result, saturation, and square roots. -/

namespace Sys2Proof.Machine

/-! ## One rounding (R25) -/

section
variable {m : RoundMode} {num den k r : Int} {x : ℚ}

/-- An integer rounds to itself, and to nothing else. -/
theorem roundsTo_intCast_iff : RoundsTo m (k : ℚ) r ↔ r = k := by
  cases m with
  | nearestEven =>
    constructor
    · rintro ⟨h, -⟩
      have hlt : |(k - r : ℤ)| < 1 := by
        have : (|(k - r : ℤ)| : ℚ) < 1 := by push_cast; linarith
        exact_mod_cast this
      have := Int.abs_lt_one_iff.1 hlt
      omega
    · rintro rfl
      simp [RoundsTo]
  | towardZero => simp [RoundsTo]
  | towardMinusInf => simp [RoundsTo]
  | towardPlusInf => simp [RoundsTo]

/-- The exact quotient, as its integer part and a fraction. -/
theorem quot_eq (hd : 0 < den) : (num : ℚ) / den = (num / den : ℤ) + (num % den : ℤ) / (den : ℚ) := by
  have hd' : (den : ℚ) ≠ 0 := by exact_mod_cast hd.ne'
  have h : ((den * (num / den) + num % den : ℤ) : ℚ) = num := congrArg _ (Int.mul_ediv_add_emod num den)
  rw [eq_comm, eq_div_iff hd', add_mul, div_mul_cancel₀ _ hd', ← h]
  push_cast
  ring

theorem floor_quot (hd : 0 < den) : ⌊(num : ℚ) / den⌋ = num / den := by
  have hd' : (0 : ℚ) < den := by exact_mod_cast hd
  have h0 : (0 : ℚ) ≤ (num % den : ℤ) := by exact_mod_cast Int.emod_nonneg num hd.ne'
  have h1 : ((num % den : ℤ) : ℚ) < den := by exact_mod_cast Int.emod_lt_of_pos num hd
  rw [Int.floor_eq_iff, quot_eq hd]
  exact ⟨by linarith [div_nonneg h0 hd'.le], by linarith [(div_lt_one hd').2 h1]⟩

theorem ceil_quot (hd : 0 < den) (hr : num % den ≠ 0) : ⌈(num : ℚ) / den⌉ = num / den + 1 := by
  have hd' : (0 : ℚ) < den := by exact_mod_cast hd
  have h0 : (0 : ℚ) < (num % den : ℤ) := by
    exact_mod_cast lt_of_le_of_ne (Int.emod_nonneg num hd.ne') hr.symm
  have h1 : ((num % den : ℤ) : ℚ) < den := by exact_mod_cast Int.emod_lt_of_pos num hd
  rw [Int.ceil_eq_iff, quot_eq hd]
  push_cast
  exact ⟨by linarith [div_pos h0 hd'], by linarith [(div_lt_one hd').2 h1]⟩

theorem nearestEven_of_lt (h : |x - r| < 1 / 2) : RoundsTo .nearestEven x r :=
  ⟨h.le, fun e => absurd e h.ne⟩

/-- A quotient between two integers rounds to the nearer, and from halfway to the even one. -/
theorem roundsTo_nearestEven (hd : 0 < den) (hr : num % den ≠ 0) :
    RoundsTo .nearestEven ((num : ℚ) / den) (roundQuot .nearestEven num den) := by
  have hd' : (0 : ℚ) < den := by exact_mod_cast hd
  have h0 : (0 : ℚ) < (num % den : ℤ) := by
    exact_mod_cast lt_of_le_of_ne (Int.emod_nonneg num hd.ne') hr.symm
  have h1 : ((num % den : ℤ) : ℚ) < den := by exact_mod_cast Int.emod_lt_of_pos num hd
  have hx := quot_eq (num := num) hd
  obtain ⟨f, hf⟩ : ∃ f : ℚ, f = (num % den : ℤ) / (den : ℚ) := ⟨_, rfl⟩
  rw [← hf] at hx
  have hf0 : 0 < f := hf ▸ div_pos h0 hd'
  have hf1 : f < 1 := hf ▸ (div_lt_one hd').2 h1
  have hrest : ((num % den : ℤ) : ℚ) = f * den := by rw [hf, div_mul_cancel₀ _ hd'.ne']
  have hlow : |(num : ℚ) / den - (num / den : ℤ)| = f := by rw [hx, add_sub_cancel_left, abs_of_pos hf0]
  have hhigh : |(num : ℚ) / den - (num / den + 1 : ℤ)| = 1 - f := by
    rw [hx, abs_of_neg (by push_cast; linarith)]
    push_cast
    ring
  simp only [roundQuot, hr, if_false]
  split
  next hlt =>
    have hlt : 2 * ((num % den : ℤ) : ℚ) < den := by exact_mod_cast hlt
    exact nearestEven_of_lt (by rw [hlow]; nlinarith)
  next hlt =>
    split
    next hgt =>
      have hgt : (den : ℚ) < 2 * ((num % den : ℤ) : ℚ) := by exact_mod_cast hgt
      exact nearestEven_of_lt (by rw [hhigh]; nlinarith)
    next hgt =>
      have hhalf : 2 * ((num % den : ℤ) : ℚ) = den := by exact_mod_cast le_antisymm (not_lt.1 hgt) (not_lt.1 hlt)
      have hf2 : f = 1 / 2 := by nlinarith
      split
      next heven => exact ⟨by rw [hlow, hf2], fun _ => heven⟩
      next hodd => exact ⟨by rw [hhigh, hf2]; norm_num, fun _ => by omega⟩

/-- The model's rounding of a quotient is the rounding of R25. -/
theorem roundsTo_roundQuot (hd : 0 < den) : RoundsTo m ((num : ℚ) / den) (roundQuot m num den) := by
  have hd' : (0 : ℚ) < den := by exact_mod_cast hd
  by_cases hr : num % den = 0
  · have hx : (num : ℚ) / den = (num / den : ℤ) := by rw [quot_eq hd, hr]; simp
    rw [hx, roundsTo_intCast_iff]
    simp [roundQuot, hr]
  cases m with
  | nearestEven => exact roundsTo_nearestEven hd hr
  | towardZero =>
    have hsign : (0 : ℚ) ≤ (num : ℚ) / den ↔ ¬num < 0 := by
      rw [le_div_iff₀ hd', zero_mul, not_lt]
      exact_mod_cast Iff.rfl
    simp only [RoundsTo, roundQuot, hr, if_false, hsign, floor_quot hd, ceil_quot hd hr]
    split <;> simp_all
  | towardMinusInf => simp [RoundsTo, roundQuot, hr, floor_quot hd]
  | towardPlusInf => simp [RoundsTo, roundQuot, hr, ceil_quot hd hr]

/-- The rounding leaves a quotient as it is exactly when nothing is left over (R27). -/
theorem roundQuot_eq_iff (hd : 0 < den) :
    ((roundQuot m num den : ℤ) : ℚ) = (num : ℚ) / den ↔ num % den = 0 := by
  have hd' : (den : ℚ) ≠ 0 := by exact_mod_cast hd.ne'
  constructor
  · intro h
    rw [eq_div_iff hd'] at h
    have h : roundQuot m num den * den = num := by exact_mod_cast h
    rw [← h]
    exact Int.mul_emod_left _ _
  · intro hr
    rw [quot_eq hd, hr]
    simp [roundQuot, hr]

/-! ## Saturation and the conditions (R26, R27) -/

theorem toInt_ofInt_of_range (h0 : -2147483648 ≤ r) (h1 : r ≤ 2147483647) : (BitVec.ofInt 32 r).toInt = r := by
  rw [BitVec.toInt_ofInt]
  exact Int.bmod_eq_of_le (by omega) (by omega)

theorem settleResult_of_above {exact : Bool} (h : 2147483647 < r) :
    settleResult r exact = ⟨⟨2147483647#32, .valid⟩, overflowBit ||| inexactBit⟩ := by
  rw [settleResult, ofInt_rawMax]
  exact if_pos h

theorem settleResult_of_below {exact : Bool} (h : r < -2147483648) :
    settleResult r exact = ⟨⟨0x80000000#32, .valid⟩, overflowBit ||| inexactBit⟩ := by
  rw [settleResult, ofInt_rawMin, if_neg (by simp only [Config.rawMax]; omega)]
  exact if_pos h

theorem settleResult_of_range {exact : Bool} (h0 : -2147483648 ≤ r) (h1 : r ≤ 2147483647) :
    settleResult r exact = ⟨⟨BitVec.ofInt 32 r, .valid⟩, if exact then 0#7 else inexactBit⟩ := by
  rw [settleResult, if_neg (c := Config.rawMax < r) (not_lt.2 h1)]
  exact if_neg (not_lt.2 h0)

/-- A rounded result, settled, is the element of the exact result. -/
theorem isElementOf_settleResult {exact : Bool} (hr : RoundsTo m x r) (he : exact = true ↔ (r : ℚ) = x) :
    IsElementOf m x (settleResult r exact) := by
  refine ⟨r, hr, ?_⟩
  have hne : ∀ k : Int, r ≠ k → (k : ℚ) ≠ x := fun k hk e => hk (roundsTo_intCast_iff.1 (e ▸ hr))
  have hmax : (2147483647#32).toInt = 2147483647 := by decide
  have hmin : (0x80000000#32).toInt = -2147483648 := by decide
  have hconds : ∀ b : Bool, let c := if b then 0#7 else inexactBit
      c &&& overflowBit = 0#7 ∧ (c &&& inexactBit ≠ 0#7 ↔ ¬b = true) ∧
      c &&& ~~~(overflowBit ||| inexactBit) = 0#7 := by decide
  rcases lt_or_ge 2147483647 r with h1 | h1
  · rw [settleResult_of_above h1]
    refine ⟨rfl, by rw [hmax]; omega, iff_of_true (by decide) (.inr h1), ?_, by decide⟩
    exact iff_of_true (by decide) (by rw [hmax]; exact hne _ (by omega))
  rcases lt_or_ge r (-2147483648) with h0 | h0
  · rw [settleResult_of_below h0]
    refine ⟨rfl, by rw [hmin]; omega, iff_of_true (by decide) (.inl h0), ?_, by decide⟩
    exact iff_of_true (by decide) (by rw [hmin]; exact hne _ (by omega))
  · rw [settleResult_of_range h0 h1]
    refine ⟨rfl, by rw [toInt_ofInt_of_range h0 h1]; omega, ?_, ?_, ?_⟩
    · exact iff_of_false (not_not.2 (hconds exact).1) (by omega)
    · rw [toInt_ofInt_of_range h0 h1, ne_eq (r : ℚ), ← he]
      exact (hconds exact).2.1
    · exact (hconds exact).2.2

theorem isElementOf_intResult (m : RoundMode) (k : Int) : IsElementOf m (k : ℚ) (intResult k) :=
  isElementOf_settleResult (roundsTo_intCast_iff.2 rfl) (by simp)

theorem isElementOf_quotResult (m : RoundMode) (hd : 0 < den) :
    IsElementOf m ((num : ℚ) / den) (quotResult m num den) :=
  isElementOf_settleResult (roundsTo_roundQuot hd) (by rw [decide_eq_true_iff, roundQuot_eq_iff hd])

end

/-! ## Elements with a rational result -/

section
variable {d : Desc} {a b acc : Int}

/-- The scale of a fraction count is positive. -/
theorem scale_pos (q : Nat) : (0 : Int) < 2 ^ q := by positivity

theorem isElementOf_rescale :
    IsElementOf (roundOf d) ((a : ℚ) * 2 ^ shiftOf d) (laneResult d .rescale a b acc) := by
  simp only [laneResult]
  split
  next h =>
    have hx : (a : ℚ) * 2 ^ shiftOf d = (a * 2 ^ (shiftOf d).toNat : ℤ) := by
      push_cast
      rw [← zpow_natCast, Int.toNat_of_nonneg h]
    rw [hx]
    exact isElementOf_intResult _ _
  next h =>
    have hx : (a : ℚ) * 2 ^ shiftOf d = (a : ℚ) / (2 ^ (-shiftOf d).toNat : ℤ) := by
      push_cast
      rw [← zpow_natCast, Int.toNat_of_nonneg (by omega), zpow_neg, div_inv_eq_mul]
    rw [hx]
    exact isElementOf_quotResult _ (scale_pos _)

theorem isElementOf_div (hb : b ≠ 0) : IsElementOf (roundOf d)
    ((a : ℚ) * 2 ^ (fracField d).toNat / b) (laneResult d .div a b acc) := by
  simp only [laneResult, hb, if_false]
  split
  next h =>
    have := isElementOf_quotResult (num := a * 2 ^ fracOf d) (roundOf d) h
    push_cast at this
    exact this
  next h =>
    have := isElementOf_quotResult (num := -(a * 2 ^ fracOf d)) (den := -b) (roundOf d) (by omega)
    push_cast at this
    rwa [neg_div_neg_eq] at this

end

theorem ite_neg_eq_abs (a : Int) : (if a < 0 then -a else a) = |a| := by
  split
  next h => exact (abs_of_neg h).symm
  next h => exact (abs_of_nonneg (not_lt.1 h)).symm

/-- Settles O47, operation by operation: an integer result, or a quotient rounded once. -/
theorem elementIsExactResultRoundedOnce : Obligations.ElementIsExactResultRoundedOnce := by
  intro d o a b acc x hx
  have hint : ∀ k : Int, laneResult d o a b acc = intResult k → x = (k : ℚ) →
      IsElementOf (roundOf d) x (laneResult d o a b acc) := by
    rintro k hk rfl
    rw [hk]
    exact isElementOf_intResult _ k
  cases o with
  | add => exact hint _ rfl (by cases hx; push_cast; rfl)
  | sub => exact hint _ rfl (by cases hx; push_cast; rfl)
  | neg => exact hint _ rfl (by cases hx; push_cast; rfl)
  | abs => exact hint _ rfl (by cases hx; rw [ite_neg_eq_abs, Int.cast_abs])
  | min => exact hint _ rfl (by cases hx; rw [← min_def]; push_cast; rfl)
  | max => exact hint _ rfl (by cases hx; rw [← max_def]; push_cast; rfl)
  | cmp => exact hint _ rfl (by cases hx; push_cast; rfl)
  | rescale => cases hx; exact isElementOf_rescale
  | mul =>
    cases hx
    have := isElementOf_quotResult (num := a * b) (roundOf d) (scale_pos (fracOf d))
    push_cast at this
    exact this
  | mac =>
    cases hx
    have := isElementOf_quotResult (num := a * b + acc * 2 ^ fracOf d) (roundOf d) (scale_pos (fracOf d))
    push_cast at this
    exact this
  | div =>
    simp only [exactResult] at hx
    split at hx
    · cases hx
    next hb => cases hx; exact isElementOf_div hb
  | sqrt | setframe | fence | move | loadk | clear | sumv | dot => cases hx

/-! ## Square roots (R62) -/

section
variable {n k acc : Nat} {m : RoundMode}

/-- The bits of the root, from the high one down, keep `n` between the square of what they make and the
square of what they could still reach. -/
theorem rootBits_spec (h0 : acc * acc ≤ n) (h1 : n < (acc + 2 ^ k) * (acc + 2 ^ k)) :
    rootBits n k acc * rootBits n k acc ≤ n ∧ n < (rootBits n k acc + 1) * (rootBits n k acc + 1) := by
  induction k generalizing acc with
  | zero => exact ⟨h0, h1⟩
  | succ k ih =>
    rw [rootBits]
    split
    next h =>
      refine ih h ?_
      rwa [pow_succ, mul_two, ← add_assoc] at h1
    next h => exact ih h0 (not_le.1 h)

/-- `isqrt` is the integer part of the square root. -/
theorem isqrt_spec (hn : n < 2 ^ 64) : isqrt n * isqrt n ≤ n ∧ n < (isqrt n + 1) * (isqrt n + 1) :=
  rootBits_spec (Nat.zero_le _) (by omega)

theorem roundRoot_of_square (h : isqrt n * isqrt n = n) : roundRoot m n = isqrt n := if_pos h

theorem roundRoot_nearestEven (h : isqrt n * isqrt n ≠ n) : roundRoot .nearestEven n =
    if isqrt n * isqrt n + isqrt n < n then (isqrt n + 1 : Int) else isqrt n := if_neg h

theorem roundRoot_towardZero (h : isqrt n * isqrt n ≠ n) : roundRoot .towardZero n = isqrt n := if_neg h

theorem roundRoot_towardMinusInf (h : isqrt n * isqrt n ≠ n) : roundRoot .towardMinusInf n = isqrt n :=
  if_neg h

theorem roundRoot_towardPlusInf (h : isqrt n * isqrt n ≠ n) :
    roundRoot .towardPlusInf n = (isqrt n + 1 : Int) := if_neg h

/-- `r` is the square root of `n` rounded in the mode `m`, told by squares alone (R62). -/
def RootRoundsTo (m : RoundMode) (n r : Int) : Prop :=
  match m with
  | .nearestEven => 4 * n < (2 * r + 1) * (2 * r + 1) ∧ (r = 0 ∨ (2 * r - 1) * (2 * r - 1) < 4 * n)
  | .towardZero => r * r ≤ n ∧ n < (r + 1) * (r + 1)
  | .towardMinusInf => r * r ≤ n ∧ n < (r + 1) * (r + 1)
  | .towardPlusInf => n ≤ r * r ∧ (r = 0 ∨ (r - 1) * (r - 1) < n)

/-- A root that is an integer rounds to itself in every mode. -/
theorem rootRoundsTo_square (m : RoundMode) {r : Int} (h : 0 ≤ r) : RootRoundsTo m (r * r) r := by
  have hpos : r = 0 ∨ 0 < r := by omega
  cases m with
  | nearestEven => exact ⟨by nlinarith, hpos.imp_right fun h => by nlinarith⟩
  | towardZero => exact ⟨le_rfl, by nlinarith⟩
  | towardMinusInf => exact ⟨le_rfl, by nlinarith⟩
  | towardPlusInf => exact ⟨le_rfl, hpos.imp_right fun h => by nlinarith⟩

theorem rootRoundsTo_roundRoot (m : RoundMode) (hn : n < 2 ^ 64) : RootRoundsTo m n (roundRoot m n) := by
  obtain ⟨hlow, hhigh⟩ := isqrt_spec hn
  by_cases hs : isqrt n * isqrt n = n
  · rw [roundRoot_of_square hs]
    have hn' : (n : Int) = (isqrt n : Int) * (isqrt n : Int) := by exact_mod_cast hs.symm
    rw [hn']
    exact rootRoundsTo_square m (Int.natCast_nonneg _)
  have hlt : isqrt n * isqrt n < n := lt_of_le_of_ne hlow hs
  have hnat : ∀ r : Nat, (0 : Int) ≤ r := Int.natCast_nonneg
  cases m with
  | nearestEven =>
    rw [roundRoot_nearestEven hs]
    generalize isqrt n = r at hlt hhigh
    have hr := hnat r
    zify at hlt hhigh
    split
    next hup => zify at hup; exact ⟨by nlinarith, .inr (by nlinarith)⟩
    next hup => zify at hup; exact ⟨by nlinarith, .inr (by nlinarith)⟩
  | towardZero =>
    rw [roundRoot_towardZero hs]
    exact ⟨by exact_mod_cast hlow, by exact_mod_cast hhigh⟩
  | towardMinusInf =>
    rw [roundRoot_towardMinusInf hs]
    exact ⟨by exact_mod_cast hlow, by exact_mod_cast hhigh⟩
  | towardPlusInf =>
    rw [roundRoot_towardPlusInf hs]
    refine ⟨by exact_mod_cast hhigh.le, .inr ?_⟩
    rw [add_sub_cancel_right]
    exact_mod_cast hlt

/-- The root between two integers rounds to one of them. -/
theorem roundRoot_range (m : RoundMode) (n : Nat) :
    (isqrt n : Int) ≤ roundRoot m n ∧ roundRoot m n ≤ isqrt n + 1 := by
  by_cases hs : isqrt n * isqrt n = n
  · rw [roundRoot_of_square hs]; omega
  cases m with
  | nearestEven => rw [roundRoot_nearestEven hs]; split <;> omega
  | towardZero => rw [roundRoot_towardZero hs]; omega
  | towardMinusInf => rw [roundRoot_towardMinusInf hs]; omega
  | towardPlusInf => rw [roundRoot_towardPlusInf hs]; omega

/-- The rounded root is the root exactly when the root is an integer (R62). -/
theorem roundRoot_mul_self_iff (m : RoundMode) (hn : n < 2 ^ 64) :
    roundRoot m n * roundRoot m n = n ↔ isqrt n * isqrt n = n := by
  constructor
  · intro h
    obtain ⟨hlow, hhigh⟩ := isqrt_spec hn
    obtain ⟨h0, h1⟩ := roundRoot_range m n
    rcases (by omega : roundRoot m n = isqrt n ∨ roundRoot m n = isqrt n + 1) with e | e
    · rw [e] at h; exact_mod_cast h
    · rw [e] at h
      have h : (isqrt n + 1) * (isqrt n + 1) = n := by exact_mod_cast h
      omega
  · intro h
    rw [roundRoot_of_square h]
    exact_mod_cast h

/-- The root of a source scaled by its fraction count, rounded, is in range. -/
theorem roundRoot_le_rawMax (m : RoundMode) (hn : n < 2 ^ 61) : roundRoot m n ≤ 2147483647 := by
  obtain ⟨hlow, -⟩ := isqrt_spec (n := n) (by omega)
  have hroot : isqrt n < 2147483646 := by
    by_contra hge
    have : 2147483646 * 2147483646 ≤ isqrt n * isqrt n := Nat.mul_le_mul (by omega) (by omega)
    omega
  have := (roundRoot_range m n).2
  omega

/-- The element of a square root in range: its value and INEXACT (R62). -/
theorem rootResult_eq (m : RoundMode) (hn : n < 2 ^ 61) : rootResult m n =
    ⟨⟨BitVec.ofInt 32 (roundRoot m n), .valid⟩,
      if roundRoot m n * roundRoot m n = n then 0#7 else inexactBit⟩ := by
  have h0 : 0 ≤ roundRoot m n := le_trans (Int.natCast_nonneg _) (roundRoot_range m n).1
  rw [rootResult, settleResult_of_range (by omega) (roundRoot_le_rawMax m hn)]
  simp only [roundRoot_mul_self_iff m (show n < 2 ^ 64 by omega), decide_eq_true_eq]

end

/-- The source of a SQRT, scaled, is below 2 ^ 61. -/
theorem scaledSource_lt {d : Desc} {a : Int} (h1 : a ≤ 2147483647) (hf : fracField d ≠ 31#5) :
    (a * 2 ^ fracOf d).toNat < 2 ^ 61 := by
  have hq : fracOf d ≤ 30 := by
    have hne : fracOf d ≠ 31 := fun e => hf (BitVec.eq_of_toNat_eq e)
    have := (fracField d).isLt
    rw [fracOf] at hne ⊢
    omega
  have hp : (2 : Int) ^ fracOf d ≤ 2 ^ 30 := pow_le_pow_right₀ (by norm_num) hq
  have hm : a * 2 ^ fracOf d ≤ 2147483647 * 2 ^ 30 := mul_le_mul h1 hp (by positivity) (by norm_num)
  omega

/-! ## Sums -/

section
variable {e : InFlight}

theorem any_isPoison_eq_false (h : ∀ c ∈ e.srcA ++ e.srcB, c.tag ≠ .poison) :
    (e.srcA ++ e.srcB).any isPoison = false :=
  List.any_eq_false.2 fun c hc => by simpa [isPoison] using h c hc

theorem reductionResult_sumv (h : ∀ c ∈ e.srcA ++ e.srcB, c.tag ≠ .poison) :
    reductionResult e .sumv = intResult (sumOf e) := by
  simp [reductionResult, any_isPoison_eq_false h]

theorem reductionResult_dot (h : ∀ c ∈ e.srcA ++ e.srcB, c.tag ≠ .poison) :
    reductionResult e .dot = quotResult (roundOf e.job.desc) (dotOf e) (2 ^ fracOf e.job.desc) := by
  simp [reductionResult, any_isPoison_eq_false h]

end

/-- Settles O49, with the root told by squares and the sums as an integer and a quotient. -/
theorem rootsSumsAndInvalid : Obligations.RootsSumsAndInvalid := by
  refine ⟨fun d a b acc h => ?_, fun d a b acc h0 h1 hf => ?_, fun e h => ⟨?_, ?_⟩⟩
  · simp only [laneResult, h, if_true]
    rfl
  · have hn := scaledSource_lt h1 hf
    have hcast : (((a * 2 ^ fracOf d).toNat : Nat) : Int) = a * 2 ^ fracOf d :=
      Int.toNat_of_nonneg (mul_nonneg h0 (scale_pos _).le)
    have he : laneResult d .sqrt a b acc = rootResult (roundOf d) (a * 2 ^ fracOf d).toNat := by
      simp only [laneResult, not_lt.2 h0, if_false]
    have hrange := (roundRoot_range (roundOf d) (a * 2 ^ fracOf d).toNat).1
    have hpos : 0 ≤ roundRoot (roundOf d) (a * 2 ^ fracOf d).toNat := by omega
    have hrounds := rootRoundsTo_roundRoot (roundOf d) (n := (a * 2 ^ fracOf d).toNat) (by omega)
    refine ⟨_, hpos, ?_⟩
    rw [he, rootResult_eq _ hn]
    refine ⟨rfl, toInt_ofInt_of_range (by omega) (roundRoot_le_rawMax _ hn), ?_, ?_⟩
    · rw [hcast]; rfl
    · rw [hcast] at hrounds; exact hrounds
  · rw [reductionResult_sumv h]
    exact isElementOf_intResult _ _
  · rw [reductionResult_dot h]
    have := isElementOf_quotResult (num := dotOf e) (roundOf e.job.desc) (scale_pos (fracOf e.job.desc))
    push_cast at this
    exact this

end Sys2Proof.Machine


/-! The results of a job by operation, and the conditions they raise. -/

namespace Sys2Proof.Machine

section
variable {e : InFlight} {o : Op} {i : Nat} {r : ElemResult}

/-! ## The results, operation by operation -/

theorem jobResults_of_elementWise (h : jobOp e.job.desc = some o) (ho : o ∈ elementWiseOps) :
    jobResults e = (List.range (countOf e.job.desc)).map (elementResult e o) := by
  fin_cases ho <;> simp [jobResults, h]

theorem jobResults_of_reduction (h : jobOp e.job.desc = some o) (ho : o = .sumv ∨ o = .dot) :
    jobResults e = [reductionResult e o] := by
  rcases ho with rfl | rfl <;> simp [jobResults, h]

theorem jobResults_of_move (h : jobOp e.job.desc = some .move) :
    jobResults e = e.srcA.map fun c => ⟨taggedCell c.value c.tag, 0#7⟩ := by
  simp [jobResults, h]

theorem jobResults_of_loadk (h : jobOp e.job.desc = some .loadk) :
    jobResults e = List.replicate (countOf e.job.desc) ⟨⟨constantOf e.job.desc, .valid⟩, 0#7⟩ := by
  simp [jobResults, h]

theorem jobResults_of_clear (h : jobOp e.job.desc = some .clear) :
    jobResults e = List.replicate (countOf e.job.desc) ⟨emptyCell, 0#7⟩ := by
  simp [jobResults, h]

theorem jobResults_of_control (h : jobOp e.job.desc = some o) (ho : isControl o = true) :
    jobResults e = [] := by
  rcases (by simpa [isControl] using ho : o = .setframe ∨ o = .fence) with rfl | rfl <;> simp [jobResults, h]

/-- The kinds of operation by what they hand over. -/
theorem op_kind (o : Op) : o ∈ elementWiseOps ∨ (o = .sumv ∨ o = .dot) ∨ o = .move ∨ o = .loadk ∨
    o = .clear ∨ isControl o = true := by
  cases o <;> decide

/-! ## Lanes and poison (R35) -/

/-- A lane is poisoned by the inputs that its operation reads. -/
theorem laneInputs_poisoned_iff : (laneInputs e o i).any isPoison = true ↔
    (laneOf e.srcA i).tag = .poison ∨ o ∈ opsWithB ∧ (laneB e i).tag = .poison ∨
      o = .mac ∧ (laneOf e.srcD i).tag = .poison := by
  rw [← readsB_iff, ← readsDst_iff]
  cases hb : readsB o <;> cases hd : readsDst o <;> simp [laneInputs, isPoison, hb, hd]

theorem elementResult_of_poisoned (h : (laneInputs e o i).any isPoison = true) :
    elementResult e o i = ⟨⟨0#32, .poison⟩, 0#7⟩ := if_pos h

theorem elementResult_of_not_poisoned (h : ¬(laneInputs e o i).any isPoison = true) :
    elementResult e o i = laneResult e.job.desc o (cellInt (laneOf e.srcA i)) (cellInt (laneB e i))
      (cellInt (laneOf e.srcD i)) := if_neg h

theorem getElem?_elementResults (h : jobOp e.job.desc = some o) (ho : o ∈ elementWiseOps)
    (hi : i < countOf e.job.desc) : (jobResults e)[i]? = some (elementResult e o i) := by
  rw [jobResults_of_elementWise h ho, List.getElem?_map, List.getElem?_range hi]
  rfl

theorem reductionResult_of_poisoned (h : ∃ c ∈ e.srcA ++ e.srcB, c.tag = .poison) :
    reductionResult e o = ⟨⟨0#32, .poison⟩, 0#7⟩ := by
  have : (e.srcA ++ e.srcB).any isPoison = true := by
    rw [List.any_eq_true]
    simpa [isPoison] using h
  exact if_pos this

theorem taggedCell_eq (v : Raw) (t : Tag) : taggedCell v t = ⟨if t = .valid then v else 0#32, t⟩ := by
  cases t <;> rfl

/-- A result in the form of R1 has value 0 unless it is VALID. -/
theorem value_of_inForm {c : Cell} (h : inForm c) (ht : c.tag ≠ .valid) : c.value = 0#32 := by
  rw [inForm, taggedCell_eq, if_neg ht] at h
  rw [← h]

/-! ## The conditions of a result (R30) -/

/-- Every condition of `c` is one of `x`. -/
def CondsWithin (c x : CondSet) : Prop := ∀ k, c.getLsbD k = true → x.getLsbD k = true

theorem condsWithin_iff {c x : CondSet} : CondsWithin c x ↔ c &&& ~~~x = 0#7 := by
  constructor
  · intro h
    refine BitVec.eq_of_getLsbD_eq fun k hk => ?_
    have := h k
    cases hc : c.getLsbD k <;> simp_all
  · intro h k hc
    have hk : k < 7 := by
      by_contra hge
      rw [BitVec.getLsbD_of_ge c k (by omega)] at hc
      cases hc
    have := congrArg (·.getLsbD k) h
    simpa [hc, hk] using this

theorem CondsWithin.zero (x : CondSet) : CondsWithin 0#7 x := fun k h => by simp at h

/-- The conditions that a settled result can have. -/
theorem conds_settleResult (z : Int) (exact : Bool) : (settleResult z exact).conds = 0#7 ∨
    (settleResult z exact).conds = inexactBit ∨
    (settleResult z exact).conds = overflowBit ||| inexactBit := by
  rcases lt_or_ge 2147483647 z with h1 | h1
  · rw [settleResult_of_above h1]; exact .inr (.inr rfl)
  rcases lt_or_ge z (-2147483648) with h0 | h0
  · rw [settleResult_of_below h0]; exact .inr (.inr rfl)
  · rw [settleResult_of_range h0 h1]
    cases exact
    · exact .inr (.inl rfl)
    · exact .inl rfl

theorem condsWithin_settleResult {x : CondSet} (z : Int) (exact : Bool)
    (hx : (overflowBit ||| inexactBit) &&& ~~~x = 0#7) (hi : inexactBit &&& ~~~x = 0#7) :
    CondsWithin (settleResult z exact).conds x := by
  rw [condsWithin_iff]
  rcases conds_settleResult z exact with h | h | h <;> rw [h]
  · simp
  · exact hi
  · exact hx

/-- An integer in range raises no condition. -/
theorem conds_intResult_of_range {z : Int} (h0 : -2147483648 ≤ z) (h1 : z ≤ 2147483647) :
    (intResult z).conds = 0#7 := by
  rw [intResult, settleResult_of_range h0 h1]
  rfl

theorem cellInt_range (c : Cell) : -2147483648 ≤ cellInt c ∧ cellInt c ≤ 2147483647 := by
  have h0 := BitVec.le_toInt c.value
  have h1 := BitVec.toInt_lt (x := c.value)
  rw [cellInt]
  omega

/-- A lane raises no condition but those of its operation. -/
theorem condsWithin_laneResult {d : Desc} (hop : jobOp d = some o) (ho : o ∈ elementWiseOps)
    (ca cb cd : Cell) :
    CondsWithin (laneResult d o (cellInt ca) (cellInt cb) (cellInt cd)).conds (execConds o) := by
  have ha := cellInt_range ca
  have hb := cellInt_range cb
  have hzero : ∀ {r : ElemResult}, r.conds = 0#7 → CondsWithin r.conds (execConds o) :=
    fun h => h ▸ CondsWithin.zero _
  cases o with
  | add | sub | neg | abs | mul | mac => exact condsWithin_settleResult _ _ (by decide) (by decide)
  | rescale => simp only [laneResult]; split <;> exact condsWithin_settleResult _ _ (by decide) (by decide)
  | min =>
    refine hzero (conds_intResult_of_range ?_ ?_) <;> split <;> omega
  | max =>
    refine hzero (conds_intResult_of_range ?_ ?_) <;> split <;> omega
  | cmp =>
    refine hzero (conds_intResult_of_range ?_ ?_) <;> split <;> (try split) <;> omega
  | div =>
    simp only [laneResult]
    split
    · split
      · exact condsWithin_iff.2 (by decide)
      · exact condsWithin_iff.2 (show zeroDivideBit &&& ~~~execConds .div = 0#7 by decide)
    · split <;> exact condsWithin_settleResult _ _ (by decide) (by decide)
  | sqrt =>
    have hf : fracField d ≠ 31#5 := by
      obtain ⟨hm, -⟩ := jobOp_eq_some_iff.1 hop
      exact fun e => hm (.inr (.inr (.inl e)))
    simp only [laneResult]
    split
    · exact condsWithin_iff.2 (by decide)
    · rw [rootResult_eq _ (scaledSource_lt ha.2 hf)]
      dsimp only
      split <;> exact condsWithin_iff.2 (by decide)
  | setframe | fence | move | loadk | clear | sumv | dot => exact absurd ho (by decide)

theorem condsWithin_reductionResult (ho : o = .sumv ∨ o = .dot) :
    CondsWithin (reductionResult e o).conds (execConds o) := by
  unfold reductionResult
  split
  · exact CondsWithin.zero _
  · rcases ho with rfl | rfl
    · exact condsWithin_settleResult _ _ (by decide) (by decide)
    · exact condsWithin_settleResult _ _ (by decide) (by decide)

/-- No result raises a condition that its operation cannot raise. -/
theorem condsWithin_of_mem_jobResults (h : jobOp e.job.desc = some o) (hr : r ∈ jobResults e) :
    CondsWithin r.conds (execConds o) := by
  obtain ho | ho | rfl | rfl | rfl | ho := op_kind o
  · rw [jobResults_of_elementWise h ho] at hr
    obtain ⟨i, -, rfl⟩ := List.mem_map.1 hr
    unfold elementResult
    split
    · exact CondsWithin.zero _
    · exact condsWithin_laneResult h ho _ _ _
  · rw [jobResults_of_reduction h ho] at hr
    obtain rfl := List.mem_singleton.1 hr
    exact condsWithin_reductionResult ho
  · rw [jobResults_of_move h] at hr
    obtain ⟨c, -, rfl⟩ := List.mem_map.1 hr
    exact CondsWithin.zero _
  · rw [jobResults_of_loadk h] at hr
    rw [List.eq_of_mem_replicate hr]
    exact CondsWithin.zero _
  · rw [jobResults_of_clear h] at hr
    rw [List.eq_of_mem_replicate hr]
    exact CondsWithin.zero _
  · rw [jobResults_of_control h ho] at hr
    cases hr

/-! ## The job's conditions (R31) -/

theorem getLsbD_foldl_conds (rs : List ElemResult) (c : CondSet) (k : Nat) :
    (rs.foldl (fun c r => c ||| r.conds) c).getLsbD k = true ↔
      c.getLsbD k = true ∨ ∃ r ∈ rs, r.conds.getLsbD k = true := by
  induction rs generalizing c with
  | nil => simp
  | cons r rs ih => simp [ih, or_assoc]

theorem getLsbD_poisonIn : ∀ k, poisonInBit.getLsbD k = true ↔ k = 4 := by
  intro k
  by_cases hk : k < 7
  · interval_cases k <;> decide
  · rw [BitVec.getLsbD_of_ge _ k (by omega)]
    exact iff_of_false (by decide) (by omega)

/-- The job's conditions are its elements', with POISON_IN from its issue. -/
theorem getLsbD_jobConds (e : InFlight) (k : Nat) : (jobConds e).getLsbD k = true ↔
    (∃ r ∈ jobResults e, r.conds.getLsbD k = true) ∨ k = 4 ∧ e.poisonIn = true := by
  rw [jobConds, BitVec.getLsbD_or, Bool.or_eq_true, unionConds, getLsbD_foldl_conds]
  cases e.poisonIn <;> simp [getLsbD_poisonIn]

theorem condsWithin_jobConds (h : jobOp e.job.desc = some o) :
    CondsWithin (jobConds e) (execConds o ||| if e.poisonIn then poisonInBit else 0#7) := by
  intro k hk
  rw [BitVec.getLsbD_or, Bool.or_eq_true]
  rcases (getLsbD_jobConds e k).1 hk with ⟨r, hr, hc⟩ | ⟨rfl, hp⟩
  · exact .inl (condsWithin_of_mem_jobResults h hr k hc)
  · exact .inr (by rw [if_pos hp]; decide)

end

/-- Settles O50, operation by operation. -/
theorem jobResultsByOperation : Obligations.JobResultsByOperation := by
  intro e o h
  refine ⟨fun ho => ⟨?_, fun i hi => ⟨fun hp => ?_, fun hp => ?_⟩⟩, fun ho => ⟨jobResults_of_reduction h ho, ?_⟩,
    fun ho => ?_, fun ho => ?_, fun ho => ?_, fun k _ => getLsbD_jobConds e k,
    condsWithin_iff.1 (condsWithin_jobConds h), fun r hr => value_of_inForm (inForm_of_mem_jobResults hr)⟩
  · rw [jobResults_of_elementWise h ho, List.length_map, List.length_range]
    rfl
  · rw [getElem?_elementResults h ho hi, elementResult_of_poisoned (laneInputs_poisoned_iff.2 hp)]
  · rw [getElem?_elementResults h ho hi, elementResult_of_not_poisoned (mt laneInputs_poisoned_iff.1 hp)]
    rfl
  · exact reductionResult_of_poisoned
  · subst ho
    rw [jobResults_of_move h]
    simp only [taggedCell_eq]
  · subst ho
    exact jobResults_of_loadk h
  · subst ho
    exact jobResults_of_clear h

end Sys2Proof.Machine
